-- ==== Sys2Proof/Word.lean ====
section
/-! DEFINITION. The widths the spec fixes (spec/00_scope.md R6, R8) under its own names. -/

namespace Sys2Proof

/-- A command word or a response word: CMD_W = RSP_W = 64 (R6, R70). -/
abbrev PortWord := BitVec 64

/-- A table entry or a permutation value as the port carries it: ENTRY_W = 32 (R6). -/
abbrev Entry := BitVec 32

/-- A 6-bit dimension register: SB_LOGN, SB_LOGM, PB_N (R23, R28). -/
abbrev Dim := BitVec 6

/-- A PBox cell: a 1-based position in 6 bits (R29, R30). -/
abbrev Position := BitVec 6

/-- A bit vector: an ordered finite sequence of bits, index 0 the first element (R8). -/
abbrev Bits := List Bool

/-- A byte of a platform's byte-addressed bus (R54); no state of the block is made of bytes. -/
abbrev Byte := BitVec 8

/-- PBOX_N_MAX: the largest permutation length (R6). -/
abbrev pboxNMax : Nat := 32

end Sys2Proof
end

