-- ==== Sys2Proof/Config.lean ====
section
/-! DEFINITION. What the spec leaves to the implementation (spec/00_scope.md R6) and the values it leaves unspecified
after reset (spec/10_state.md R40, spec/70_reset_and_hazards.md R230 to R232). Each is a constant with no body: a
statement about it holds for every value it may have. -/

namespace Sys2Proof

/-- The order in which a platform's byte bus carries a port word (R54). -/
inductive ByteOrder where
  | leastSignificantFirst
  | mostSignificantFirst
  deriving DecidableEq, Repr, Inhabited

namespace Config

/-- SBOX_B_MAX - 8, an open parameter (R6; 92_eei_decisions.md D4; log 1). -/
opaque sboxBMaxOver8 : Fin 25

/-- SBOX_B_MAX: the largest SBox input width the block stores, 8 ≤ SBOX_B_MAX ≤ 32 (R6; log 1). -/
def sboxBMax : Nat := 8 + sboxBMaxOver8.val

/-- CAP = 2^SBOX_B_MAX (41_sbox.md, opening). -/
def cap : Nat := 2 ^ sboxBMax

/-- PORT_BYTE_ORDER, an open parameter that no rule inside the block reads (R6, R54; log 9). -/
opaque portByteOrder : ByteOrder

/-- SB_LOGN after the k-th reset: unspecified (R40; log 2). -/
opaque resetSbLogn : Nat → Dim

/-- SB_LOGM after the k-th reset: unspecified (R40; log 2). -/
opaque resetSbLogm : Nat → Dim

/-- PB_N after the k-th reset: unspecified (R40; log 2). -/
opaque resetPbN : Nat → Dim

/-- SB_FWD[a] after the k-th reset, until a command writes it: unspecified (R40; log 3). -/
opaque resetSbFwd : Nat → Nat → Entry

/-- SB_INV[a] after the k-th reset, until a command writes it: unspecified (R40; log 3). -/
opaque resetSbInv : Nat → Nat → Entry

/-- SSTG_BUF[a] after the k-th reset, until a command writes it: unspecified (R40; log 3). -/
opaque resetSstgBuf : Nat → Nat → Entry

/-- PB_FWD[i] after the k-th reset, until a command writes it: unspecified (R40; log 3). -/
opaque resetPbFwd : Nat → Nat → Position

/-- PB_INV[i] after the k-th reset, until a command writes it: unspecified (R40; log 3). -/
opaque resetPbInv : Nat → Nat → Position

/-- PSTG_BUF[i] after the k-th reset, until a command writes it: unspecified (R40; log 3). -/
opaque resetPstgBuf : Nat → Nat → Entry

end Config
end Sys2Proof
end

