-- ==== Sys2Proof/Syntax.lean ====
section
/-! DEFINITION. The commands: one constructor per row of spec/opcode_table.json (spec/30_encoding.md R78). Operands are
the integers R75 assembles: LEN of format V, DATA of formats D and V. -/

namespace Sys2Proof

/-- The three command formats (R72, R73, R74). -/
inductive Format where
  | n
  | d
  | v
  deriving DecidableEq, Repr

/-- A decoded command. -/
inductive Instr where
  | nop
  | getStatus
  | sboxBegin
  | sboxPush (data : Nat)
  | sboxEndrow
  | sboxBuild
  | sboxFwd (len data : Nat)
  | sboxInv (len data : Nat)
  | sboxRdf (data : Nat)
  | sboxRdi (data : Nat)
  | pboxBegin
  | pboxPush (data : Nat)
  | pboxBuild
  | pboxFwd (len data : Nat)
  | pboxInv (len data : Nat)
  | pboxRdf (data : Nat)
  | pboxRdi (data : Nat)
  deriving DecidableEq, Repr

end Sys2Proof
end

