-- ==== Sys2Proof/WellFormed.lean ====
section
/-! DEFINITION. Which commands a word can carry: DATA is an integer 0 to 2^32 - 1 and LEN an integer 0 to 63
(spec/30_encoding.md R75). -/

namespace Sys2Proof

/-- DATA fits its 32-bit field (R75). -/
def dataFits (data : Nat) : Bool := decide (data < 2 ^ 32)

/-- LEN fits its 6-bit field (R75); LEN above 32 is legal (R81). -/
def lenFits (len : Nat) : Bool := decide (len < 64)

/-- Every operand of the command fits its field. -/
def Instr.wellFormed : Instr → Bool
  | .nop => true
  | .getStatus => true
  | .sboxBegin => true
  | .sboxPush data => dataFits data
  | .sboxEndrow => true
  | .sboxBuild => true
  | .sboxFwd len data => lenFits len && dataFits data
  | .sboxInv len data => lenFits len && dataFits data
  | .sboxRdf data => dataFits data
  | .sboxRdi data => dataFits data
  | .pboxBegin => true
  | .pboxPush data => dataFits data
  | .pboxBuild => true
  | .pboxFwd len data => lenFits len && dataFits data
  | .pboxInv len data => lenFits len && dataFits data
  | .pboxRdf data => dataFits data
  | .pboxRdi data => dataFits data

/-- The command is one a word can carry. -/
abbrev Instr.WellFormed (i : Instr) : Prop := i.wellFormed = true

end Sys2Proof
end

