-- ==== Sys2Proof/Decode.lean ====
section
/-! DEFINITION. Decoding and encoding of command words (spec/30_encoding.md R70 to R80), and the carriage of a port word
over a byte bus (spec/20_memory.md R54). -/

namespace Sys2Proof

/-! ## Fields of a command word (R71) -/

/-- OPC, bits 63:56. -/
def fieldOpc (w : PortWord) : Nat := (w.toNat >>> 56) % 2 ^ 8

/-- The reserved field at bits 55:54. -/
def fieldRsvHigh (w : PortWord) : Nat := (w.toNat >>> 54) % 2 ^ 2

/-- LEN, bits 53:48. -/
def fieldLen (w : PortWord) : Nat := (w.toNat >>> 48) % 2 ^ 6

/-- The reserved field at bits 47:32. -/
def fieldRsvLow (w : PortWord) : Nat := (w.toNat >>> 32) % 2 ^ 16

/-- DATA, bits 31:0. -/
def fieldData (w : PortWord) : Nat := w.toNat % 2 ^ 32

/-! ## Decoding (R78, R79) -/

/-- Why a word is an illegal command (R80). -/
inductive DecodeReject where
  /-- OPC is none of the 17 assigned values. -/
  | unassignedOpcode
  /-- Bits 55:54 or 47:32 are not all 0. -/
  | reservedBitsSet
  /-- LEN is not 0 in format N or D. -/
  | lenFieldSet
  /-- DATA is not 0 in format N. -/
  | dataFieldSet
  /-- A byte string that is not the eight bytes of one word. -/
  | notOneWord
  deriving DecidableEq, Repr

/-- The opcode map (R78): the format of an assigned OPC and the command it names, given LEN and DATA. -/
def opcodeRow (opc len data : Nat) : Option (Format × Instr) :=
  match opc with
  | 0x00 => some (.n, .nop)
  | 0x01 => some (.n, .getStatus)
  | 0x10 => some (.n, .sboxBegin)
  | 0x11 => some (.d, .sboxPush data)
  | 0x12 => some (.n, .sboxEndrow)
  | 0x13 => some (.n, .sboxBuild)
  | 0x14 => some (.v, .sboxFwd len data)
  | 0x15 => some (.v, .sboxInv len data)
  | 0x16 => some (.d, .sboxRdf data)
  | 0x17 => some (.d, .sboxRdi data)
  | 0x20 => some (.n, .pboxBegin)
  | 0x21 => some (.d, .pboxPush data)
  | 0x22 => some (.n, .pboxBuild)
  | 0x23 => some (.v, .pboxFwd len data)
  | 0x24 => some (.v, .pboxInv len data)
  | 0x25 => some (.d, .pboxRdf data)
  | 0x26 => some (.d, .pboxRdi data)
  | _ => none

/-- Decoding is total (R79): a word is exactly one command or it is rejected by name. -/
def decode (w : PortWord) : Except DecodeReject Instr :=
  match opcodeRow (fieldOpc w) (fieldLen w) (fieldData w) with
  | none => .error .unassignedOpcode
  | some (fmt, i) =>
    if fieldRsvHigh w ≠ 0 ∨ fieldRsvLow w ≠ 0 then .error .reservedBitsSet
    else if fmt ≠ .v ∧ fieldLen w ≠ 0 then .error .lenFieldSet
    else if fmt = .n ∧ fieldData w ≠ 0 then .error .dataFieldSet
    else .ok i

/-! ## Encoding (R71 to R74, R78) -/

/-- OPC of a command (R78). -/
def Instr.opc : Instr → Nat
  | .nop => 0x00
  | .getStatus => 0x01
  | .sboxBegin => 0x10
  | .sboxPush _ => 0x11
  | .sboxEndrow => 0x12
  | .sboxBuild => 0x13
  | .sboxFwd _ _ => 0x14
  | .sboxInv _ _ => 0x15
  | .sboxRdf _ => 0x16
  | .sboxRdi _ => 0x17
  | .pboxBegin => 0x20
  | .pboxPush _ => 0x21
  | .pboxBuild => 0x22
  | .pboxFwd _ _ => 0x23
  | .pboxInv _ _ => 0x24
  | .pboxRdf _ => 0x25
  | .pboxRdi _ => 0x26

/-- The format of a command (R78). -/
def Instr.format : Instr → Format
  | .nop => .n
  | .getStatus => .n
  | .sboxBegin => .n
  | .sboxPush _ => .d
  | .sboxEndrow => .n
  | .sboxBuild => .n
  | .sboxFwd _ _ => .v
  | .sboxInv _ _ => .v
  | .sboxRdf _ => .d
  | .sboxRdi _ => .d
  | .pboxBegin => .n
  | .pboxPush _ => .d
  | .pboxBuild => .n
  | .pboxFwd _ _ => .v
  | .pboxInv _ _ => .v
  | .pboxRdf _ => .d
  | .pboxRdi _ => .d

/-- LEN of a command; 0 where the format has no LEN (R72, R73). -/
def Instr.len : Instr → Nat
  | .sboxFwd len _ => len
  | .sboxInv len _ => len
  | .pboxFwd len _ => len
  | .pboxInv len _ => len
  | .nop => 0
  | .getStatus => 0
  | .sboxBegin => 0
  | .sboxPush _ => 0
  | .sboxEndrow => 0
  | .sboxBuild => 0
  | .sboxRdf _ => 0
  | .sboxRdi _ => 0
  | .pboxBegin => 0
  | .pboxPush _ => 0
  | .pboxBuild => 0
  | .pboxRdf _ => 0
  | .pboxRdi _ => 0

/-- DATA of a command; 0 in format N (R72). -/
def Instr.data : Instr → Nat
  | .sboxPush data => data
  | .sboxFwd _ data => data
  | .sboxInv _ data => data
  | .sboxRdf data => data
  | .sboxRdi data => data
  | .pboxPush data => data
  | .pboxFwd _ data => data
  | .pboxInv _ data => data
  | .pboxRdf data => data
  | .pboxRdi data => data
  | .nop => 0
  | .getStatus => 0
  | .sboxBegin => 0
  | .sboxEndrow => 0
  | .sboxBuild => 0
  | .pboxBegin => 0
  | .pboxBuild => 0

/-- The word of a command: OPC at 63:56, LEN at 53:48, DATA at 31:0, every other bit 0 (R71). -/
def encode (i : Instr) : PortWord := BitVec.ofNat 64 (i.opc <<< 56 ||| i.len <<< 48 ||| i.data)

/-! ## Masks and matches (R72, R73, R74) -/

/-- The mask of a format. -/
def Format.mask : Format → PortWord
  | .n => 0xFFFFFFFFFFFFFFFF#64
  | .d => 0xFFFFFFFF00000000#64
  | .v => 0xFFC0FFFF00000000#64

/-- One row of the opcode table as data: OPC and format; its match is OPC << 56. -/
structure OpcodeRow where
  opc : Nat
  format : Format
  deriving DecidableEq, Repr

/-- The match of a row. -/
def OpcodeRow.matchWord (r : OpcodeRow) : PortWord := BitVec.ofNat 64 (r.opc <<< 56)

/-- The row accepts the word: `(w & mask) == match` (R79). -/
def OpcodeRow.accepts (r : OpcodeRow) (w : PortWord) : Prop := w &&& r.format.mask = r.matchWord

/-- The 17 rows of R78 and of spec/opcode_table.json. -/
def opcodeTable : List OpcodeRow :=
  [⟨0x00, .n⟩, ⟨0x01, .n⟩] ++
  [⟨0x10, .n⟩, ⟨0x11, .d⟩, ⟨0x12, .n⟩, ⟨0x13, .n⟩, ⟨0x14, .v⟩, ⟨0x15, .v⟩, ⟨0x16, .d⟩, ⟨0x17, .d⟩] ++
  [⟨0x20, .n⟩, ⟨0x21, .d⟩, ⟨0x22, .n⟩, ⟨0x23, .v⟩, ⟨0x24, .v⟩, ⟨0x25, .d⟩, ⟨0x26, .d⟩]

/-! ## A port word on a byte bus (R54) -/

/-- The eight bytes of a word, least significant first. -/
def wordBytesLow (w : PortWord) : List Byte := (List.range 8).map (fun k => BitVec.ofNat 8 (w.toNat >>> (8 * k)))

/-- The integer that bytes spell, least significant first. -/
def bytesLowToNat : List Byte → Nat
  | [] => 0
  | b :: bs => b.toNat + 2 ^ 8 * bytesLowToNat bs

/-- The bytes in which a platform carries a port word, under a byte order (R54; log 9). -/
def busBytes (o : ByteOrder) (w : PortWord) : List Byte :=
  match o with
  | .leastSignificantFirst => wordBytesLow w
  | .mostSignificantFirst => (wordBytesLow w).reverse

/-- The port word that bytes carry under a byte order; words move whole, so any other number of bytes is none. -/
def busWord (o : ByteOrder) (bs : List Byte) : Option PortWord :=
  if bs.length = 8 then
    match o with
    | .leastSignificantFirst => some (BitVec.ofNat 64 (bytesLowToNat bs))
    | .mostSignificantFirst => some (BitVec.ofNat 64 (bytesLowToNat bs.reverse))
  else none

/-- Decoding of bytes, total on any byte string. -/
def decodeBytes (o : ByteOrder) (bs : List Byte) : Except DecodeReject Instr :=
  match busWord o bs with
  | some w => decode w
  | none => .error .notOneWord

/-! ## For the host's table check -/

/-- The command the decoder reads from a table word; every bit at or above `nbits` is 0. -/
def decodeTableWord (nbits w : Nat) : Option Instr :=
  match decode (BitVec.ofNat 64 (w % 2 ^ nbits)) with
  | .ok i => some i
  | .error _ => none

end Sys2Proof
end

