-- ==== Sys2Proof/Machine/Response.lean ====
section
/-! DEFINITION. Status codes, causes and response words (spec/60_exceptions.md R200 to R205, spec/30_encoding.md R76). -/

namespace Sys2Proof.Machine

/-- The check of 41_sbox.md that a staged table fails (R202). -/
inductive TableCause where
  | rows
  | cols
  | width
  | capacity
  deriving DecidableEq, Repr

/-- The check of 42_pbox.md that a staged sequence fails (R202). -/
inductive PermCause where
  | length
  | range
  | duplicate
  deriving DecidableEq, Repr

/-- The errors a command may raise (R201); only the first two carry a cause (R202). -/
inductive Error where
  | invalidTable (c : TableCause)
  | invalidPermutation (c : PermCause)
  | invalidInputLength
  | notConfigured
  | illegalCommand
  | sequenceError
  | indexRange
  deriving DecidableEq, Repr

/-- ST of success (R201). -/
def stOk : BitVec 8 := 0x00#8

/-- ST of an error (R201). -/
def Error.st : Error → BitVec 8
  | .invalidTable _ => 0x01#8
  | .invalidPermutation _ => 0x02#8
  | .invalidInputLength => 0x03#8
  | .notConfigured => 0x04#8
  | .illegalCommand => 0x05#8
  | .sequenceError => 0x06#8
  | .indexRange => 0x07#8

/-- CAUSE of a refused table (R202). -/
def TableCause.code : TableCause → BitVec 8
  | .rows => 1#8
  | .cols => 2#8
  | .width => 3#8
  | .capacity => 4#8

/-- CAUSE of a refused permutation (R202). -/
def PermCause.code : PermCause → BitVec 8
  | .length => 1#8
  | .range => 2#8
  | .duplicate => 3#8

/-- CAUSE of an error: 0 but for the two kinds that have one (R202, R203). -/
def Error.cause : Error → BitVec 8
  | .invalidTable c => c.code
  | .invalidPermutation c => c.code
  | .invalidInputLength => 0#8
  | .notConfigured => 0#8
  | .illegalCommand => 0#8
  | .sequenceError => 0#8
  | .indexRange => 0#8

/-- `respond(st, rlen, rdata)` builds `(st << 56) | (rlen << 48) | rdata` (R76). -/
def respondWord (st : BitVec 8) (rlen : Dim) (rdata : Entry) : PortWord :=
  st.setWidth 64 <<< 56 ||| rlen.setWidth 64 <<< 48 ||| rdata.setWidth 64

/-- `raise E(c)` builds `(E << 56) | (c << 40)` (R76, R205). -/
def raiseWord (e : Error) : PortWord := e.st.setWidth 64 <<< 56 ||| e.cause.setWidth 64 <<< 40

/-! ## Fields of a response word (R76) -/

/-- ST, bits 63:56. -/
def rspSt (r : PortWord) : BitVec 8 := r.extractLsb' 56 8

/-- RLEN, bits 53:48. -/
def rspRlen (r : PortWord) : Dim := r.extractLsb' 48 6

/-- CAUSE, bits 47:40. -/
def rspCause (r : PortWord) : BitVec 8 := r.extractLsb' 40 8

/-- RDATA, bits 31:0. -/
def rspRdata (r : PortWord) : Entry := r.extractLsb' 0 32

end Sys2Proof.Machine
end

