-- ==== Sys2Proof/Machine/State.lean ====
section
/-! DEFINITION. The state of the block, its reasons to stop, and the state after reset (spec/10_state.md R20 to R40). -/

namespace Sys2Proof.Machine

/-- What the host can do to the block: send one command word (spec/20_memory.md R58), assert the reset input, or assert
it while a command is being performed (spec/70_reset_and_hazards.md R230, R233). -/
inductive HostInput where
  | command (w : PortWord)
  | reset
  | resetDuring (w : PortWord)
  deriving DecidableEq, Repr

/-- The active SBox instance: SB_VALID, SB_LOGN, SB_LOGM, SB_FWD, SB_INV (R22 to R25). An array is the list of its cells
0, 1, … that a command has written since reset (log 10); SB_FWD and SB_INV cells are held zero-extended (log 8). -/
structure ActiveSbox where
  valid : Bool
  logn : Dim
  logm : Dim
  fwd : List Entry
  inv : List Entry
  deriving DecidableEq, Repr

/-- The active PBox instance: PB_VALID, PB_N, PB_FWD, PB_INV (R27 to R30). -/
structure ActivePbox where
  valid : Bool
  n : Dim
  fwd : List Position
  inv : List Position
  deriving DecidableEq, Repr

/-- The SBox load: SSTG_OPEN, SSTG_BUF, SSTG_CNT, SSTG_ROWS, SSTG_CUR, SSTG_M, SSTG_RAGGED (R32 to R35). `m = none` is the
spec's mark NONE. -/
structure SboxStaging where
  isOpen : Bool
  buf : List Entry
  cnt : Nat
  rows : Nat
  cur : Nat
  m : Option Nat
  ragged : Bool
  deriving DecidableEq, Repr

/-- The PBox load: PSTG_OPEN, PSTG_BUF, PSTG_CNT (R36). -/
structure PboxStaging where
  isOpen : Bool
  buf : List Entry
  cnt : Nat
  deriving DecidableEq, Repr

/-- The whole machine: the elements of R22 to R36, the two sides of the port, and the model's count of resets (log 4).
`inputs` is what the host gives, oldest first (log 5); `rsp` is the response word the last input produced, if any. -/
structure State where
  sbox : ActiveSbox
  pbox : ActivePbox
  sstg : SboxStaging
  pstg : PboxStaging
  inputs : List HostInput
  rsp : Option PortWord
  resets : Nat
  deriving DecidableEq, Repr

/-- No constructor: "the block itself contributes no fault" (spec/60_exceptions.md R217). Nobody raises one; safe. -/
inductive Fault where
  deriving DecidableEq, Repr

/-- The block contributes no refusal either (R217). -/
inductive Refusal where
  /-- Raised by an arm of exec that has no meaning yet; safe. No arm raises it. -/
  | notModelled (mnemonic : String)
  deriving DecidableEq, Repr

/-- The state after the k-th reset (R40, R230), with what the host still gives: VALID and OPEN bits 0, counters 0, SSTG_M
NONE, SSTG_RAGGED 0; the dimension registers hold free values (log 2) and no array cell is written, so each reads as a
free value (log 3). Reset produces no response word. -/
def State.atReset (k : Nat) (inputs : List HostInput) : State where
  sbox := { valid := false, logn := Config.resetSbLogn k, logm := Config.resetSbLogm k, fwd := [], inv := [] }
  pbox := { valid := false, n := Config.resetPbN k, fwd := [], inv := [] }
  sstg := { isOpen := false, buf := [], cnt := 0, rows := 0, cur := 0, m := none, ragged := false }
  pstg := { isOpen := false, buf := [], cnt := 0 }
  inputs := inputs
  rsp := none
  resets := k

/-- The machine right after reset, the host having given nothing yet (R40). -/
def State.reset : State := State.atReset 0 []

end Sys2Proof.Machine
end

