-- ==== Sys2Proof/Machine/Ops.lean ====
section
/-! DEFINITION. The shared operations: the cells of the block's arrays (spec/20_memory.md R51, R52), the saturating
staging counters (spec/10_state.md R33 to R36), responding, raising an error (spec/60_exceptions.md R205) and reset
(spec/70_reset_and_hazards.md R230). -/

namespace Sys2Proof.Machine

/-! ## Arrays of cells

An array is the list of its cells written since reset, from cell 0 on; `free a` is what cell a holds while no command
has written it (log 3, log 10). -/

/-- Cell a. -/
def Cells.read {w : Nat} (free : Nat → BitVec w) (cells : List (BitVec w)) (a : Nat) : BitVec w :=
  (cells[a]?).getD (free a)

/-- The first n cells in order, written or not. -/
def Cells.first {w : Nat} (free : Nat → BitVec w) (cells : List (BitVec w)) (n : Nat) : List (BitVec w) :=
  cells.take n ++ (List.range' cells.length (n - cells.length)).map free

/-- Cell a becomes v; every other cell holds what it held. -/
def Cells.write {w : Nat} (free : Nat → BitVec w) (cells : List (BitVec w)) (a : Nat) (v : BitVec w) :
    List (BitVec w) :=
  Cells.first free cells a ++ v :: cells.drop (a + 1)

/-- Cells 0, 1, … become the values; every cell above them is left unchanged (R131, R168). -/
def Cells.install {w : Nat} (cells values : List (BitVec w)) : List (BitVec w) :=
  values ++ cells.drop values.length

/-- A value cut to the SBOX_B_MAX bits of an SB_FWD or SB_INV cell (R24, R25; log 8). -/
def sboxCell (v : Entry) : Entry := BitVec.ofNat 32 (v.toNat % 2 ^ Config.sboxBMax)

/-- `SB_FWD[a]` (R24). -/
def State.sbFwdAt (s : State) (a : Nat) : Entry :=
  Cells.read (fun k => sboxCell (Config.resetSbFwd s.resets k)) s.sbox.fwd a

/-- `SB_INV[a]` (R25). -/
def State.sbInvAt (s : State) (a : Nat) : Entry :=
  Cells.read (fun k => sboxCell (Config.resetSbInv s.resets k)) s.sbox.inv a

/-- `PB_FWD[i]` (R29). -/
def State.pbFwdAt (s : State) (i : Nat) : Position := Cells.read (Config.resetPbFwd s.resets) s.pbox.fwd i

/-- `PB_INV[i]` (R30). -/
def State.pbInvAt (s : State) (i : Nat) : Position := Cells.read (Config.resetPbInv s.resets) s.pbox.inv i

/-- `SSTG_BUF[k]` (R33). -/
def State.sstgBufAt (s : State) (k : Nat) : Entry := Cells.read (Config.resetSstgBuf s.resets) s.sstg.buf k

/-- `PSTG_BUF[k]` (R36). -/
def State.pstgBufAt (s : State) (k : Nat) : Entry := Cells.read (Config.resetPstgBuf s.resets) s.pstg.buf k

/-- `SSTG_BUF[0 .. n)`. -/
def State.sstgFirst (s : State) (n : Nat) : List Entry := Cells.first (Config.resetSstgBuf s.resets) s.sstg.buf n

/-- `PSTG_BUF[0 .. n)`. -/
def State.pstgFirst (s : State) (n : Nat) : List Entry := Cells.first (Config.resetPstgBuf s.resets) s.pstg.buf n

/-! ## Dimensions -/

/-- SB_B = SB_LOGN + SB_LOGM (R23). -/
def State.sbB (s : State) : Nat := s.sbox.logn.toNat + s.sbox.logm.toNat

/-- PB_N as an integer (R28). -/
def State.pbN (s : State) : Nat := s.pbox.n.toNat

/-! ## Staging counters -/

/-- n ≤ CAP. A count of at most 256 fits whatever SBOX_B_MAX is (it is at least 8), and is answered without it (log 18). -/
def fitsCap (n : Nat) : Bool := decide (n ≤ 256) || decide (n ≤ Config.cap)

/-- `sat(x) = min(x, CAP + 1)` (41_sbox.md, opening). -/
def sat (x : Nat) : Nat := if fitsCap x then x else Config.cap + 1

/-- `close_row` (R122): the open row becomes a closed one; the first closed row fixes m, a later one of another length
makes the table ragged. -/
def closeRow (g : SboxStaging) : SboxStaging :=
  match g.m with
  | none => { g with rows := sat (g.rows + 1), cur := 0, m := some g.cur }
  | some m => { g with rows := sat (g.rows + 1), cur := 0, ragged := g.ragged || decide (g.cur ≠ m) }

/-! ## Responding and raising -/

/-- `respond(OK, rlen, rdata)` ends a command: its response word and the state its writes leave (R9, R76). -/
def respond (rlen rdata : Nat) (s : State) : Host.Outcome State Fault Refusal :=
  .next { s with rsp := some (respondWord stOk (BitVec.ofNat 6 rlen) (BitVec.ofNat 32 rdata)) }

/-- `raise E(c)`, the block's one way to report an error: the response `(E << 56) | (c << 40)` and no state element
changed. There is no trap, no handler and no return (R9, R200, R205, R209). -/
def raise (e : Error) (s : State) : Host.Outcome State Fault Refusal := .next { s with rsp := some (raiseWord e) }

/-! ## Reset -/

/-- The reset input is asserted: every element takes its value of R40, with new free contents, and no response is
produced (R230; log 4). -/
def takeReset (s : State) : Host.Outcome State Fault Refusal := .next (State.atReset (s.resets + 1) s.inputs)

/-- Reset asserted while a command is being performed abandons the command, and no response is produced for it; the
state afterwards is that of a reset (R233; log 7). -/
def abandonAndReset (_w : PortWord) (s : State) : Host.Outcome State Fault Refusal := takeReset s

/-- With no input from the host the block waits: nothing changes (log 5). -/
def wait (s : State) : Host.Outcome State Fault Refusal := .next s

end Sys2Proof.Machine
end

