-- ==== Sys2Proof/Machine/Flags.lean ====
section
/-! DEFINITION. The STATUS view, the block's only flags (spec/10_state.md R37, spec/43_control.md R191). -/

namespace Sys2Proof.Machine

/-- One status bit at position k. -/
def statusBit (b : Bool) (k : Nat) : Entry := (BitVec.ofBool b).setWidth 32 <<< k

/-- The dimensions of the active SBox, 0 while there is none (R37; 92_eei_decisions.md D29). -/
def statusSboxDims (s : State) : Entry :=
  if s.sbox.valid then s.sbox.logn.setWidth 32 <<< 8 ||| s.sbox.logm.setWidth 32 <<< 16 else 0#32

/-- The length of the active PBox, 0 while there is none (R37; D29). -/
def statusPboxDim (s : State) : Entry := if s.pbox.valid then s.pbox.n.setWidth 32 <<< 24 else 0#32

/-- STATUS (R37), in the order of R191. -/
def State.status (s : State) : Entry :=
  statusBit s.sbox.valid 0 ||| statusBit s.pbox.valid 1 ||| statusBit s.sstg.isOpen 2 ||| statusBit s.pstg.isOpen 3
    ||| statusSboxDims s ||| statusPboxDim s

end Sys2Proof.Machine
end

