-- ==== Sys2Proof/Machine/Control.lean ====
section
/-! DEFINITION. Control and status commands (spec/43_control.md). -/

namespace Sys2Proof.Machine

/-- NOP (R190). -/
def execNop (s : State) : Host.Outcome State Fault Refusal := respond 0 0 s

/-- GET_STATUS (R191). -/
def execGetStatus (s : State) : Host.Outcome State Fault Refusal := respond 0 s.status.toNat s

end Sys2Proof.Machine
end

