-- ==== Sys2Proof/Machine/Codec.lean ====
section
/-! DEFINITION. The bit-vector codec and the width functions, internal to the block (spec/40_codec.md R100 to R110). -/

namespace Sys2Proof.Machine

/-- `bits_to_num(v)`: the integer v spells, most significant bit first; 0 for the empty vector (R100). -/
def bitsToNum (v : Bits) : Nat := v.foldl (fun x b => 2 * x + b.toNat) 0

/-- `num_to_bits(num, L)`: the L low bits of num, collected least significant first and then reversed (R102). -/
def numToBits (num L : Nat) : Bits := ((List.range L).map num.testBit).reverse

/-- The loop of `ceil_log`, with fuel: halve n, rounding up, until n ≤ 1, counting (R104). -/
def ceilLogLoop : (fuel n : Nat) → Nat
  | 0, _ => 0
  | fuel + 1, n => if n > 1 then ceilLogLoop fuel ((n + 1) >>> 1) + 1 else 0

/-- `ceil_log(n)`, the bits needed to address n values; the loop runs fewer than n times (R104). -/
def ceilLog (n : Nat) : Nat := ceilLogLoop n n

/-- `bitlen(v)`: the bits needed to represent v, 0 for v = 0 (R105). -/
def bitlen (v : Nat) : Nat := if v = 0 then 0 else Nat.log2 v + 1

/-- `is_pow2(x)`: x ≥ 1 and `x & (x - 1) = 0` (R106). -/
def isPow2 (x : Nat) : Bool := decide (x ≥ 1) && decide (x &&& (x - 1) = 0)

/-- The greatest bit length among entries, 0 for none (R123's w). -/
def maxBitlen (entries : List Entry) : Nat := entries.foldl (fun w e => max w (bitlen e.toNat)) 0

end Sys2Proof.Machine
end

