-- ==== Sys2Proof/Machine/Operands.lean ====
section
/-! DEFINITION. Operand assembly (spec/30_encoding.md R75) and the address a vector operand forms (spec/40_codec.md
R109). Format N has no operand; the plain integer of format D is DATA itself. -/

namespace Sys2Proof.Machine

/-- The vector operand of format V: `num_to_bits(DATA, LEN)`, so DATA bits at positions ≥ LEN are ignored (R75). -/
def vectorOperand (len data : Nat) : Bits := numToBits data len

/-- The value a PUSH appends: DATA as a 32-bit entry (R75, R121, R161; log 14). -/
def pushOperand (data : Nat) : Entry := BitVec.ofNat 32 data

/-- `outer`: the integer of the first LN bits (R109). -/
def splitOuter (ln : Nat) (v : Bits) : Nat := bitsToNum (v.take ln)

/-- `middle`: the integer of the bits from LN on (R109). -/
def splitMiddle (ln : Nat) (v : Bits) : Nat := bitsToNum (v.drop ln)

/-- The linear address `(i << LM) | j` of row i, column j (R24, R108). -/
def linearAddr (lm i j : Nat) : Nat := i <<< lm ||| j

end Sys2Proof.Machine
end

