-- ==== Sys2Proof/Machine/Pbox.lean ====
section
/-! DEFINITION. The PBox family (spec/42_pbox.md): loading, construction with inverse_permutation_builder, transforms and
readbacks. Errors are checked in the order of the rules; a command that raises writes nothing. -/

namespace Sys2Proof.Machine

/-! ## Loading (R160, R161) -/

/-- PBOX_BEGIN (R160). -/
def execPboxBegin (s : State) : Host.Outcome State Fault Refusal :=
  respond 0 0 { s with pstg := { s.pstg with isOpen := true, cnt := 0 } }

/-- The staging after one more value: stored while fewer than 32 were pushed, counted up to 33 (R161). -/
def pboxAppend (v : Entry) (s : State) : PboxStaging :=
  { s.pstg with
    buf := if s.pstg.cnt < pboxNMax then
        Cells.write (Config.resetPstgBuf s.resets) s.pstg.buf s.pstg.cnt v
      else s.pstg.buf
    cnt := min (s.pstg.cnt + 1) (pboxNMax + 1) }

/-- PBOX_PUSH (R161). -/
def execPboxPush (data : Nat) (s : State) : Host.Outcome State Fault Refusal :=
  if s.pstg.isOpen = false then raise .sequenceError s
  else respond 0 0 { s with pstg := pboxAppend (pushOperand data) s }

/-! ## Construction (R162 to R168) -/

/-- The bijection check of R162 and R164: the values in ascending index order, with the 32-bit mask of positions used;
the cause of the first value that is out of range or a repeat. -/
def permFault (n : Nat) : (values : List Entry) → (used : BitVec 32) → Option PermCause
  | [], _ => none
  | v :: vs, used =>
    if v.toNat = 0 ∨ v.toNat > n then some .range
    else if used.getLsbD (v.toNat - 1) then some .duplicate
    else permFault n vs (used ||| 1#32 <<< (v.toNat - 1))

/-- The checks of R162 in order (R163, R164). -/
def pboxVerdict (n : Nat) (values : List Entry) : Option PermCause :=
  if n = 0 ∨ n > pboxNMax then some .length else permFault n values 0#32

/-- `inverse_permutation_builder` (R167): `q[p[i] - 1] <- i + 1` for each i; every cell is written (log 11). -/
def inversePermutationBuilder (p : List Entry) (n : Nat) : List Position :=
  (List.range n).foldl (fun q i => q.set ((p.getD i 0#32).toNat - 1) (BitVec.ofNat 6 (i + 1))) (List.replicate n 0#6)

/-- `install(n)` (R168): the active PBox is replaced whole and staging closes. -/
def pboxInstall (n : Nat) (s : State) : State :=
  let p := s.pstgFirst n
  { s with
    pbox := {
      valid := true
      n := BitVec.ofNat 6 n
      fwd := Cells.install s.pbox.fwd (p.map (fun v => v.setWidth 6))
      inv := Cells.install s.pbox.inv (inversePermutationBuilder p n) }
    pstg := { s.pstg with isOpen := false } }

/-- PBOX_BUILD (R162). -/
def execPboxBuild (s : State) : Host.Outcome State Fault Refusal :=
  if s.pstg.isOpen = false then raise .sequenceError s
  else
    match pboxVerdict s.pstg.cnt (s.pstgFirst s.pstg.cnt) with
    | some c => raise (.invalidPermutation c) s
    | none => respond s.pstg.cnt 0 (pboxInstall s.pstg.cnt s)

/-! ## Transforms (R169 to R171) -/

/-- The scatter `vout[P[i] - 1] <- vin[i]` for i = 0 .. n - 1 (R169); every element is written (log 11). -/
def permuteBits (perm : Nat → Position) (n : Nat) (vin : Bits) : Bits :=
  (List.range n).foldl (fun vout i => vout.set ((perm i).toNat - 1) (vin.getD i false)) (List.replicate n false)

/-- `pbox_xform(P, LEN, DATA)` (R169). -/
def pboxXform (perm : Nat → Position) (len data : Nat) (s : State) : Host.Outcome State Fault Refusal :=
  if s.pbox.valid = false then raise .notConfigured s
  else if len ≠ s.pbN then raise .invalidInputLength s
  else respond s.pbN (bitsToNum (permuteBits perm s.pbN (vectorOperand len data))) s

/-- PBOX_FWD (R170). -/
def execPboxFwd (len data : Nat) (s : State) : Host.Outcome State Fault Refusal := pboxXform s.pbFwdAt len data s

/-- PBOX_INV (R171). -/
def execPboxInv (len data : Nat) (s : State) : Host.Outcome State Fault Refusal := pboxXform s.pbInvAt len data s

/-! ## Readback (R174, R175) -/

/-- One value of the active PBox, by 0-based index (R174, R175). -/
def pboxReadback (perm : Nat → Position) (data : Nat) (s : State) : Host.Outcome State Fault Refusal :=
  if s.pbox.valid = false then raise .notConfigured s
  else if data ≥ s.pbN then raise .indexRange s
  else respond 0 (perm data).toNat s

/-- PBOX_RDF (R174). -/
def execPboxRdf (data : Nat) (s : State) : Host.Outcome State Fault Refusal := pboxReadback s.pbFwdAt data s

/-- PBOX_RDI (R175). -/
def execPboxRdi (data : Nat) (s : State) : Host.Outcome State Fault Refusal := pboxReadback s.pbInvAt data s

end Sys2Proof.Machine
end

