-- ==== Sys2Proof/Machine/Sbox.lean ====
section
/-! DEFINITION. The SBox family (spec/41_sbox.md): loading, construction with inverse_table_builder, transforms and
readbacks. Errors are checked in the order of the rules; a command that raises writes nothing. -/

namespace Sys2Proof.Machine

/-! ## Loading (R120 to R122) -/

/-- SBOX_BEGIN (R120): open and empty the staging; SSTG_BUF keeps its stale cells. -/
def execSboxBegin (s : State) : Host.Outcome State Fault Refusal :=
  respond 0 0
    { s with sstg := { s.sstg with isOpen := true, cnt := 0, rows := 0, cur := 0, m := none, ragged := false } }

/-- The staging after one more entry: stored below capacity, counted always (R121). -/
def sboxAppend (v : Entry) (s : State) : SboxStaging :=
  { s.sstg with
    buf := if fitsCap (s.sstg.cnt + 1) then
        Cells.write (Config.resetSstgBuf s.resets) s.sstg.buf s.sstg.cnt v
      else s.sstg.buf
    cnt := sat (s.sstg.cnt + 1)
    cur := sat (s.sstg.cur + 1) }

/-- SBOX_PUSH (R121). -/
def execSboxPush (data : Nat) (s : State) : Host.Outcome State Fault Refusal :=
  if s.sstg.isOpen = false then raise .sequenceError s
  else respond 0 0 { s with sstg := sboxAppend (pushOperand data) s }

/-- SBOX_ENDROW (R122). -/
def execSboxEndrow (s : State) : Host.Outcome State Fault Refusal :=
  if s.sstg.isOpen = false then raise .sequenceError s
  else respond 0 0 { s with sstg := closeRow s.sstg }

/-! ## Construction (R123 to R134) -/

/-- The row bookkeeping BUILD judges: an open row with entries is closed in a local copy (R124). -/
def sboxClosed (g : SboxStaging) : SboxStaging := if g.cur > 0 then closeRow g else g

/-- The checks of R123 in order (R125, R127, R128, R130), over the closed bookkeeping and the staged entries: the cause of
the first that fails, or (LN, LM). m is NONE only with no row closed (log 12). -/
def sboxVerdict (g : SboxStaging) (entries : List Entry) : Except TableCause (Nat × Nat) :=
  let n := g.rows
  let m := g.m.getD 0
  if fitsCap g.cnt = false ∨ fitsCap n = false then .error .capacity
  else if n = 0 ∨ isPow2 n = false then .error .rows
  else if g.ragged = true ∨ m = 0 ∨ isPow2 m = false then .error .cols
  else if maxBitlen entries ≠ ceilLog n + ceilLog m then .error .width
  else .ok (ceilLog n, ceilLog m)

/-- Where `inverse_table_builder` writes for an entry y: the split address of `num_to_bits(y, b)` (R133). -/
def inverseTarget (ln lm : Nat) (y : Entry) : Nat :=
  let bits := numToBits y.toNat (ln + lm)
  linearAddr lm (splitOuter ln bits) (splitMiddle ln bits)

/-- The writes of row i, in ascending column order; a later write replaces an earlier one (R133). -/
def inverseRow (table : List Entry) (ln lm : Nat) (inv : List Entry) (i : Nat) : List Entry :=
  (List.range (2 ^ lm)).foldl
    (fun inv j =>
      inv.set (inverseTarget ln lm (table.getD (linearAddr lm i j) 0#32)) (BitVec.ofNat 32 (linearAddr lm i j)))
    inv

/-- `inverse_table_builder` (R133), on the linear layout: all cells 0, then the writes of rows 0, 1, … in order. -/
def inverseTableBuilder (table : List Entry) (ln lm : Nat) : List Entry :=
  (List.range (2 ^ ln)).foldl (inverseRow table ln lm) (List.replicate (2 ^ (ln + lm)) 0#32)

/-- `install(LN, LM, b)` (R131): the active SBox is replaced whole and staging closes. -/
def sboxInstall (ln lm : Nat) (s : State) : State :=
  let table := s.sstgFirst (2 ^ (ln + lm))
  { s with
    sbox := {
      valid := true
      logn := BitVec.ofNat 6 ln
      logm := BitVec.ofNat 6 lm
      fwd := Cells.install s.sbox.fwd table
      inv := Cells.install s.sbox.inv (inverseTableBuilder table ln lm) }
    sstg := { s.sstg with isOpen := false } }

/-- SBOX_BUILD (R123). -/
def execSboxBuild (s : State) : Host.Outcome State Fault Refusal :=
  if s.sstg.isOpen = false then raise .sequenceError s
  else
    match sboxVerdict (sboxClosed s.sstg) (s.sstgFirst s.sstg.cnt) with
    | .error c => raise (.invalidTable c) s
    | .ok (ln, lm) => respond (ln + lm) 0 (sboxInstall ln lm s)

/-! ## Transforms (R135 to R137) -/

/-- `sbox_xform(T, LEN, DATA)` (R135). -/
def sboxXform (table : Nat → Entry) (len data : Nat) (s : State) : Host.Outcome State Fault Refusal :=
  if s.sbox.valid = false then raise .notConfigured s
  else if len ≠ s.sbB then raise .invalidInputLength s
  else
    let vin := vectorOperand len data
    let outer := splitOuter s.sbox.logn.toNat vin
    let middle := splitMiddle s.sbox.logn.toNat vin
    let y := table (linearAddr s.sbox.logm.toNat outer middle)
    respond s.sbB (bitsToNum (numToBits y.toNat s.sbB)) s

/-- SBOX_FWD (R136). -/
def execSboxFwd (len data : Nat) (s : State) : Host.Outcome State Fault Refusal := sboxXform s.sbFwdAt len data s

/-- SBOX_INV (R137). -/
def execSboxInv (len data : Nat) (s : State) : Host.Outcome State Fault Refusal := sboxXform s.sbInvAt len data s

/-! ## Readback (R139, R140) -/

/-- One cell of the active SBox, by linear address (R139, R140). -/
def sboxReadback (table : Nat → Entry) (data : Nat) (s : State) : Host.Outcome State Fault Refusal :=
  if s.sbox.valid = false then raise .notConfigured s
  else if data ≥ 2 ^ s.sbB then raise .indexRange s
  else respond 0 (table data).toNat s

/-- SBOX_RDF (R139). -/
def execSboxRdf (data : Nat) (s : State) : Host.Outcome State Fault Refusal := sboxReadback s.sbFwdAt data s

/-- SBOX_RDI (R140). -/
def execSboxRdi (data : Nat) (s : State) : Host.Outcome State Fault Refusal := sboxReadback s.sbInvAt data s

end Sys2Proof.Machine
end

