-- ==== Sys2Proof/Machine/Dispatch.lean ====
section
/-! DEFINITION. Which meaning each command has: one arm per constructor of Instr. -/

namespace Sys2Proof.Machine

def exec (i : Instr) (s : State) : Host.Outcome State Fault Refusal :=
  match i with
  | .nop => Sys2Proof.Machine.execNop s
  | .getStatus => Sys2Proof.Machine.execGetStatus s
  | .sboxBegin => Sys2Proof.Machine.execSboxBegin s
  | .sboxPush data => Sys2Proof.Machine.execSboxPush data s
  | .sboxEndrow => Sys2Proof.Machine.execSboxEndrow s
  | .sboxBuild => Sys2Proof.Machine.execSboxBuild s
  | .sboxFwd len data => Sys2Proof.Machine.execSboxFwd len data s
  | .sboxInv len data => Sys2Proof.Machine.execSboxInv len data s
  | .sboxRdf data => Sys2Proof.Machine.execSboxRdf data s
  | .sboxRdi data => Sys2Proof.Machine.execSboxRdi data s
  | .pboxBegin => Sys2Proof.Machine.execPboxBegin s
  | .pboxPush data => Sys2Proof.Machine.execPboxPush data s
  | .pboxBuild => Sys2Proof.Machine.execPboxBuild s
  | .pboxFwd len data => Sys2Proof.Machine.execPboxFwd len data s
  | .pboxInv len data => Sys2Proof.Machine.execPboxInv len data s
  | .pboxRdf data => Sys2Proof.Machine.execPboxRdf data s
  | .pboxRdi data => Sys2Proof.Machine.execPboxRdi data s

end Sys2Proof.Machine
end

