-- ==== Sys2Proof/Machine/Step.lean ====
section
/-! DEFINITION. One step: the block takes the next input of the host, performs it whole, and answers (spec/00_scope.md
R10, spec/20_memory.md R58). A command word decodes to one command or is illegal (spec/30_encoding.md R79, R80). -/

namespace Sys2Proof.Machine

/-- One input taken and performed. -/
def step (s : State) : Host.Outcome State Fault Refusal :=
  match s.inputs with
  | [] => wait s
  | .command w :: rest =>
    match decode w with
    | .ok i => exec i { s with inputs := rest }
    | .error _ => raise .illegalCommand { s with inputs := rest }
  | .reset :: rest => takeReset { s with inputs := rest }
  | .resetDuring w :: rest => abandonAndReset w { s with inputs := rest }

/-- The state in which the host's next input is the table word: the next step decodes and performs exactly it (log 6). -/
def State.withFetchWord (s : State) (nbits w : Nat) : State :=
  { s with inputs := .command (BitVec.ofNat 64 (w % 2 ^ nbits)) :: s.inputs }

end Sys2Proof.Machine
end

