-- ==== Sys2Proof/Machine/Assembler.lean ====
section
/-! DEFINITION. The assembler: the pseudo-instructions' expansion and the text of one command a line (spec/30_encoding.md
R82, R83). It has no semantics of its own (92_eei_decisions.md D25); what R82's table leaves open of the text is log 15. -/

namespace Sys2Proof.Machine

/-! ## Pseudo-instructions (R83) -/

/-- One row of SBOX_LOAD: SBOX_PUSH for each entry in order, then SBOX_ENDROW. -/
def sboxLoadRow (row : List Nat) : List Instr := row.map .sboxPush ++ [.sboxEndrow]

/-- SBOX_LOAD: SBOX_BEGIN, the rows in order, SBOX_BUILD. -/
def sboxLoad (table : List (List Nat)) : List Instr := .sboxBegin :: table.flatMap sboxLoadRow ++ [.sboxBuild]

/-- PBOX_LOAD: PBOX_BEGIN, PBOX_PUSH for each value in order, PBOX_BUILD. -/
def pboxLoad (perm : List Nat) : List Instr := .pboxBegin :: perm.map .pboxPush ++ [.pboxBuild]

/-! ## Tokens -/

/-- A token of a line: a word (a mnemonic or a number, in lower case), or one of the marks of R82 and R83. -/
inductive Token where
  | word (cs : List Char)
  | comma
  | lbracket
  | rbracket
  deriving DecidableEq, Repr

/-- Mnemonics are case-insensitive (R82). -/
def lowerChar (c : Char) : Char := if 65 ≤ c.toNat ∧ c.toNat ≤ 90 then Char.ofNat (c.toNat + 32) else c

/-- A word being read (its characters last first), if any, becomes a token. -/
def flushWord (acc : List Char) (ts : List Token) : List Token := if acc = [] then ts else .word acc.reverse :: ts

/-- The tokens of a line; `;` starts a comment (R82), blanks separate words. -/
def tokens : (acc : List Char) → List Char → List Token
  | acc, [] => flushWord acc []
  | acc, c :: cs =>
    if c = ';' then flushWord acc []
    else if c = ' ' ∨ c = '\t' then flushWord acc (tokens [] cs)
    else if c = ',' then flushWord acc (.comma :: tokens [] cs)
    else if c = '[' then flushWord acc (.lbracket :: tokens [] cs)
    else if c = ']' then flushWord acc (.rbracket :: tokens [] cs)
    else tokens (lowerChar c :: acc) cs

/-! ## Numbers (R82) -/

/-- The value of one digit in a base. -/
def digitValue (base : Nat) (c : Char) : Option Nat :=
  let v := if 48 ≤ c.toNat ∧ c.toNat ≤ 57 then c.toNat - 48
    else if 97 ≤ c.toNat ∧ c.toNat ≤ 102 then c.toNat - 87 else base
  if v < base then some v else none

/-- The value of digits, most significant first, after a value already read. -/
def digitsValue (base : Nat) : (sofar : Nat) → List Char → Option Nat
  | x, [] => some x
  | x, c :: cs =>
    match digitValue base c with
    | some d => digitsValue base (base * x + d) cs
    | none => none

/-- A number: `0x` hexadecimal, `0b` binary or decimal, with at least one digit. -/
def number : List Char → Option Nat
  | '0' :: 'x' :: c :: cs => digitsValue 16 0 (c :: cs)
  | '0' :: 'b' :: c :: cs => digitsValue 2 0 (c :: cs)
  | c :: cs => digitsValue 10 0 (c :: cs)
  | [] => none

/-- The operand `0b<digits>` of format V: LEN is the number of digits written and DATA their value (R82). -/
def bitOperand : List Char → Option (Nat × Nat)
  | '0' :: 'b' :: cs =>
    match digitsValue 2 0 cs with
    | some x => some (cs.length, x)
    | none => none
  | _ => none

/-! ## Mnemonics (R78) -/

/-- What a mnemonic takes. -/
inductive Mnemonic where
  | noOperand (i : Instr)
  | dataOperand (mk : Nat → Instr)
  | bitVector (mk : Nat → Nat → Instr)

/-- The mnemonics of R78, in lower case. -/
def mnemonicTable : List (List Char × Mnemonic) :=
  [(['n', 'o', 'p'], .noOperand .nop),
   (['g', 'e', 't', '_', 's', 't', 'a', 't', 'u', 's'], .noOperand .getStatus)] ++
  [(['s', 'b', 'o', 'x', '_', 'b', 'e', 'g', 'i', 'n'], .noOperand .sboxBegin),
   (['s', 'b', 'o', 'x', '_', 'p', 'u', 's', 'h'], .dataOperand .sboxPush),
   (['s', 'b', 'o', 'x', '_', 'e', 'n', 'd', 'r', 'o', 'w'], .noOperand .sboxEndrow),
   (['s', 'b', 'o', 'x', '_', 'b', 'u', 'i', 'l', 'd'], .noOperand .sboxBuild),
   (['s', 'b', 'o', 'x', '_', 'f', 'w', 'd'], .bitVector .sboxFwd),
   (['s', 'b', 'o', 'x', '_', 'i', 'n', 'v'], .bitVector .sboxInv),
   (['s', 'b', 'o', 'x', '_', 'r', 'd', 'f'], .dataOperand .sboxRdf),
   (['s', 'b', 'o', 'x', '_', 'r', 'd', 'i'], .dataOperand .sboxRdi)] ++
  [(['p', 'b', 'o', 'x', '_', 'b', 'e', 'g', 'i', 'n'], .noOperand .pboxBegin),
   (['p', 'b', 'o', 'x', '_', 'p', 'u', 's', 'h'], .dataOperand .pboxPush),
   (['p', 'b', 'o', 'x', '_', 'b', 'u', 'i', 'l', 'd'], .noOperand .pboxBuild),
   (['p', 'b', 'o', 'x', '_', 'f', 'w', 'd'], .bitVector .pboxFwd),
   (['p', 'b', 'o', 'x', '_', 'i', 'n', 'v'], .bitVector .pboxInv),
   (['p', 'b', 'o', 'x', '_', 'r', 'd', 'f'], .dataOperand .pboxRdf),
   (['p', 'b', 'o', 'x', '_', 'r', 'd', 'i'], .dataOperand .pboxRdi)]

/-- The entry of a word in a mnemonic table. -/
def lookupMnemonic (m : List Char) : List (List Char × Mnemonic) → Option Mnemonic
  | [] => none
  | (k, v) :: rest => if m = k then some v else lookupMnemonic m rest

/-- The words of the two pseudo-instructions (R83). -/
def sboxLoadWord : List Char := ['s', 'b', 'o', 'x', '_', 'l', 'o', 'a', 'd']

/-- PBOX_LOAD. -/
def pboxLoadWord : List Char := ['p', 'b', 'o', 'x', '_', 'l', 'o', 'a', 'd']

/-! ## Lines -/

/-- The rest of a list after an element: `, x` repeated, then `]`. -/
def listTail : List Token → Option (List Nat × List Token)
  | .comma :: .word x :: ts =>
    match number x, listTail ts with
    | some n, some (ns, rest) => some (n :: ns, rest)
    | _, _ => none
  | .rbracket :: ts => some ([], ts)
  | _ => none

/-- A list `[x, …]`, which may be empty, and what follows it. -/
def listOperand : List Token → Option (List Nat × List Token)
  | .lbracket :: .rbracket :: ts => some ([], ts)
  | .lbracket :: .word x :: ts =>
    match number x, listTail ts with
    | some n, some (ns, rest) => some (n :: ns, rest)
    | _, _ => none
  | _ => none

/-- The rest of a table after a row: `, row` repeated, then `]` at the end of the line. -/
def tableTail : (fuel : Nat) → List Token → Option (List (List Nat))
  | _, [.rbracket] => some []
  | fuel + 1, .comma :: ts =>
    match listOperand ts with
    | some (row, rest) =>
      match tableTail fuel rest with
      | some rows => some (row :: rows)
      | none => none
    | none => none
  | _, _ => none

/-- A table `[row, …]`, which may have no row. -/
def tableOperand : List Token → Option (List (List Nat))
  | [.lbracket, .rbracket] => some []
  | .lbracket :: ts =>
    match listOperand ts with
    | some (row, rest) =>
      match tableTail rest.length rest with
      | some rows => some (row :: rows)
      | none => none
    | none => none
  | _ => none

/-- The commands if each can be carried by a word: 0 ≤ value < 2^32, LEN 0 to 63 (R82). -/
def allWellFormed (is : List Instr) : Option (List Instr) := if is.all Instr.wellFormed then some is else none

/-- The commands that a line's tokens after the mnemonic stand for. -/
def commandOf (m : Mnemonic) (ts : List Token) : Option Instr :=
  match m, ts with
  | .noOperand i, [] => some i
  | .dataOperand mk, [.word x] => (number x).map mk
  | .bitVector mk, [.word b] => (bitOperand b).map (fun p => mk p.1 p.2)
  | .bitVector mk, [.word l, .comma, .word d] =>
    match number l, number d with
    | some len, some data => some (mk len data)
    | _, _ => none
  | _, _ => none

/-- One line of text: no command, one command, or the expansion of a pseudo-instruction; none if it is not a line of
R82 or R83. -/
def assembleLine (line : List Char) : Option (List Instr) :=
  match tokens [] line with
  | [] => some []
  | .word w :: ts =>
    if w = sboxLoadWord then (tableOperand ts).bind (fun t => allWellFormed (sboxLoad t))
    else if w = pboxLoadWord then
      match listOperand ts with
      | some (p, []) => allWellFormed (pboxLoad p)
      | _ => none
    else
      match lookupMnemonic w mnemonicTable with
      | some m => (commandOf m ts).bind (fun i => allWellFormed [i])
      | none => none
  | _ => none

/-- The words of a program, one list of characters a line. -/
def assemble : List (List Char) → Option (List PortWord)
  | [] => some []
  | l :: ls =>
    match assembleLine l, assemble ls with
    | some is, some ws => some (is.map encode ++ ws)
    | _, _ => none

end Sys2Proof.Machine
end

