-- ==== Sys2Proof/Safety.lean ====
section
/-! DEFINITION. The terms claims use: response words as integers, the invariants of the active instances and of the
staging (spec/10_state.md R26, R31, R33 to R36), what two states must share to be told apart by no command
(spec/70_reset_and_hazards.md R231), and command sequences (spec/30_encoding.md R83). -/

namespace Sys2Proof.Machine

/-! ## Words as integers (R71, R76) -/

/-- A command word with a DATA operand: OPC at bit 56, DATA at bit 0 (R73). -/
def wordD (opc data : Nat) : PortWord := BitVec.ofNat 64 (opc * 2 ^ 56 + data)

/-- A command word with a vector operand: OPC at bit 56, LEN at bit 48, DATA at bit 0 (R74). -/
def wordV (opc len data : Nat) : PortWord := BitVec.ofNat 64 (opc * 2 ^ 56 + len * 2 ^ 48 + data)

/-- The OK response: ST = 0, RLEN at bit 48, RDATA at bit 0 (R76). -/
def okWord (rlen rdata : Nat) : PortWord := BitVec.ofNat 64 (rlen * 2 ^ 48 + rdata)

/-- An error response: ST at bit 56, CAUSE at bit 40 (R76, R205). -/
def errWord (st cause : Nat) : PortWord := BitVec.ofNat 64 (st * 2 ^ 56 + cause * 2 ^ 40)

/-- The state with only its response replaced: what a command that writes no state element leaves. -/
def State.answering (s : State) (r : PortWord) : State := { s with rsp := some r }

/-- The elements R40 specifies have their values of R40. -/
def State.HasResetValues (s : State) : Prop :=
  s.sbox.valid = false ∧ s.pbox.valid = false ∧
  s.sstg.isOpen = false ∧ s.sstg.cnt = 0 ∧ s.sstg.rows = 0 ∧ s.sstg.cur = 0 ∧ s.sstg.m = none ∧
  s.sstg.ragged = false ∧ s.pstg.isOpen = false ∧ s.pstg.cnt = 0

/-! ## The active SBox (R26, R134) -/

/-- v is what an inverse table of `table` on `[0, N)` holds at y (R134): the largest a with `table a = y` if there is one,
and 0 otherwise. -/
def InverseCell (table : Nat → Nat) (N y v : Nat) : Prop :=
  IsGreatest { a | a < N ∧ table a = y } v ∨ ((∀ a < N, table a ≠ y) ∧ v = 0)

/-- `max over k < n of bitlen(cell k) = b`, the maximum of none being 0 (R123, R130). -/
def WidthIs (cell : Nat → Entry) (n b : Nat) : Prop :=
  (∀ k < n, bitlen (cell k).toNat ≤ b) ∧ (b = 0 ∨ ∃ k < n, bitlen (cell k).toNat = b)

/-- SB_FWD as a function on addresses. -/
def State.sbFwdNat (s : State) (a : Nat) : Nat := (s.sbFwdAt a).toNat

/-- SB_INV as a function on addresses. -/
def State.sbInvNat (s : State) (a : Nat) : Nat := (s.sbInvAt a).toNat

/-- R26: while SB_VALID = 1, SB_B ≤ SBOX_B_MAX, every cell of SB_FWD in the index space is below 2^SB_B and the greatest
bit length among them is SB_B; SB_INV holds what R134 says, every cell below 2^SB_B. -/
def State.SboxInv (s : State) : Prop :=
  s.sbox.valid = true →
    s.sbB ≤ Config.sboxBMax ∧
    (∀ a < 2 ^ s.sbB, s.sbFwdNat a < 2 ^ s.sbB) ∧
    WidthIs s.sbFwdAt (2 ^ s.sbB) s.sbB ∧
    (∀ y < 2 ^ s.sbB, s.sbInvNat y < 2 ^ s.sbB) ∧
    (∀ y < 2 ^ s.sbB, InverseCell s.sbFwdNat (2 ^ s.sbB) y (s.sbInvNat y))

/-- The active table, as a function on `[0, 2^SB_B)`, is a bijection (R138's premise; the block does not check it). -/
def State.SboxBijective (s : State) : Prop := Set.BijOn s.sbFwdNat (Set.Iio (2 ^ s.sbB)) (Set.Iio (2 ^ s.sbB))

/-! ## The active PBox (R31) -/

/-- `PB_FWD[i]` as an integer. -/
def State.pbFwdNat (s : State) (i : Nat) : Nat := (s.pbFwdAt i).toNat

/-- `PB_INV[i]` as an integer. -/
def State.pbInvNat (s : State) (i : Nat) : Nat := (s.pbInvAt i).toNat

/-- R31: while PB_VALID = 1, 1 ≤ PB_N ≤ 32, PB_FWD and PB_INV are bijections onto `{1, …, PB_N}` and each undoes the
other. -/
def State.PboxInv (s : State) : Prop :=
  s.pbox.valid = true →
    1 ≤ s.pbN ∧ s.pbN ≤ 32 ∧
    Set.BijOn s.pbFwdNat (Set.Iio s.pbN) (Set.Icc 1 s.pbN) ∧
    Set.BijOn s.pbInvNat (Set.Iio s.pbN) (Set.Icc 1 s.pbN) ∧
    (∀ i < s.pbN, s.pbInvNat (s.pbFwdNat i - 1) = i + 1) ∧
    (∀ k < s.pbN, s.pbFwdNat (s.pbInvNat k - 1) = k + 1)

/-! ## Staging (R33 to R36) -/

/-- The counters keep their bounds, NONE is there exactly while no row is closed, and while nothing has overflowed a
table that is not ragged has SSTG_ROWS · SSTG_M closed entries and SSTG_CUR open ones (R125, R126). -/
def State.SstgInv (s : State) : Prop :=
  s.sstg.cnt ≤ Config.cap + 1 ∧ s.sstg.rows ≤ Config.cap + 1 ∧ s.sstg.cur ≤ s.sstg.cnt ∧
  (∀ m, s.sstg.m = some m → m ≤ s.sstg.cnt) ∧
  (s.sstg.m = none ↔ s.sstg.rows = 0) ∧
  (s.sstg.m = none → s.sstg.ragged = false) ∧
  (s.sstg.cnt ≤ Config.cap → s.sstg.ragged = false →
    s.sstg.cnt = s.sstg.rows * s.sstg.m.getD 0 + s.sstg.cur)

/-- PSTG_CNT keeps its bound (R36). -/
def State.PstgInv (s : State) : Prop := s.pstg.cnt ≤ 33

/-- No array has more cells than the spec gives it (R24, R25, R29, R30, R33, R36), and every staged entry that is to be
stored has been (R33, R36). -/
def State.ArraysInv (s : State) : Prop :=
  s.sbox.fwd.length ≤ Config.cap ∧ s.sbox.inv.length ≤ Config.cap ∧ s.sstg.buf.length ≤ Config.cap ∧
  s.pbox.fwd.length ≤ 32 ∧ s.pbox.inv.length ≤ 32 ∧ s.pstg.buf.length ≤ 32 ∧
  min s.sstg.cnt Config.cap ≤ s.sstg.buf.length ∧ min s.pstg.cnt 32 ≤ s.pstg.buf.length

/-- The invariant of the block. -/
def State.Inv (s : State) : Prop := s.SboxInv ∧ s.PboxInv ∧ s.SstgInv ∧ s.PstgInv ∧ s.ArraysInv

/-! ## The table and the sequence a BUILD judges (R123 to R126, R162) -/

/-- The row count n: the rows closed, an open row with entries counting as one (R124, R126). -/
def State.stagedRows (s : State) : Nat :=
  if s.sstg.cur = 0 then s.sstg.rows else min (s.sstg.rows + 1) (Config.cap + 1)

/-- The length of the first row, if there is one (R35, R126). -/
def State.stagedM (s : State) : Option Nat :=
  if s.sstg.cur = 0 then s.sstg.m else some (s.sstg.m.getD s.sstg.cur)

/-- Some row has another length than the first (R35, R124). -/
def State.stagedRagged (s : State) : Prop :=
  s.sstg.ragged = true ∨ (s.sstg.cur ≠ 0 ∧ ∃ m, s.sstg.m = some m ∧ s.sstg.cur ≠ m)

/-- The first n values staged are a bijection from indices `0 .. n-1` onto `{1, …, n}` (R166). -/
def State.StagedPermutation (s : State) (n : Nat) : Prop :=
  Set.BijOn (fun i => (s.pstgBufAt i).toNat) (Set.Iio n) (Set.Icc 1 n)

/-! ## What a command can tell apart (R231) -/

/-- Two states that share every element the spec specifies: valid bits and, with them set, the dimensions and the cells of
the index space; the staging registers, and the staged cells below the counters; the port. Cells no command may read and
the dimensions of an instance that is not there may differ. -/
def State.Agree (s t : State) : Prop :=
  s.inputs = t.inputs ∧ s.rsp = t.rsp ∧
  s.sbox.valid = t.sbox.valid ∧
  (s.sbox.valid = true → s.sbox.logn = t.sbox.logn ∧ s.sbox.logm = t.sbox.logm ∧
    ∀ a < 2 ^ s.sbB, s.sbFwdAt a = t.sbFwdAt a ∧ s.sbInvAt a = t.sbInvAt a) ∧
  s.pbox.valid = t.pbox.valid ∧
  (s.pbox.valid = true → s.pbox.n = t.pbox.n ∧
    ∀ i < s.pbN, s.pbFwdAt i = t.pbFwdAt i ∧ s.pbInvAt i = t.pbInvAt i) ∧
  s.sstg.isOpen = t.sstg.isOpen ∧ s.sstg.cnt = t.sstg.cnt ∧ s.sstg.rows = t.sstg.rows ∧ s.sstg.cur = t.sstg.cur ∧
  s.sstg.m = t.sstg.m ∧ s.sstg.ragged = t.sstg.ragged ∧
  (∀ k < min s.sstg.cnt Config.cap, s.sstgBufAt k = t.sstgBufAt k) ∧
  s.pstg.isOpen = t.pstg.isOpen ∧ s.pstg.cnt = t.pstg.cnt ∧
  (∀ k < min s.pstg.cnt 32, s.pstgBufAt k = t.pstgBufAt k)

/-! ## Command sequences (R83) -/

/-- Commands performed one after the other, stopping at the first that does not answer a next state. -/
def execAll : List Instr → State → Host.Outcome State Fault Refusal
  | [], s => .next s
  | i :: is, s =>
    match exec i s with
    | .next t => execAll is t
    | .fault r => .fault r
    | .refused r => .refused r

end Sys2Proof.Machine

namespace Sys2Proof

/-! ## Kinds of commands -/

/-- The commands of the SBox family. -/
def Instr.isSbox : Instr → Bool
  | .sboxBegin => true
  | .sboxPush _ => true
  | .sboxEndrow => true
  | .sboxBuild => true
  | .sboxFwd _ _ => true
  | .sboxInv _ _ => true
  | .sboxRdf _ => true
  | .sboxRdi _ => true
  | .pboxBegin => false
  | .pboxPush _ => false
  | .pboxBuild => false
  | .pboxFwd _ _ => false
  | .pboxInv _ _ => false
  | .pboxRdf _ => false
  | .pboxRdi _ => false
  | .nop => false
  | .getStatus => false

/-- The commands of the PBox family. -/
def Instr.isPbox : Instr → Bool
  | .pboxBegin => true
  | .pboxPush _ => true
  | .pboxBuild => true
  | .pboxFwd _ _ => true
  | .pboxInv _ _ => true
  | .pboxRdf _ => true
  | .pboxRdi _ => true
  | .sboxBegin => false
  | .sboxPush _ => false
  | .sboxEndrow => false
  | .sboxBuild => false
  | .sboxFwd _ _ => false
  | .sboxInv _ _ => false
  | .sboxRdf _ => false
  | .sboxRdi _ => false
  | .nop => false
  | .getStatus => false

/-- The commands that read: the transforms, the readbacks, GET_STATUS and NOP (R56). -/
def Instr.isRead : Instr → Bool
  | .sboxFwd _ _ => true
  | .sboxInv _ _ => true
  | .sboxRdf _ => true
  | .sboxRdi _ => true
  | .pboxFwd _ _ => true
  | .pboxInv _ _ => true
  | .pboxRdf _ => true
  | .pboxRdi _ => true
  | .nop => true
  | .getStatus => true
  | .sboxBegin => false
  | .sboxPush _ => false
  | .sboxEndrow => false
  | .sboxBuild => false
  | .pboxBegin => false
  | .pboxPush _ => false
  | .pboxBuild => false

end Sys2Proof
end

