-- ==== Sys2Proof/Certificates/Slice0/Obligations.lean ====
section
/-! DEFINITION. The statements for the provers, each from rules of spec/. A statement about a command says the words that
are that command, where the command completes and what it leaves, and where it raises an error instead. -/

open Sys2Proof Sys2Proof.Machine

/-! ## Encoding (spec/30_encoding.md) -/

/-- A few words written out from R71 to R74 and R78 decode to the commands they stand for. -/
def Obligations.SpecWordsDecode : Prop :=
  decode 0x0000000000000000#64 = .ok .nop ∧
  decode 0x0100000000000000#64 = .ok .getStatus ∧
  decode 0x1000000000000000#64 = .ok .sboxBegin ∧
  decode 0x1100000000000002#64 = .ok (.sboxPush 2) ∧
  decode 0x14080000000000CA#64 = .ok (.sboxFwd 8 0xCA) ∧
  decode 0x1700000000000003#64 = .ok (.sboxRdi 3) ∧
  decode 0x2100000000000004#64 = .ok (.pboxPush 4) ∧
  decode 0x2408000000000078#64 = .ok (.pboxInv 8 0x78) ∧
  decode 0x1101000000000005#64 = .error .lenFieldSet ∧
  decode 0x1440000000000000#64 = .error .reservedBitsSet ∧
  decode 0x0000000000000001#64 = .error .dataFieldSet ∧
  decode 0x0200000000000000#64 = .error .unassignedOpcode

/-- Decoding the word of a well-formed command gives the command back, every operand at every value its field admits. -/
def Obligations.DecodeEncodeRoundTrip : Prop := ∀ i : Instr, i.WellFormed → decode (encode i) = .ok i

/-- A word that decodes is exactly the word of the command read from it, which is well-formed: each command has one word. -/
def Obligations.DecodedWordIsTheCommandsOnlyWord : Prop :=
  ∀ (w : PortWord) (i : Instr), decode w = .ok i → i.WellFormed ∧ encode i = w

/-- R79: a word is accepted iff `(w & mask) == match` for exactly one row of the opcode table, and the command read has
that row's opcode and format, LEN = w[53:48] and DATA = w[31:0]. -/
def Obligations.WordAcceptedIffExactlyOneRowMatches : Prop :=
  ∀ w : PortWord,
    ((∃ i, decode w = .ok i) ↔ ∃! r, r ∈ opcodeTable ∧ r.accepts w) ∧
    ∀ i, decode w = .ok i →
      (⟨i.opc, i.format⟩ : OpcodeRow) ∈ opcodeTable ∧ (⟨i.opc, i.format⟩ : OpcodeRow).accepts w ∧
      i.len = (w.extractLsb' 48 6).toNat ∧ i.data = (w.extractLsb' 0 32).toNat

/-- R80: a word that decoding rejects raises ILLEGAL_COMMAND and changes no state; the unassigned opcodes and an assigned
opcode with a nonzero bit where its format requires 0 are such words. -/
def Obligations.IllegalWordRaisesAndChangesNothing : Prop :=
  (∀ (s : State) (w : PortWord) (rest : List HostInput), s.inputs = .command w :: rest → (∀ i, decode w ≠ .ok i) →
    step s = .next ({ s with inputs := rest }.answering 0x0500000000000000#64)) ∧
  (∀ w : PortWord,
    let opc := (w.extractLsb' 56 8).toNat
    ((0x02 ≤ opc ∧ opc ≤ 0x0F) ∨ (0x18 ≤ opc ∧ opc ≤ 0x1F) ∨ (0x27 ≤ opc ∧ opc ≤ 0xFF)) → ∀ i, decode w ≠ .ok i) ∧
  (∀ (w : PortWord) (r : OpcodeRow), r ∈ opcodeTable → (w.extractLsb' 56 8).toNat = r.opc →
    w &&& r.format.mask ≠ r.matchWord → ∀ i, decode w ≠ .ok i)

/-- A word carried over a byte bus in either byte order is the word sent, and the bytes of a well-formed command decode to
it; no other number of bytes carries a word. PORT_BYTE_ORDER is an open parameter (log 9). -/
def Obligations.BusCarriesTheWord : Prop :=
  (∀ (o : ByteOrder) (w : PortWord), (busBytes o w).length = 8 ∧ busWord o (busBytes o w) = some w) ∧
  (∀ (o : ByteOrder) (bs : List Byte), bs.length ≠ 8 → decodeBytes o bs = .error .notOneWord) ∧
  (∀ i : Instr, i.WellFormed →
    decodeBytes Config.portByteOrder (busBytes Config.portByteOrder (encode i)) = .ok i)

/-- R76: the fields of the words that `respond` and `raise` build; every other bit is 0. -/
def Obligations.ResponseWordFields : Prop :=
  (∀ (st : BitVec 8) (rlen : Dim) (rdata : Entry),
    let r := respondWord st rlen rdata
    rspSt r = st ∧ r.extractLsb' 54 2 = 0#2 ∧ rspRlen r = rlen ∧ rspCause r = 0#8 ∧ r.extractLsb' 32 8 = 0#8 ∧
    rspRdata r = rdata) ∧
  (∀ e : Error,
    let r := raiseWord e
    rspSt r = e.st ∧ r.extractLsb' 54 2 = 0#2 ∧ rspRlen r = 0#6 ∧ rspCause r = e.cause ∧ r.extractLsb' 32 8 = 0#8 ∧
    rspRdata r = 0#32)

/-! ## One step (spec/00_scope.md R10, spec/20_memory.md R58) -/

/-- When the host's next input is a word that decodes to i, the step is exec of i in the state left by every earlier
command, that input taken; `withFetchWord` places exactly such an input and changes nothing else (log 5, log 6). -/
def Obligations.StepRunsTheDecodedCommand : Prop :=
  (∀ (s : State) (w : PortWord) (i : Instr) (rest : List HostInput), s.inputs = .command w :: rest → decode w = .ok i →
    step s = exec i { s with inputs := rest }) ∧
  (∀ (s : State) (w : Nat) (i : Instr), decodeTableWord 64 w = some i → step (s.withFetchWord 64 w) = exec i s)

/-- Every command word, legal or not, has a defined next state and exactly one response, and takes only its own input from the
host's; no step faults and none refuses (60_exceptions.md, the inference R217 from R200); the
model's own count of resets stays (log 4). -/
def Obligations.EveryCommandWordAnswersAResponse : Prop :=
  (∀ (s : State) (w : PortWord) (rest : List HostInput), s.inputs = .command w :: rest →
    ∃ t r, step s = .next t ∧ t.rsp = some r ∧ t.inputs = rest ∧ t.resets = s.resets) ∧
  (∀ s : State, ∃ t, step s = .next t)

/-- R205 (and R203): a command whose response is an error, an illegal word among them, leaves the state exactly as it found
it, and the response is `(E << 56) | (c << 40)`: RLEN = 0 and RDATA = 0. -/
def Obligations.ErrorWritesNoStateElement : Prop :=
  ∀ (s t : State) (w r : PortWord) (rest : List HostInput), s.inputs = .command w :: rest → step s = .next t →
    t.rsp = some r → rspSt r ≠ 0#8 →
    t = { s with inputs := rest }.answering r ∧ r = errWord (rspSt r).toNat (rspCause r).toNat

/-- R204: a command is performed alike whatever was answered before it: no error is sticky, none blocks a later command and
none is retried. -/
def Obligations.ErrorsAreNotSticky : Prop :=
  (∀ (i : Instr) (s : State) (r : PortWord), exec i (s.answering r) = exec i s) ∧
  (∀ (s t : State) (w w' r : PortWord) (rest : List HostInput), s.inputs = .command w :: .command w' :: rest →
    step s = .next t → t.rsp = some r → rspSt r ≠ 0#8 →
    step t = step { s with inputs := .command w' :: rest })

/-- The status codes and causes each command may answer, and what each error says of the state (R201, R202). -/
def Obligations.StatusTellsTheError : Prop :=
  ∀ (i : Instr) (s t : State) (r : PortWord), exec i s = .next t → t.rsp = some r →
    let st := (rspSt r).toNat
    let cause := (rspCause r).toNat
    (st ≤ 7 ∧ st ≠ 5) ∧
    (st = 1 → i = .sboxBuild ∧ 1 ≤ cause ∧ cause ≤ 4) ∧
    (st = 2 → i = .pboxBuild ∧ 1 ≤ cause ∧ cause ≤ 3) ∧
    (st ≠ 1 → st ≠ 2 → cause = 0) ∧
    (st = 3 → ∃ len data,
      ((i = .sboxFwd len data ∨ i = .sboxInv len data) ∧ s.sbox.valid = true ∧ len ≠ s.sbB) ∨
      ((i = .pboxFwd len data ∨ i = .pboxInv len data) ∧ s.pbox.valid = true ∧ len ≠ s.pbN)) ∧
    (st = 4 → (i.isSbox = true ∧ i.isRead = true ∧ s.sbox.valid = false) ∨
      (i.isPbox = true ∧ i.isRead = true ∧ s.pbox.valid = false)) ∧
    (st = 6 → (((∃ d, i = .sboxPush d) ∨ i = .sboxEndrow ∨ i = .sboxBuild) ∧ s.sstg.isOpen = false) ∨
      (((∃ d, i = .pboxPush d) ∨ i = .pboxBuild) ∧ s.pstg.isOpen = false)) ∧
    (st = 7 → ∃ data,
      ((i = .sboxRdf data ∨ i = .sboxRdi data) ∧ s.sbox.valid = true ∧ 2 ^ s.sbB ≤ data) ∨
      ((i = .pboxRdf data ∨ i = .pboxRdi data) ∧ s.pbox.valid = true ∧ s.pbN ≤ data))

/-! ## Reset (spec/10_state.md R40, spec/70_reset_and_hazards.md R230, R233) -/

/-- State.reset has the values the table of R40 gives, and STATUS shows 0; that no response word is there is the model's choice
(log 5). -/
def Obligations.ResetStateHasTheSpecifiedValues : Prop :=
  State.reset.HasResetValues ∧ State.reset.status = 0#32 ∧ State.reset.rsp = none

/-- R230: asserting the reset input gives every specified element its value of R40, and no response word. -/
def Obligations.ResetInputGivesTheSpecifiedValues : Prop :=
  ∀ (s : State) (rest : List HostInput), s.inputs = .reset :: rest →
    ∃ t, step s = .next t ∧ t.HasResetValues ∧ t.status = 0#32 ∧ t.rsp = none ∧ t.inputs = rest

/-- Reset asserted while a command is being performed abandons it (R233): no response and the reset values; the state afterwards is
that of a reset before the command (the model performs none of the command's writes, log 7, and draws the contents R40 leaves
unspecified by the count of resets alone, log 4), and agrees with that of a reset after its writes; reset twice agrees with
reset once. -/
def Obligations.ResetAbandonsTheCommandAndIsIdempotent : Prop :=
  ∀ (s : State) (w : PortWord) (rest : List HostInput), s.inputs = .resetDuring w :: rest →
    ∃ t, step s = .next t ∧ t.HasResetValues ∧ t.rsp = none ∧ t.inputs = rest ∧
      step { s with inputs := .reset :: rest } = .next t ∧
      (∃ u v, step { s with inputs := .command w :: .reset :: rest } = .next u ∧ step u = .next v ∧ t.Agree v) ∧
      (∃ v, step { t with inputs := .reset :: rest } = .next v ∧ t.Agree v)

/-! ## The codec and the width functions (spec/40_codec.md) -/

/-- The round-trip laws of the codec (R103); the last clause is the spec's own inference from R100 and R102. -/
def Obligations.CodecRoundTrips : Prop :=
  (∀ v : Bits, numToBits (bitsToNum v) v.length = v) ∧
  (∀ x k : Nat, x < 2 ^ k → bitsToNum (numToBits x k) = x) ∧
  (∀ x k : Nat, bitsToNum (numToBits x k) = x % 2 ^ k)

/-- Element k of a vector of length L is bit L-1-k of its integer, both ways (R101, R102); the integer fits the length. -/
def Obligations.VectorElementsAreIntegerBits : Prop :=
  (∀ (v : Bits) (k : Nat) (h : k < v.length), v[k] = (bitsToNum v).testBit (v.length - 1 - k)) ∧
  (∀ v : Bits, bitsToNum v < 2 ^ v.length) ∧
  (∀ num L : Nat, (numToBits num L).length = L) ∧
  (∀ (num L k : Nat) (h : k < (numToBits num L).length), (numToBits num L)[k] = num.testBit (L - 1 - k))

/-- R104: for n ≥ 1, ceil_log(n) is the minimal c with 2^c ≥ n, found by halving n, rounding up, until n ≤ 1; the loop
gives 0 at n = 0. -/
def Obligations.CeilLogIsMinimal : Prop :=
  (∀ n : Nat, 1 ≤ n → n ≤ 2 ^ ceilLog n ∧ ∀ c, n ≤ 2 ^ c → ceilLog n ≤ c) ∧
  (∀ n : Nat, ceilLog n = if n > 1 then ceilLog ((n + 1) / 2) + 1 else 0)

/-- R105: bitlen(0) = 0; for v ≥ 1 it is the k with 2^(k-1) ≤ v < 2^k; so v < 2^k iff bitlen(v) ≤ k. -/
def Obligations.BitlenIsTheWidth : Prop :=
  bitlen 0 = 0 ∧
  (∀ v k : Nat, 1 ≤ v → (bitlen v = k ↔ 1 ≤ k ∧ 2 ^ (k - 1) ≤ v ∧ v < 2 ^ k)) ∧
  (∀ v k : Nat, v < 2 ^ k ↔ bitlen v ≤ k)

/-- R106: is_pow2(x) holds iff x is a power of two. -/
def Obligations.PowerOfTwoTest : Prop := ∀ x : Nat, isPow2 x = true ↔ ∃ k, x = 2 ^ k

/-- For x = 2^k: ceil_log(x) = k, 2^ceil_log(x) = x and bitlen(x - 1) = k (R107). -/
def Obligations.PowerOfTwoWidths : Prop :=
  ∀ k : Nat, ceilLog (2 ^ k) = k ∧ 2 ^ ceilLog (2 ^ k) = 2 ^ k ∧ bitlen (2 ^ k - 1) = k

/-- The split of a vector of length LN + LM is the row and column of its integer, and they form it again (R109). -/
def Obligations.SplitIsRowAndColumn : Prop :=
  ∀ (ln lm : Nat) (v : Bits), v.length = ln + lm →
    splitOuter ln v = bitsToNum v / 2 ^ lm ∧ splitMiddle ln v = bitsToNum v % 2 ^ lm ∧
    linearAddr lm (splitOuter ln v) (splitMiddle ln v) = bitsToNum v

/-! ## The SBox family (spec/41_sbox.md) -/

/-- R120: SBOX_BEGIN opens and empties the staging from any state; SSTG_BUF and everything else is left as it was. -/
def Obligations.SboxBeginOpensAnEmptyLoad : Prop :=
  decode 0x1000000000000000#64 = .ok .sboxBegin ∧
  ∀ s : State, exec .sboxBegin s = .next ({ s with sstg :=
    { isOpen := true, buf := s.sstg.buf, cnt := 0, rows := 0, cur := 0, m := none, ragged := false } }.answering
    0x0000000000000000#64)

/-- R121: SBOX_PUSH with a load open stores the entry at SSTG_CNT if that is below CAP, advances the two saturating
counters, and leaves every other cell and element; with none open it raises SEQUENCE_ERROR. -/
def Obligations.SboxPushAppendsOneEntry : Prop :=
  ∀ data : Nat, data < 2 ^ 32 →
    decode (wordD 0x11 data) = .ok (.sboxPush data) ∧
    ∀ s : State,
      (s.sstg.isOpen = false → exec (.sboxPush data) s = .next (s.answering 0x0600000000000000#64)) ∧
      (s.sstg.isOpen = true → ∃ t, exec (.sboxPush data) s = .next t ∧ t.rsp = some 0x0000000000000000#64 ∧
        t.sstg.cnt = min (s.sstg.cnt + 1) (Config.cap + 1) ∧ t.sstg.cur = min (s.sstg.cur + 1) (Config.cap + 1) ∧
        (s.sstg.cnt < Config.cap → (t.sstgBufAt s.sstg.cnt).toNat = data) ∧
        (∀ k, ¬(k = s.sstg.cnt ∧ s.sstg.cnt < Config.cap) → t.sstgBufAt k = s.sstgBufAt k) ∧
        t = { s with rsp := t.rsp, sstg := { s.sstg with buf := t.sstg.buf, cnt := t.sstg.cnt, cur := t.sstg.cur } })

/-- R122: SBOX_ENDROW with a load open closes the open row: the first closed row fixes SSTG_M, a later one of another
length sets SSTG_RAGGED; with none open it raises SEQUENCE_ERROR. -/
def Obligations.SboxEndrowClosesTheRow : Prop :=
  decode 0x1200000000000000#64 = .ok .sboxEndrow ∧
  ∀ s : State,
    (s.sstg.isOpen = false → exec .sboxEndrow s = .next (s.answering 0x0600000000000000#64)) ∧
    (s.sstg.isOpen = true → ∃ t, exec .sboxEndrow s = .next t ∧ t.rsp = some 0x0000000000000000#64 ∧
      t.sstg.rows = min (s.sstg.rows + 1) (Config.cap + 1) ∧ t.sstg.cur = 0 ∧
      (s.sstg.m = none → t.sstg.m = some s.sstg.cur ∧ t.sstg.ragged = s.sstg.ragged) ∧
      (∀ m, s.sstg.m = some m → t.sstg.m = some m ∧
        (t.sstg.ragged = true ↔ s.sstg.ragged = true ∨ s.sstg.cur ≠ m)) ∧
      t = { s with rsp := t.rsp, sstg :=
        { s.sstg with rows := t.sstg.rows, cur := 0, m := t.sstg.m, ragged := t.sstg.ragged } })

/-- SBOX_BUILD refuses a staged table by the first check that fails, in the order CAPACITY, ROWS, COLS, WIDTH, and writes
nothing; with no load open it raises SEQUENCE_ERROR (R123, R125, R127, R128, R130, R132, R206). With a closed row but SSTG_M NONE,
which no run reaches and the rules give no case for, the COLS verdict is the model's choice (log 12). -/
def Obligations.SboxBuildRefusesByTheFirstFailedCheck : Prop :=
  ∀ s : State,
    let fits := s.sstg.cnt ≤ Config.cap ∧ s.stagedRows ≤ Config.cap
    (s.sstg.isOpen = false → exec .sboxBuild s = .next (s.answering 0x0600000000000000#64)) ∧
    (s.sstg.isOpen = true →
      (¬fits → exec .sboxBuild s = .next (s.answering (errWord 1 4))) ∧
      (fits → (¬∃ k, s.stagedRows = 2 ^ k) → exec .sboxBuild s = .next (s.answering (errWord 1 1))) ∧
      (fits → (∃ k, s.stagedRows = 2 ^ k) → (s.stagedRagged ∨ ¬∃ k, s.stagedM = some (2 ^ k)) →
        exec .sboxBuild s = .next (s.answering (errWord 1 2))) ∧
      (∀ ln lm, fits → s.stagedRows = 2 ^ ln → s.stagedM = some (2 ^ lm) → ¬s.stagedRagged →
        ¬WidthIs s.sstgBufAt s.sstg.cnt (ln + lm) → exec .sboxBuild s = .next (s.answering (errWord 1 3))))

/-- SBOX_BUILD of a staged table that passes every check installs, in one step, SB_FWD from SSTG_BUF, SB_INV from
inverse_table_builder, SB_LOGN, SB_LOGM and SB_VALID, and closes staging; cells at and above 2^b and everything else are
left unchanged (R131). The premise is the model's invariant of the staging counters; that the table then has SSTG_CNT = 2^b entries
is the spec's own inference (R125). -/
def Obligations.SboxBuildInstallsTheTable : Prop :=
  ∀ (s : State) (ln lm : Nat), s.Inv → s.sstg.isOpen = true →
    s.sstg.cnt ≤ Config.cap → s.stagedRows ≤ Config.cap → s.stagedRows = 2 ^ ln → s.stagedM = some (2 ^ lm) →
    ¬s.stagedRagged → WidthIs s.sstgBufAt s.sstg.cnt (ln + lm) →
    s.sstg.cnt = 2 ^ (ln + lm) ∧
    ∃ t, exec .sboxBuild s = .next t ∧ t.rsp = some (okWord (ln + lm) 0) ∧
      t.sbox.valid = true ∧ t.sbox.logn.toNat = ln ∧ t.sbox.logm.toNat = lm ∧
      (∀ a < 2 ^ (ln + lm), t.sbFwdAt a = s.sstgBufAt a) ∧
      (∀ a < 2 ^ (ln + lm), some (t.sbInvAt a) =
        (inverseTableBuilder ((List.range (2 ^ (ln + lm))).map s.sstgBufAt) ln lm)[a]?) ∧
      (∀ a, 2 ^ (ln + lm) ≤ a → t.sbFwdAt a = s.sbFwdAt a ∧ t.sbInvAt a = s.sbInvAt a) ∧
      t = { s with rsp := t.rsp, sbox := t.sbox, sstg := { s.sstg with isOpen := false } }

/-- The closed form of inverse_table_builder (R134): cell y is the largest a with `table[a] = y` if one exists, and 0
otherwise. -/
def Obligations.InverseTableIsTheLargestPreimage : Prop :=
  ∀ (ln lm : Nat) (table : List Entry), ln + lm ≤ 32 → table.length = 2 ^ (ln + lm) →
    (∀ e ∈ table, e.toNat < 2 ^ (ln + lm)) →
    (inverseTableBuilder table ln lm).length = 2 ^ (ln + lm) ∧
    ∀ y < 2 ^ (ln + lm), InverseCell (fun a => (table.getD a 0#32).toNat) (2 ^ (ln + lm)) y
      ((inverseTableBuilder table ln lm).getD y 0#32).toNat

/-- R124: with an open row that holds at least one entry, BUILD has the verdict and the active SBox that it would have
after SBOX_ENDROW, while the row bookkeeping itself stays as it was; with no entry in the open row there is no such row, so a
load with no closed row has no rows. -/
def Obligations.SboxBuildClosesTheOpenRowLocally : Prop :=
  (∀ s : State, s.sstg.isOpen = true → 0 < s.sstg.cur →
    ∃ t u v, exec .sboxBuild s = .next t ∧ exec .sboxEndrow s = .next u ∧ exec .sboxBuild u = .next v ∧
      t.rsp = v.rsp ∧ t.sbox = v.sbox ∧ t.sstg = { s.sstg with isOpen := t.sstg.isOpen }) ∧
  (∀ s : State, s.sstg.isOpen = true → s.sstg.cur = 0 → s.sstg.rows = 0 → s.sstg.cnt ≤ Config.cap →
    exec .sboxBuild s = .next (s.answering (errWord 1 1)))

/-- SBOX_FWD responds `SB_FWD[(outer << SB_LOGM) | middle]` in SB_B bits, outer and middle being the two parts of the operand as
integers, and writes nothing; NOT_CONFIGURED comes before INVALID_INPUT_LENGTH (R136). That the address is DATA mod 2^SB_B is the
spec's own inference (R135). The premise is R26, which every step keeps. -/
def Obligations.SboxFwdSubstitutes : Prop :=
  ∀ len data : Nat, len < 64 → data < 2 ^ 32 →
    decode (wordV 0x14 len data) = .ok (.sboxFwd len data) ∧
    ∀ s : State, s.SboxInv →
      (s.sbox.valid = false → exec (.sboxFwd len data) s = .next (s.answering 0x0400000000000000#64)) ∧
      (s.sbox.valid = true → len ≠ s.sbB →
        exec (.sboxFwd len data) s = .next (s.answering 0x0300000000000000#64)) ∧
      (s.sbox.valid = true → len = s.sbB → ∃ outer middle : Nat,
        outer = bitsToNum ((numToBits data len).take s.sbox.logn.toNat) ∧
        middle = bitsToNum ((numToBits data len).drop s.sbox.logn.toNat) ∧
        outer * 2 ^ s.sbox.logm.toNat + middle = data % 2 ^ s.sbB ∧
        exec (.sboxFwd len data) s =
          .next (s.answering (okWord s.sbB (s.sbFwdNat (outer * 2 ^ s.sbox.logm.toNat + middle)))))

/-- SBOX_INV responds `SB_INV[(outer << SB_LOGM) | middle]` in SB_B bits and writes nothing; errors as SBOX_FWD (R137). That the
address is DATA mod 2^SB_B is the spec's own inference (R135). The premise is R26, which every step keeps. -/
def Obligations.SboxInvSubstitutesBack : Prop :=
  ∀ len data : Nat, len < 64 → data < 2 ^ 32 →
    decode (wordV 0x15 len data) = .ok (.sboxInv len data) ∧
    ∀ s : State, s.SboxInv →
      (s.sbox.valid = false → exec (.sboxInv len data) s = .next (s.answering 0x0400000000000000#64)) ∧
      (s.sbox.valid = true → len ≠ s.sbB →
        exec (.sboxInv len data) s = .next (s.answering 0x0300000000000000#64)) ∧
      (s.sbox.valid = true → len = s.sbB → ∃ outer middle : Nat,
        outer = bitsToNum ((numToBits data len).take s.sbox.logn.toNat) ∧
        middle = bitsToNum ((numToBits data len).drop s.sbox.logn.toNat) ∧
        outer * 2 ^ s.sbox.logm.toNat + middle = data % 2 ^ s.sbB ∧
        exec (.sboxInv len data) s =
          .next (s.answering (okWord s.sbB (s.sbInvNat (outer * 2 ^ s.sbox.logm.toNat + middle)))))

/-- R138: if the active table is a bijection, SBOX_INV undoes SBOX_FWD and SBOX_FWD undoes SBOX_INV on every vector of
length SB_B. -/
def Obligations.SboxTransformsAreInverseWhenBijective : Prop :=
  ∀ s : State, s.SboxInv → s.sbox.valid = true → s.SboxBijective → ∀ x < 2 ^ s.sbB,
    (∃ y < 2 ^ s.sbB, exec (.sboxFwd s.sbB x) s = .next (s.answering (okWord s.sbB y)) ∧
      exec (.sboxInv s.sbB y) s = .next (s.answering (okWord s.sbB x))) ∧
    (∃ y < 2 ^ s.sbB, exec (.sboxInv s.sbB x) s = .next (s.answering (okWord s.sbB y)) ∧
      exec (.sboxFwd s.sbB y) s = .next (s.answering (okWord s.sbB x)))

/-- An active table that is not a bijection has a gap, whose inverse cell is 0, and a vector that SBOX_INV does not bring
back (R141). -/
def Obligations.NonBijectiveTableLosesAVector : Prop :=
  ∀ s : State, s.SboxInv → s.sbox.valid = true → ¬s.SboxBijective →
    (∃ y < 2 ^ s.sbB, (∀ a < 2 ^ s.sbB, s.sbFwdNat a ≠ y) ∧ s.sbInvNat y = 0) ∧
    (∃ x < 2 ^ s.sbB, ∃ y < 2 ^ s.sbB, ∃ z < 2 ^ s.sbB, z ≠ x ∧
      exec (.sboxFwd s.sbB x) s = .next (s.answering (okWord s.sbB y)) ∧
      exec (.sboxInv s.sbB y) s = .next (s.answering (okWord s.sbB z)))

/-- R139: SBOX_RDF responds SB_FWD[DATA] for an index below 2^SB_B and writes nothing; NOT_CONFIGURED comes before
INDEX_RANGE. -/
def Obligations.SboxRdfReadsTheTable : Prop :=
  ∀ data : Nat, data < 2 ^ 32 →
    decode (wordD 0x16 data) = .ok (.sboxRdf data) ∧
    ∀ s : State,
      (s.sbox.valid = false → exec (.sboxRdf data) s = .next (s.answering 0x0400000000000000#64)) ∧
      (s.sbox.valid = true → 2 ^ s.sbB ≤ data →
        exec (.sboxRdf data) s = .next (s.answering 0x0700000000000000#64)) ∧
      (s.sbox.valid = true → data < 2 ^ s.sbB →
        exec (.sboxRdf data) s = .next (s.answering (okWord 0 (s.sbFwdNat data))))

/-- R140: SBOX_RDI responds SB_INV[DATA] for an index below 2^SB_B and writes nothing; errors as SBOX_RDF. -/
def Obligations.SboxRdiReadsTheInverseTable : Prop :=
  ∀ data : Nat, data < 2 ^ 32 →
    decode (wordD 0x17 data) = .ok (.sboxRdi data) ∧
    ∀ s : State,
      (s.sbox.valid = false → exec (.sboxRdi data) s = .next (s.answering 0x0400000000000000#64)) ∧
      (s.sbox.valid = true → 2 ^ s.sbB ≤ data →
        exec (.sboxRdi data) s = .next (s.answering 0x0700000000000000#64)) ∧
      (s.sbox.valid = true → data < 2 ^ s.sbB →
        exec (.sboxRdi data) s = .next (s.answering (okWord 0 (s.sbInvNat data))))

/-! ## The PBox family (spec/42_pbox.md) -/

/-- R160: PBOX_BEGIN opens and empties the staging from any state; everything else is left as it was. -/
def Obligations.PboxBeginOpensAnEmptyLoad : Prop :=
  decode 0x2000000000000000#64 = .ok .pboxBegin ∧
  ∀ s : State, exec .pboxBegin s = .next
    ({ s with pstg := { isOpen := true, buf := s.pstg.buf, cnt := 0 } }.answering 0x0000000000000000#64)

/-- R161: PBOX_PUSH with a load open stores the value at PSTG_CNT if fewer than 32 were pushed, advances the counter up to
33, and leaves every other cell and element; with none open it raises SEQUENCE_ERROR. -/
def Obligations.PboxPushAppendsOneValue : Prop :=
  ∀ data : Nat, data < 2 ^ 32 →
    decode (wordD 0x21 data) = .ok (.pboxPush data) ∧
    ∀ s : State,
      (s.pstg.isOpen = false → exec (.pboxPush data) s = .next (s.answering 0x0600000000000000#64)) ∧
      (s.pstg.isOpen = true → ∃ t, exec (.pboxPush data) s = .next t ∧ t.rsp = some 0x0000000000000000#64 ∧
        t.pstg.cnt = min (s.pstg.cnt + 1) 33 ∧
        (s.pstg.cnt < 32 → (t.pstgBufAt s.pstg.cnt).toNat = data) ∧
        (∀ k, ¬(k = s.pstg.cnt ∧ s.pstg.cnt < 32) → t.pstgBufAt k = s.pstgBufAt k) ∧
        t = { s with rsp := t.rsp, pstg := { s.pstg with buf := t.pstg.buf, cnt := t.pstg.cnt } })

/-- PBOX_BUILD refuses a staged sequence by LENGTH, else by the first offending value in ascending index, RANGE if it is 0
or exceeds n and DUPLICATE if it repeats an earlier one, and writes nothing; with no load open it raises SEQUENCE_ERROR
(R162, R163, R164, R165, R206). -/
def Obligations.PboxBuildRefusesByTheFirstOffendingValue : Prop :=
  ∀ s : State,
    let n := s.pstg.cnt
    let v := fun i => (s.pstgBufAt i).toNat
    (s.pstg.isOpen = false → exec .pboxBuild s = .next (s.answering 0x0600000000000000#64)) ∧
    (s.pstg.isOpen = true → (n = 0 ∨ 32 < n) → exec .pboxBuild s = .next (s.answering (errWord 2 1))) ∧
    (s.pstg.isOpen = true → 1 ≤ n → n ≤ 32 → ∀ i < n, (∀ j < i, 1 ≤ v j ∧ v j ≤ n) → (∀ j < i, ∀ k < j, v j ≠ v k) →
      ((v i = 0 ∨ n < v i) → exec .pboxBuild s = .next (s.answering (errWord 2 2))) ∧
      ((1 ≤ v i ∧ v i ≤ n ∧ ∃ j < i, v j = v i) → exec .pboxBuild s = .next (s.answering (errWord 2 3))))

/-- PBOX_BUILD answers OK exactly when the staged sequence is a bijection from indices `0 .. n-1` onto `{1, …, n}` with
1 ≤ n ≤ 32 (R166). -/
def Obligations.PboxBuildAcceptsExactlyThePermutations : Prop :=
  ∀ s : State, s.pstg.isOpen = true →
    ∃ t r, exec .pboxBuild s = .next t ∧ t.rsp = some r ∧
      (rspSt r = 0#8 ↔ 1 ≤ s.pstg.cnt ∧ s.pstg.cnt ≤ 32 ∧ s.StagedPermutation s.pstg.cnt)

/-- R168 (with R167): PBOX_BUILD of a permutation installs, in one step, PB_FWD from PSTG_BUF, PB_INV its inverse, PB_N and
PB_VALID, and closes staging; cells at and above n and everything else are left unchanged. -/
def Obligations.PboxBuildInstallsThePermutation : Prop :=
  ∀ s : State, s.pstg.isOpen = true → 1 ≤ s.pstg.cnt → s.pstg.cnt ≤ 32 → s.StagedPermutation s.pstg.cnt →
    ∃ t, exec .pboxBuild s = .next t ∧ t.rsp = some (okWord s.pstg.cnt 0) ∧
      t.pbox.valid = true ∧ t.pbN = s.pstg.cnt ∧
      (∀ i < s.pstg.cnt, t.pbFwdNat i = (s.pstgBufAt i).toNat) ∧
      (∀ i < s.pstg.cnt, t.pbInvNat ((s.pstgBufAt i).toNat - 1) = i + 1) ∧
      (∀ i, s.pstg.cnt ≤ i → t.pbFwdAt i = s.pbFwdAt i ∧ t.pbInvAt i = s.pbInvAt i) ∧
      t = { s with rsp := t.rsp, pbox := t.pbox, pstg := { s.pstg with isOpen := false } }

/-- R170 (with R169): PBOX_FWD responds the vector with `vout[PB_FWD[i] - 1] = vin[i]` for every i and writes nothing;
NOT_CONFIGURED comes before INVALID_INPUT_LENGTH. The premise is R31, which every step keeps. -/
def Obligations.PboxFwdPermutesTheBits : Prop :=
  ∀ len data : Nat, len < 64 → data < 2 ^ 32 →
    decode (wordV 0x23 len data) = .ok (.pboxFwd len data) ∧
    ∀ s : State, s.PboxInv →
      (s.pbox.valid = false → exec (.pboxFwd len data) s = .next (s.answering 0x0400000000000000#64)) ∧
      (s.pbox.valid = true → len ≠ s.pbN →
        exec (.pboxFwd len data) s = .next (s.answering 0x0300000000000000#64)) ∧
      (s.pbox.valid = true → len = s.pbN → ∃ vout : Bits, vout.length = s.pbN ∧
        (∀ i < s.pbN, vout[s.pbFwdNat i - 1]? = (numToBits data len)[i]?) ∧
        exec (.pboxFwd len data) s = .next (s.answering (okWord s.pbN (bitsToNum vout))))

/-- R171 (with R169): PBOX_INV responds the vector with `vout[PB_INV[i] - 1] = vin[i]` for every i and writes nothing; errors
as PBOX_FWD. -/
def Obligations.PboxInvPermutesTheBitsBack : Prop :=
  ∀ len data : Nat, len < 64 → data < 2 ^ 32 →
    decode (wordV 0x24 len data) = .ok (.pboxInv len data) ∧
    ∀ s : State, s.PboxInv →
      (s.pbox.valid = false → exec (.pboxInv len data) s = .next (s.answering 0x0400000000000000#64)) ∧
      (s.pbox.valid = true → len ≠ s.pbN →
        exec (.pboxInv len data) s = .next (s.answering 0x0300000000000000#64)) ∧
      (s.pbox.valid = true → len = s.pbN → ∃ vout : Bits, vout.length = s.pbN ∧
        (∀ i < s.pbN, vout[s.pbInvNat i - 1]? = (numToBits data len)[i]?) ∧
        exec (.pboxInv len data) s = .next (s.answering (okWord s.pbN (bitsToNum vout))))

/-- The gather form and the integer form of the two transforms (R173): with y the RDATA of PBOX_FWD of DATA, element k of y
is element PB_INV[k] - 1 of the operand, and bit n - PB_FWD[i] of y is bit n - 1 - i of DATA; likewise for PBOX_INV with
the two arrays exchanged. -/
def Obligations.PboxTransformsInIntegerForm : Prop :=
  ∀ (s : State) (data : Nat), s.PboxInv → s.pbox.valid = true → data < 2 ^ 32 →
    (∃ y < 2 ^ s.pbN, exec (.pboxFwd s.pbN data) s = .next (s.answering (okWord s.pbN y)) ∧
      (∀ k < s.pbN, (numToBits y s.pbN)[k]? = (numToBits data s.pbN)[s.pbInvNat k - 1]?) ∧
      (∀ i < s.pbN, y.testBit (s.pbN - s.pbFwdNat i) = data.testBit (s.pbN - 1 - i))) ∧
    (∃ y < 2 ^ s.pbN, exec (.pboxInv s.pbN data) s = .next (s.answering (okWord s.pbN y)) ∧
      (∀ k < s.pbN, (numToBits y s.pbN)[k]? = (numToBits data s.pbN)[s.pbFwdNat k - 1]?) ∧
      (∀ i < s.pbN, y.testBit (s.pbN - s.pbInvNat i) = data.testBit (s.pbN - 1 - i)))

/-- The inverse law R172 (an inference of the spec): PBOX_INV undoes PBOX_FWD and PBOX_FWD undoes PBOX_INV on every vector of length PB_N, unconditionally. -/
def Obligations.PboxTransformsAreInverse : Prop :=
  ∀ s : State, s.PboxInv → s.pbox.valid = true → ∀ x < 2 ^ s.pbN,
    (∃ y < 2 ^ s.pbN, exec (.pboxFwd s.pbN x) s = .next (s.answering (okWord s.pbN y)) ∧
      exec (.pboxInv s.pbN y) s = .next (s.answering (okWord s.pbN x))) ∧
    (∃ y < 2 ^ s.pbN, exec (.pboxInv s.pbN x) s = .next (s.answering (okWord s.pbN y)) ∧
      exec (.pboxFwd s.pbN y) s = .next (s.answering (okWord s.pbN x)))

/-- R174: PBOX_RDF responds PB_FWD[DATA], a 1-based position, for an index below PB_N and writes nothing; NOT_CONFIGURED
comes before INDEX_RANGE. -/
def Obligations.PboxRdfReadsThePermutation : Prop :=
  ∀ data : Nat, data < 2 ^ 32 →
    decode (wordD 0x25 data) = .ok (.pboxRdf data) ∧
    ∀ s : State,
      (s.pbox.valid = false → exec (.pboxRdf data) s = .next (s.answering 0x0400000000000000#64)) ∧
      (s.pbox.valid = true → s.pbN ≤ data →
        exec (.pboxRdf data) s = .next (s.answering 0x0700000000000000#64)) ∧
      (s.pbox.valid = true → data < s.pbN →
        exec (.pboxRdf data) s = .next (s.answering (okWord 0 (s.pbFwdNat data))))

/-- R175: PBOX_RDI responds PB_INV[DATA] for an index below PB_N and writes nothing; errors as PBOX_RDF. -/
def Obligations.PboxRdiReadsTheInversePermutation : Prop :=
  ∀ data : Nat, data < 2 ^ 32 →
    decode (wordD 0x26 data) = .ok (.pboxRdi data) ∧
    ∀ s : State,
      (s.pbox.valid = false → exec (.pboxRdi data) s = .next (s.answering 0x0400000000000000#64)) ∧
      (s.pbox.valid = true → s.pbN ≤ data →
        exec (.pboxRdi data) s = .next (s.answering 0x0700000000000000#64)) ∧
      (s.pbox.valid = true → data < s.pbN →
        exec (.pboxRdi data) s = .next (s.answering (okWord 0 (s.pbInvNat data))))

/-! ## Control and status (spec/43_control.md) -/

/-- R190: NOP is the all-zero word; it responds OK and writes nothing; OPC 0x00 with any other bit set is illegal. -/
def Obligations.NopDoesNothing : Prop :=
  decode 0x0000000000000000#64 = .ok .nop ∧
  (∀ s : State, exec .nop s = .next (s.answering 0x0000000000000000#64)) ∧
  (∀ w : PortWord, (w.extractLsb' 56 8).toNat = 0 → w ≠ 0#64 → ∀ i, decode w ≠ .ok i)

/-- R191 and R37: GET_STATUS responds the STATUS view, field by field, and writes nothing. -/
def Obligations.GetStatusShowsTheView : Prop :=
  decode 0x0100000000000000#64 = .ok .getStatus ∧
  ∀ s : State, ∃ x : BitVec 32, exec .getStatus s = .next (s.answering (okWord 0 x.toNat)) ∧
    x.getLsbD 0 = s.sbox.valid ∧ x.getLsbD 1 = s.pbox.valid ∧
    x.getLsbD 2 = s.sstg.isOpen ∧ x.getLsbD 3 = s.pstg.isOpen ∧
    x.extractLsb' 4 4 = 0#4 ∧
    x.extractLsb' 8 6 = (if s.sbox.valid = true then s.sbox.logn else 0#6) ∧
    x.extractLsb' 14 2 = 0#2 ∧
    x.extractLsb' 16 6 = (if s.sbox.valid = true then s.sbox.logm else 0#6) ∧
    x.extractLsb' 22 2 = 0#2 ∧
    x.extractLsb' 24 6 = (if s.pbox.valid = true then s.pbox.n else 0#6) ∧
    x.extractLsb' 30 2 = 0#2

/-! ## The whole machine -/

/-- The reset state meets the invariant of the block (R26, R31, the bounds of R33 to R36). -/
def Obligations.ResetMeetsTheBlockInvariant : Prop := State.reset.Inv

/-- Every step keeps the invariant of the block: the active SBox is as R26 says, the active PBox is as R31 says, the
staging counters keep their bounds and count the table, and no array outgrows its cells. -/
def Obligations.EveryStepKeepsTheBlockInvariant : Prop := ∀ s t : State, s.Inv → step s = .next t → t.Inv

/-- R38: no command but a successful SBOX_BUILD writes an element of the active SBox, and none but a successful PBOX_BUILD
writes one of the active PBox; reset clears both VALID bits. -/
def Obligations.OnlyASuccessfulBuildWritesTheActiveInstance : Prop :=
  (∀ (i : Instr) (s t : State), exec i s = .next t →
    (t.sbox ≠ s.sbox → i = .sboxBuild ∧ ∃ r, t.rsp = some r ∧ rspSt r = 0#8) ∧
    (t.pbox ≠ s.pbox → i = .pboxBuild ∧ ∃ r, t.rsp = some r ∧ rspSt r = 0#8)) ∧
  (∀ s t : State, step s = .next t → (∃ rest, s.inputs = .reset :: rest) →
    t.sbox.valid = false ∧ t.pbox.valid = false)

/-- R234: from a state with the reset values, no transform and no readback of a kind can succeed before a BUILD of that kind
has succeeded: whatever commands have run, either its VALID bit is 0, and those commands raise NOT_CONFIGURED, or some BUILD
among the commands responded OK. -/
def Obligations.NotConfiguredUntilABuildSucceeds : Prop :=
  ∀ (s t : State) (is : List Instr), s.HasResetValues → execAll is s = .next t →
    ((t.sbox.valid = false ∧ ∀ len data : Nat, ∀ i : Instr,
        (i = .sboxFwd len data ∨ i = .sboxInv len data ∨ i = .sboxRdf data ∨ i = .sboxRdi data) →
        exec i t = .next (t.answering 0x0400000000000000#64)) ∨
      ∃ k u v r, is[k]? = some .sboxBuild ∧ execAll (is.take k) s = .next u ∧ exec .sboxBuild u = .next v ∧
        v.rsp = some r ∧ rspSt r = 0#8) ∧
    ((t.pbox.valid = false ∧ ∀ len data : Nat, ∀ i : Instr,
        (i = .pboxFwd len data ∨ i = .pboxInv len data ∨ i = .pboxRdf data ∨ i = .pboxRdi data) →
        exec i t = .next (t.answering 0x0400000000000000#64)) ∨
      ∃ k u v r, is[k]? = some .pboxBuild ∧ execAll (is.take k) s = .next u ∧ exec .pboxBuild u = .next v ∧
        v.rsp = some r ∧ rspSt r = 0#8)

/-- The transforms, the readbacks, GET_STATUS and NOP change no state and give the same response each time they are
repeated (R56). -/
def Obligations.ReadsHaveNoSideEffect : Prop :=
  ∀ (i : Instr) (s : State), i.isRead = true →
    ∃ r, exec i s = .next (s.answering r) ∧ ∀ q, exec i (s.answering q) = .next (s.answering r)

/-- R59: a transform's result depends only on its operand and the active instance of its kind, and no command of one kind
touches the instance or the load of the other. -/
def Obligations.TransformDependsOnlyOnItsInstance : Prop :=
  (∀ (s t : State) (len data : Nat), s.sbox.valid = t.sbox.valid → s.sbox.logn = t.sbox.logn →
    s.sbox.logm = t.sbox.logm → (∀ a < 2 ^ s.sbB, s.sbFwdAt a = t.sbFwdAt a ∧ s.sbInvAt a = t.sbInvAt a) →
    ∃ r q, exec (.sboxFwd len data) s = .next (s.answering r) ∧ exec (.sboxFwd len data) t = .next (t.answering r) ∧
      exec (.sboxInv len data) s = .next (s.answering q) ∧ exec (.sboxInv len data) t = .next (t.answering q)) ∧
  (∀ (s t : State) (len data : Nat), s.pbox.valid = t.pbox.valid → s.pbox.n = t.pbox.n →
    (∀ i < s.pbN, s.pbFwdAt i = t.pbFwdAt i ∧ s.pbInvAt i = t.pbInvAt i) →
    ∃ r q, exec (.pboxFwd len data) s = .next (s.answering r) ∧ exec (.pboxFwd len data) t = .next (t.answering r) ∧
      exec (.pboxInv len data) s = .next (s.answering q) ∧ exec (.pboxInv len data) t = .next (t.answering q)) ∧
  (∀ (i : Instr) (s t : State), exec i s = .next t →
    (i.isSbox = true → t.pbox = s.pbox ∧ t.pstg = s.pstg ∧ t.pbFwdAt = s.pbFwdAt ∧ t.pbInvAt = s.pbInvAt) ∧
    (i.isPbox = true → t.sbox = s.sbox ∧ t.sstg = s.sstg ∧ t.sbFwdAt = s.sbFwdAt ∧ t.sbInvAt = s.sbInvAt))

/-- What reset leaves unspecified, and every cell outside an instance or above a counter, is unobservable: two states that
share the specified elements answer every input alike and share them again afterwards; any two reset states are such a
pair (R231, R232). -/
def Obligations.UnspecifiedContentsAreUnobservable : Prop :=
  (∀ (j k : Nat) (is : List HostInput), (State.atReset j is).Agree (State.atReset k is)) ∧
  (∀ s t : State, s.Inv → s.Agree t →
    ∃ s' t', step s = .next s' ∧ step t = .next t' ∧ s'.rsp = t'.rsp ∧ s'.Agree t')

/-- A format V command with LEN > 32 decodes and always raises INVALID_INPUT_LENGTH or NOT_CONFIGURED (R81). -/
def Obligations.VectorsAbove32BitsAlwaysFail : Prop :=
  ∀ len data : Nat, 32 < len → len < 64 → data < 2 ^ 32 → ∀ s : State, s.Inv →
    ∀ i : Instr, (i = .sboxFwd len data ∨ i = .sboxInv len data ∨ i = .pboxFwd len data ∨ i = .pboxInv len data) →
      decode (encode i) = .ok i ∧
      (exec i s = .next (s.answering (errWord 3 0)) ∨ exec i s = .next (s.answering (errWord 4 0)))

/-! ## Load sequences (spec/30_encoding.md R83) -/

/-- SBOX_LOAD, from any state: the commands before the final SBOX_BUILD respond OK whatever the table, entries of 2^32 and above,
which no word carries, included (log 14); for a rectangular table with power-of-two dimensions whose entries fill exactly
b = LN + LM bits, SBOX_BUILD responds OK with RLEN = b, the active SBox is the table, in its linear layout, and the active PBox
is untouched (R83, R126). -/
def Obligations.SboxLoadBuildsTheTable : Prop :=
  (∀ (s : State) (table : List (List Nat)) (k : Nat), k + 1 < (sboxLoad table).length →
    ∃ u, execAll ((sboxLoad table).take (k + 1)) s = .next u ∧ u.rsp = some 0x0000000000000000#64) ∧
  (∀ (s : State) (ln lm : Nat) (table : List (List Nat)),
    ln + lm ≤ Config.sboxBMax → table.length = 2 ^ ln → (∀ row ∈ table, row.length = 2 ^ lm) →
    (∀ row ∈ table, ∀ e ∈ row, bitlen e ≤ ln + lm) →
    (ln + lm = 0 ∨ ∃ row ∈ table, ∃ e ∈ row, bitlen e = ln + lm) →
    ∃ t, execAll (sboxLoad table) s = .next t ∧ t.rsp = some (okWord (ln + lm) 0) ∧
      t.sbox.valid = true ∧ t.sbox.logn.toNat = ln ∧ t.sbox.logm.toNat = lm ∧ t.sstg.isOpen = false ∧
      (∀ i < 2 ^ ln, ∀ j < 2 ^ lm, t.sbFwdNat (i * 2 ^ lm + j) = (table.getD i []).getD j 0) ∧
      t.pbox = s.pbox ∧ t.pstg = s.pstg)

/-- PBOX_LOAD, from any state: the commands before the final PBOX_BUILD respond OK whatever the sequence, values of 2^32 and above,
which no word carries, included (log 14); for a permutation of `{1, …, n}` with 1 ≤ n ≤ 32, PBOX_BUILD responds OK with RLEN = n,
the active PBox is the permutation, and the active SBox is untouched (R83, R167, R168). -/
def Obligations.PboxLoadBuildsThePermutation : Prop :=
  (∀ (s : State) (p : List Nat) (k : Nat), k + 1 < (pboxLoad p).length →
    ∃ u, execAll ((pboxLoad p).take (k + 1)) s = .next u ∧ u.rsp = some 0x0000000000000000#64) ∧
  (∀ (s : State) (p : List Nat), 1 ≤ p.length → p.length ≤ 32 → p.Nodup → (∀ v ∈ p, 1 ≤ v ∧ v ≤ p.length) →
    ∃ t, execAll (pboxLoad p) s = .next t ∧ t.rsp = some (okWord p.length 0) ∧
      t.pbox.valid = true ∧ t.pbN = p.length ∧ t.pstg.isOpen = false ∧
      (∀ i < p.length, t.pbFwdNat i = p.getD i 0) ∧ (∀ i < p.length, t.pbInvNat (p.getD i 0 - 1) = i + 1) ∧
      t.sbox = s.sbox ∧ t.sstg = s.sstg)
end

