-- ==== Sys2Proof/Laws/Cells.lean ====
section
/-! SUPPORT. The laws of the block's arrays: a read after a write, and what a write leaves alone. -/

namespace Sys2Proof.Machine.Cells

variable {w : Nat} (free : Nat → BitVec w) (cells values : List (BitVec w))

@[simp] theorem read_nil (a : Nat) : read free [] a = free a := rfl

theorem read_of_lt {a : Nat} (h : a < cells.length) : read free cells a = cells[a] := by
  simp [read, h]

theorem read_of_ge {a : Nat} (h : cells.length ≤ a) : read free cells a = free a := by
  simp [read, h]

@[simp] theorem length_first (n : Nat) : (first free cells n).length = n := by
  simp only [first, List.length_append, List.length_take, List.length_map, List.length_range']
  omega

@[simp] theorem first_zero : first free cells 0 = [] := by simp [first]

theorem getElem_first (n k : Nat) (h : k < (first free cells n).length) :
    (first free cells n)[k] = read free cells k := by
  rw [length_first] at h
  by_cases hk : k < cells.length
  · rw [read_of_lt free cells hk]
    simp only [first]
    rw [List.getElem_append_left (by simp [h, hk])]
    simp
  · rw [read_of_ge free cells (by omega)]
    simp only [first]
    rw [List.getElem_append_right (by simp; omega)]
    simp only [List.getElem_map, List.getElem_range', List.length_take]
    congr 1; omega

/-- The first n cells, listed. -/
theorem first_eq_map (n : Nat) : first free cells n = (List.range n).map (read free cells) := by
  apply List.ext_getElem (by simp)
  intro k h _
  simp [getElem_first free cells n k h]

/-- A read after a write to the same cell gives the value written. -/
theorem read_write_same (a : Nat) (v : BitVec w) : read free (write free cells a v) a = v := by
  simp only [read, write]
  rw [List.getElem?_append_right (by simp)]
  simp

/-- A write leaves every other cell alone. -/
theorem read_write_other (a b : Nat) (v : BitVec w) (h : b ≠ a) :
    read free (write free cells a v) b = read free cells b := by
  rcases Nat.lt_or_gt_of_ne h with hlt | hgt
  · have hl : b < (first free cells a).length := by simpa using hlt
    simp only [write]
    rw [read, List.getElem?_append_left hl, List.getElem?_eq_getElem hl, getElem_first]
    simp
  · simp only [write]
    rw [read, List.getElem?_append_right (by simp; omega)]
    obtain ⟨d, rfl⟩ : ∃ d, b = a + d + 1 := ⟨b - a - 1, by omega⟩
    have : a + d + 1 - (first free cells a).length = d + 1 := by simp; omega
    rw [this, List.getElem?_cons_succ, List.getElem?_drop, read]
    congr 2
    omega

/-- A write of the next unwritten cell, or of a written one, makes no gap. -/
theorem length_write (a : Nat) (v : BitVec w) : (write free cells a v).length = max cells.length (a + 1) := by
  simp only [write, List.length_append, length_first, List.length_cons, List.length_drop]
  omega

/-- The cells installed. -/
theorem read_install_lt {a : Nat} (h : a < values.length) : read free (install cells values) a = values[a] := by
  simp [read, install, h, List.getElem?_append_left h]

/-- Installing leaves every cell above the values alone. -/
theorem read_install_ge {a : Nat} (h : values.length ≤ a) :
    read free (install cells values) a = read free cells a := by
  simp only [read, install]
  rw [List.getElem?_append_right h, List.getElem?_drop]
  congr 2
  omega

theorem length_install : (install cells values).length = max cells.length values.length := by
  simp only [install, List.length_append, List.length_drop]
  omega

end Sys2Proof.Machine.Cells
end

