-- ==== Sys2Proof/Laws/Codec.lean ====
section
/-! SUPPORT. The codec's recursion equations and bounds (spec/40_codec.md). -/

namespace Sys2Proof.Machine

/-! ## bits_to_num -/

@[simp] theorem bitsToNum_nil : bitsToNum [] = 0 := rfl

theorem foldl_bits (v : Bits) (x : Nat) :
    v.foldl (fun x b => 2 * x + b.toNat) x = 2 ^ v.length * x + bitsToNum v := by
  induction v generalizing x with
  | nil => simp [bitsToNum]
  | cons b v ih =>
    simp only [bitsToNum, List.foldl_cons, List.length_cons]
    rw [ih, ih (2 * 0 + b.toNat)]
    ring

/-- The first element is the most significant bit. -/
theorem bitsToNum_cons (b : Bool) (v : Bits) : bitsToNum (b :: v) = 2 ^ v.length * b.toNat + bitsToNum v := by
  have h := foldl_bits v (2 * 0 + b.toNat)
  simpa [bitsToNum] using h

/-- Concatenation: the first part is shifted past the second. -/
theorem bitsToNum_append (u v : Bits) : bitsToNum (u ++ v) = 2 ^ v.length * bitsToNum u + bitsToNum v := by
  rw [bitsToNum, List.foldl_append, foldl_bits]
  rfl

theorem bitsToNum_concat (v : Bits) (b : Bool) : bitsToNum (v ++ [b]) = 2 * bitsToNum v + b.toNat := by
  rw [bitsToNum_append]; cases b <;> simp [bitsToNum]

/-- A vector's integer fits its length. -/
theorem bitsToNum_lt (v : Bits) : bitsToNum v < 2 ^ v.length := by
  induction v with
  | nil => simp
  | cons b v ih =>
    rw [bitsToNum_cons, List.length_cons, pow_succ]
    cases b <;> simp <;> omega

/-! ## num_to_bits -/

@[simp] theorem length_numToBits (num L : Nat) : (numToBits num L).length = L := by simp [numToBits]

@[simp] theorem numToBits_zero (num : Nat) : numToBits num 0 = [] := rfl

/-- The most significant bit comes first. -/
theorem numToBits_succ (num L : Nat) : numToBits num (L + 1) = num.testBit L :: numToBits num L := by
  simp [numToBits, List.range_succ]

/-! ## The operand vector -/

@[simp] theorem length_vectorOperand (len data : Nat) : (vectorOperand len data).length = len := by
  simp [vectorOperand]

/-! ## max bitlen -/

theorem maxBitlen_foldl (l : List Entry) (w : Nat) :
    l.foldl (fun w e => max w (bitlen e.toNat)) w = max w (maxBitlen l) := by
  induction l generalizing w with
  | nil => simp [maxBitlen]
  | cons e l ih => simp only [maxBitlen, List.foldl_cons]; rw [ih, ih (max 0 _)]; simp [max_assoc]

@[simp] theorem maxBitlen_nil : maxBitlen [] = 0 := rfl

theorem maxBitlen_cons (e : Entry) (l : List Entry) : maxBitlen (e :: l) = max (bitlen e.toNat) (maxBitlen l) := by
  simp only [maxBitlen, List.foldl_cons]
  rw [maxBitlen_foldl, maxBitlen, Nat.zero_max]

/-- w is at most k exactly when every entry's bit length is. -/
theorem maxBitlen_le_iff (l : List Entry) (k : Nat) : maxBitlen l ≤ k ↔ ∀ e ∈ l, bitlen e.toNat ≤ k := by
  induction l with
  | nil => simp
  | cons e l ih => simp [maxBitlen_cons, ih]

/-- w is 0 or the bit length of some entry. -/
theorem maxBitlen_attained (l : List Entry) : maxBitlen l = 0 ∨ ∃ e ∈ l, bitlen e.toNat = maxBitlen l := by
  induction l with
  | nil => simp
  | cons e l ih =>
    rw [maxBitlen_cons]
    rcases Nat.le_total (bitlen e.toNat) (maxBitlen l) with h | h
    · rw [max_eq_right h]
      rcases ih with ih | ⟨x, hx, hb⟩
      · exact .inl ih
      · exact .inr ⟨x, by simp [hx], hb⟩
    · rw [max_eq_left h]
      exact .inr ⟨e, by simp, rfl⟩

end Sys2Proof.Machine
end

