-- ==== Sys2Proof/Laws/Response.lean ====
section
/-! SUPPORT. A response word as an integer, and its fields (spec/30_encoding.md R76). -/

namespace Sys2Proof.Machine

/-- An OR with a shifted value is a sum where the low part fits below the shift. -/
theorem shiftLeft_or (a k b : Nat) (h : b < 2 ^ k) : a <<< k ||| b = a * 2 ^ k + b := by
  rw [← Nat.shiftLeft_add_eq_or_of_lt h, Nat.shiftLeft_eq]

/-- The three fields of `respond` do not overlap. -/
theorem toNat_respondWord (st : BitVec 8) (rlen : Dim) (rdata : Entry) :
    (respondWord st rlen rdata).toNat = st.toNat * 2 ^ 56 + (rlen.toNat * 2 ^ 48 + rdata.toNat) := by
  have h1 := st.isLt; have h2 := rlen.isLt; have h3 := rdata.isLt
  simp only [respondWord, BitVec.toNat_or, BitVec.toNat_shiftLeft, BitVec.toNat_setWidth]
  rw [Nat.mod_eq_of_lt (a := st.toNat) (by omega), Nat.mod_eq_of_lt (a := rlen.toNat) (by omega),
    Nat.mod_eq_of_lt (a := rdata.toNat) (by omega), Nat.mod_eq_of_lt (by rw [Nat.shiftLeft_eq]; omega),
    Nat.mod_eq_of_lt (by rw [Nat.shiftLeft_eq]; omega), Nat.or_assoc, shiftLeft_or rlen.toNat _ _ (by omega),
    shiftLeft_or _ _ _ (by omega)]

/-- The two fields of `raise` do not overlap. -/
theorem toNat_raiseWord (e : Error) : (raiseWord e).toNat = e.st.toNat * 2 ^ 56 + e.cause.toNat * 2 ^ 40 := by
  have h1 := e.st.isLt; have h2 := e.cause.isLt
  simp only [raiseWord, BitVec.toNat_or, BitVec.toNat_shiftLeft, BitVec.toNat_setWidth]
  rw [Nat.mod_eq_of_lt (a := e.st.toNat) (by omega), Nat.mod_eq_of_lt (a := e.cause.toNat) (by omega),
    Nat.mod_eq_of_lt (a := e.st.toNat <<< 56) (by rw [Nat.shiftLeft_eq]; omega), Nat.mod_eq_of_lt
    (by rw [Nat.shiftLeft_eq]; omega), Nat.shiftLeft_eq e.cause.toNat, shiftLeft_or _ _ _ (by omega)]

/-- An OK response is `(RLEN << 48) | RDATA`. -/
theorem respondWord_ok (rlen rdata : Nat) (h : rlen < 2 ^ 6) (h' : rdata < 2 ^ 32) :
    respondWord stOk (BitVec.ofNat 6 rlen) (BitVec.ofNat 32 rdata) = BitVec.ofNat 64 (rlen * 2 ^ 48 + rdata) := by
  apply BitVec.eq_of_toNat_eq
  rw [toNat_respondWord]
  simp only [stOk, BitVec.toNat_ofNat]
  omega

/-- ST of an error is never OK. -/
theorem Error.st_ne_ok (e : Error) : e.st ≠ stOk := by cases e <;> simp [Error.st, stOk]

/-- Status codes above 0x07 are never produced. -/
theorem Error.st_le (e : Error) : e.st.toNat ≤ 7 := by cases e <;> simp [Error.st]

@[simp] theorem rspSt_raiseWord (e : Error) : rspSt (raiseWord e) = e.st := by
  apply BitVec.eq_of_toNat_eq
  have h2 := e.cause.isLt; have h1 := e.st.isLt
  simp only [rspSt, BitVec.extractLsb'_toNat, toNat_raiseWord, Nat.shiftRight_eq_div_pow]
  omega

@[simp] theorem rspSt_respondWord (st : BitVec 8) (rlen : Dim) (rdata : Entry) :
    rspSt (respondWord st rlen rdata) = st := by
  apply BitVec.eq_of_toNat_eq
  have h1 := st.isLt; have h2 := rlen.isLt; have h3 := rdata.isLt
  simp only [rspSt, BitVec.extractLsb'_toNat, toNat_respondWord, Nat.shiftRight_eq_div_pow]
  omega

@[simp] theorem rspCause_raiseWord (e : Error) : rspCause (raiseWord e) = e.cause := by
  apply BitVec.eq_of_toNat_eq
  have h2 := e.cause.isLt; have h1 := e.st.isLt
  simp only [rspCause, BitVec.extractLsb'_toNat, toNat_raiseWord, Nat.shiftRight_eq_div_pow]
  omega

end Sys2Proof.Machine
end

