-- ==== Sys2Proof/Laws/Decode.lean ====
section
/-! SUPPORT. A command word as its five fields (spec/30_encoding.md R71), what the decoder reads of them, and what a mask
keeps of them. -/

namespace Sys2Proof

open Sys2Proof.Machine (shiftLeft_or)

/-- The word of five fields: OPC, RSV, LEN, RSV, DATA (R71). -/
def packWord (opc : BitVec 8) (rh : BitVec 2) (len : BitVec 6) (rl : BitVec 16) (data : BitVec 32) : PortWord :=
  opc ++ (rh ++ (len ++ (rl ++ data)))

section
variable (opc : BitVec 8) (rh : BitVec 2) (len : BitVec 6) (rl : BitVec 16) (data : BitVec 32)

/-- The five fields do not overlap. -/
theorem toNat_packWord : (packWord opc rh len rl data).toNat =
    opc.toNat * 2 ^ 56 + (rh.toNat * 2 ^ 54 + (len.toNat * 2 ^ 48 + (rl.toNat * 2 ^ 32 + data.toNat))) := by
  have h1 := rh.isLt; have h2 := len.isLt; have h3 := rl.isLt; have h4 := data.isLt
  simp only [packWord, BitVec.toNat_append]
  rw [shiftLeft_or rl.toNat _ _ (by omega), shiftLeft_or len.toNat _ _ (by omega),
    shiftLeft_or rh.toNat _ _ (by omega), shiftLeft_or opc.toNat _ _ (by omega)]

/-- Every word is five fields. -/
theorem exists_packWord (w : PortWord) : ∃ opc rh len rl data, w = packWord opc rh len rl data := by
  refine ⟨w.extractLsb' 56 8, w.extractLsb' 54 2, w.extractLsb' 48 6, w.extractLsb' 32 16, w.extractLsb' 0 32, ?_⟩
  apply BitVec.eq_of_toNat_eq
  have := w.isLt
  rw [toNat_packWord]
  simp only [BitVec.extractLsb'_toNat, Nat.shiftRight_eq_div_pow]
  omega

/-- Each word is five fields in one way. -/
theorem packWord_inj {opc' : BitVec 8} {rh' : BitVec 2} {len' : BitVec 6} {rl' : BitVec 16} {data' : BitVec 32} :
    packWord opc rh len rl data = packWord opc' rh' len' rl' data' ↔
      opc = opc' ∧ rh = rh' ∧ len = len' ∧ rl = rl' ∧ data = data' := by
  constructor
  · intro h
    have h := congrArg BitVec.toNat h
    rw [toNat_packWord, toNat_packWord] at h
    have := rh.isLt; have := len.isLt; have := rl.isLt; have := data.isLt
    have := rh'.isLt; have := len'.isLt; have := rl'.isLt; have := data'.isLt
    simp only [← BitVec.toNat_inj]
    omega
  · rintro ⟨rfl, rfl, rfl, rfl, rfl⟩; rfl

@[simp] theorem fieldOpc_packWord : fieldOpc (packWord opc rh len rl data) = opc.toNat := by
  have h1 := rh.isLt; have h2 := len.isLt; have h3 := rl.isLt; have h4 := data.isLt; have h5 := opc.isLt
  rw [fieldOpc, toNat_packWord, Nat.shiftRight_eq_div_pow]; omega

@[simp] theorem fieldRsvHigh_packWord : fieldRsvHigh (packWord opc rh len rl data) = rh.toNat := by
  have h1 := rh.isLt; have h2 := len.isLt; have h3 := rl.isLt; have h4 := data.isLt; have h5 := opc.isLt
  rw [fieldRsvHigh, toNat_packWord, Nat.shiftRight_eq_div_pow]; omega

@[simp] theorem fieldLen_packWord : fieldLen (packWord opc rh len rl data) = len.toNat := by
  have h1 := rh.isLt; have h2 := len.isLt; have h3 := rl.isLt; have h4 := data.isLt; have h5 := opc.isLt
  rw [fieldLen, toNat_packWord, Nat.shiftRight_eq_div_pow]; omega

@[simp] theorem fieldRsvLow_packWord : fieldRsvLow (packWord opc rh len rl data) = rl.toNat := by
  have h1 := rh.isLt; have h2 := len.isLt; have h3 := rl.isLt; have h4 := data.isLt; have h5 := opc.isLt
  rw [fieldRsvLow, toNat_packWord, Nat.shiftRight_eq_div_pow]; omega

@[simp] theorem fieldData_packWord : fieldData (packWord opc rh len rl data) = data.toNat := by
  have h1 := rh.isLt; have h2 := len.isLt; have h3 := rl.isLt; have h4 := data.isLt; have h5 := opc.isLt
  rw [fieldData, toNat_packWord]; omega

/-- A mask of whole fields keeps or clears each field. -/
theorem packWord_and (mo : BitVec 8) (mh : BitVec 2) (ml : BitVec 6) (mr : BitVec 16) (md : BitVec 32) :
    packWord opc rh len rl data &&& packWord mo mh ml mr md =
      packWord (opc &&& mo) (rh &&& mh) (len &&& ml) (rl &&& mr) (data &&& md) := by
  change (opc ++ (rh ++ (len ++ (rl ++ data))) : BitVec (8 + (2 + (6 + (16 + 32))))) &&&
    (mo ++ (mh ++ (ml ++ (mr ++ md)))) = _
  rw [BitVec.and_append, BitVec.and_append, BitVec.and_append, BitVec.and_append]
  rfl

end

theorem mask_n : Format.n.mask = packWord (BitVec.allOnes 8) (BitVec.allOnes 2) (BitVec.allOnes 6) (BitVec.allOnes 16)
    (BitVec.allOnes 32) := by decide

theorem mask_d : Format.d.mask = packWord (BitVec.allOnes 8) (BitVec.allOnes 2) (BitVec.allOnes 6) (BitVec.allOnes 16)
    0#32 := by decide

theorem mask_v : Format.v.mask = packWord (BitVec.allOnes 8) (BitVec.allOnes 2) 0#6 (BitVec.allOnes 16) 0#32 := by
  decide

/-- The match of a row sets OPC and nothing else. -/
theorem matchWord_eq (opc : BitVec 8) (f : Format) :
    (⟨opc.toNat, f⟩ : OpcodeRow).matchWord = packWord opc 0#2 0#6 0#16 0#32 := by
  apply BitVec.eq_of_toNat_eq
  have := opc.isLt
  rw [toNat_packWord]
  simp only [OpcodeRow.matchWord, BitVec.toNat_ofNat, Nat.shiftLeft_eq]
  omega

/-- What a row accepts, field by field. -/
theorem accepts_packWord (o opc : BitVec 8) (f : Format) (rh : BitVec 2) (len : BitVec 6) (rl : BitVec 16)
    (data : BitVec 32) : (⟨o.toNat, f⟩ : OpcodeRow).accepts (packWord opc rh len rl data) ↔
      opc = o ∧ rh = 0#2 ∧ (f ≠ .v → len = 0#6) ∧ rl = 0#16 ∧ (f = .n → data = 0#32) := by
  rw [OpcodeRow.accepts, matchWord_eq]
  cases f
  · rw [mask_n, packWord_and, packWord_inj]
    simp only [BitVec.and_allOnes]; simp
  · rw [mask_d, packWord_and, packWord_inj]
    simp only [BitVec.and_allOnes, BitVec.and_zero]; simp
  · rw [mask_v, packWord_and, packWord_inj]
    simp only [BitVec.and_allOnes, BitVec.and_zero]; simp

/-- The opcode map and the opcode table agree on an assigned opcode, and the command has the row's operands. -/
theorem opcodeRow_some {opc len data : Nat} {f : Format} {i : Instr} (h : opcodeRow opc len data = some (f, i)) :
    i.opc = opc ∧ i.format = f ∧ (⟨opc, f⟩ : OpcodeRow) ∈ opcodeTable ∧
      i.len = (if f = .v then len else 0) ∧ i.data = (if f = .n then 0 else data) ∧
      (len < 64 → data < 2 ^ 32 → i.WellFormed) := by
  unfold opcodeRow at h
  split at h <;>
    first
    | (cases h
       simp [Instr.opc, Instr.format, Instr.len, Instr.data, Instr.WellFormed, Instr.wellFormed, lenFits, dataFits,
         opcodeTable]
       try exact fun h h' => ⟨h, h'⟩)
    | simp at h

/-- Everything decoding a word to a command says of its fields. -/
theorem decode_ok {w : PortWord} {i : Instr} (h : decode w = .ok i) :
    opcodeRow (fieldOpc w) (fieldLen w) (fieldData w) = some (i.format, i) ∧ fieldRsvHigh w = 0 ∧ fieldRsvLow w = 0 ∧
      (i.format ≠ .v → fieldLen w = 0) ∧ (i.format = .n → fieldData w = 0) := by
  unfold decode at h
  split at h
  · simp at h
  · next f j hr =>
    have hf := (opcodeRow_some hr).2.1
    split at h
    · simp at h
    split at h
    · simp at h
    split at h
    · simp at h
    cases h
    simp_all

end Sys2Proof
end

