-- ==== Sys2Proof/Laws/State.lean ====
section
/-! SUPPORT. What each update leaves in each field, and what the array reads see of an update: every lemma is true by
unfolding once, so that no later proof unfolds a record update. -/

namespace Sys2Proof.Machine

/-! ## Reset -/

section reset
variable (k : Nat) (is : List HostInput)

@[simp] theorem atReset_sbox_valid : (State.atReset k is).sbox.valid = false := rfl
@[simp] theorem atReset_sbox_logn : (State.atReset k is).sbox.logn = Config.resetSbLogn k := rfl
@[simp] theorem atReset_sbox_logm : (State.atReset k is).sbox.logm = Config.resetSbLogm k := rfl
@[simp] theorem atReset_sbox_fwd : (State.atReset k is).sbox.fwd = [] := rfl
@[simp] theorem atReset_sbox_inv : (State.atReset k is).sbox.inv = [] := rfl
@[simp] theorem atReset_pbox_valid : (State.atReset k is).pbox.valid = false := rfl
@[simp] theorem atReset_pbox_n : (State.atReset k is).pbox.n = Config.resetPbN k := rfl
@[simp] theorem atReset_pbox_fwd : (State.atReset k is).pbox.fwd = [] := rfl
@[simp] theorem atReset_pbox_inv : (State.atReset k is).pbox.inv = [] := rfl
@[simp] theorem atReset_sstg_isOpen : (State.atReset k is).sstg.isOpen = false := rfl
@[simp] theorem atReset_sstg_buf : (State.atReset k is).sstg.buf = [] := rfl
@[simp] theorem atReset_sstg_cnt : (State.atReset k is).sstg.cnt = 0 := rfl
@[simp] theorem atReset_sstg_rows : (State.atReset k is).sstg.rows = 0 := rfl
@[simp] theorem atReset_sstg_cur : (State.atReset k is).sstg.cur = 0 := rfl
@[simp] theorem atReset_sstg_m : (State.atReset k is).sstg.m = none := rfl
@[simp] theorem atReset_sstg_ragged : (State.atReset k is).sstg.ragged = false := rfl
@[simp] theorem atReset_pstg_isOpen : (State.atReset k is).pstg.isOpen = false := rfl
@[simp] theorem atReset_pstg_buf : (State.atReset k is).pstg.buf = [] := rfl
@[simp] theorem atReset_pstg_cnt : (State.atReset k is).pstg.cnt = 0 := rfl
@[simp] theorem atReset_inputs : (State.atReset k is).inputs = is := rfl
@[simp] theorem atReset_rsp : (State.atReset k is).rsp = none := rfl
@[simp] theorem atReset_resets : (State.atReset k is).resets = k := rfl

end reset

/-! ## The response and the inputs are not read by the array reads and the dimensions -/

section port
variable (s : State) (r : Option PortWord) (is : List HostInput)

@[simp] theorem sbB_rsp : ({ s with rsp := r } : State).sbB = s.sbB := rfl
@[simp] theorem sbB_inputs : ({ s with inputs := is } : State).sbB = s.sbB := rfl
@[simp] theorem pbN_rsp : ({ s with rsp := r } : State).pbN = s.pbN := rfl
@[simp] theorem pbN_inputs : ({ s with inputs := is } : State).pbN = s.pbN := rfl
@[simp] theorem sbFwdAt_rsp : ({ s with rsp := r } : State).sbFwdAt = s.sbFwdAt := rfl
@[simp] theorem sbFwdAt_inputs : ({ s with inputs := is } : State).sbFwdAt = s.sbFwdAt := rfl
@[simp] theorem sbInvAt_rsp : ({ s with rsp := r } : State).sbInvAt = s.sbInvAt := rfl
@[simp] theorem sbInvAt_inputs : ({ s with inputs := is } : State).sbInvAt = s.sbInvAt := rfl
@[simp] theorem pbFwdAt_rsp : ({ s with rsp := r } : State).pbFwdAt = s.pbFwdAt := rfl
@[simp] theorem pbFwdAt_inputs : ({ s with inputs := is } : State).pbFwdAt = s.pbFwdAt := rfl
@[simp] theorem pbInvAt_rsp : ({ s with rsp := r } : State).pbInvAt = s.pbInvAt := rfl
@[simp] theorem pbInvAt_inputs : ({ s with inputs := is } : State).pbInvAt = s.pbInvAt := rfl
@[simp] theorem sstgBufAt_rsp : ({ s with rsp := r } : State).sstgBufAt = s.sstgBufAt := rfl
@[simp] theorem sstgBufAt_inputs : ({ s with inputs := is } : State).sstgBufAt = s.sstgBufAt := rfl
@[simp] theorem pstgBufAt_rsp : ({ s with rsp := r } : State).pstgBufAt = s.pstgBufAt := rfl
@[simp] theorem pstgBufAt_inputs : ({ s with inputs := is } : State).pstgBufAt = s.pstgBufAt := rfl
@[simp] theorem sstgFirst_rsp : ({ s with rsp := r } : State).sstgFirst = s.sstgFirst := rfl
@[simp] theorem sstgFirst_inputs : ({ s with inputs := is } : State).sstgFirst = s.sstgFirst := rfl
@[simp] theorem pstgFirst_rsp : ({ s with rsp := r } : State).pstgFirst = s.pstgFirst := rfl
@[simp] theorem pstgFirst_inputs : ({ s with inputs := is } : State).pstgFirst = s.pstgFirst := rfl
@[simp] theorem status_rsp : ({ s with rsp := r } : State).status = s.status := rfl
@[simp] theorem status_inputs : ({ s with inputs := is } : State).status = s.status := rfl

end port

/-! ## A load does not touch the active instances, nor the other kind's load -/

section load
variable (s : State) (g : SboxStaging) (p : PboxStaging)

@[simp] theorem sbB_sstg : ({ s with sstg := g } : State).sbB = s.sbB := rfl
@[simp] theorem sbB_pstg : ({ s with pstg := p } : State).sbB = s.sbB := rfl
@[simp] theorem pbN_sstg : ({ s with sstg := g } : State).pbN = s.pbN := rfl
@[simp] theorem pbN_pstg : ({ s with pstg := p } : State).pbN = s.pbN := rfl
@[simp] theorem sbFwdAt_sstg : ({ s with sstg := g } : State).sbFwdAt = s.sbFwdAt := rfl
@[simp] theorem sbFwdAt_pstg : ({ s with pstg := p } : State).sbFwdAt = s.sbFwdAt := rfl
@[simp] theorem sbInvAt_sstg : ({ s with sstg := g } : State).sbInvAt = s.sbInvAt := rfl
@[simp] theorem sbInvAt_pstg : ({ s with pstg := p } : State).sbInvAt = s.sbInvAt := rfl
@[simp] theorem pbFwdAt_sstg : ({ s with sstg := g } : State).pbFwdAt = s.pbFwdAt := rfl
@[simp] theorem pbFwdAt_pstg : ({ s with pstg := p } : State).pbFwdAt = s.pbFwdAt := rfl
@[simp] theorem pbInvAt_sstg : ({ s with sstg := g } : State).pbInvAt = s.pbInvAt := rfl
@[simp] theorem pbInvAt_pstg : ({ s with pstg := p } : State).pbInvAt = s.pbInvAt := rfl
@[simp] theorem sstgBufAt_pstg : ({ s with pstg := p } : State).sstgBufAt = s.sstgBufAt := rfl
@[simp] theorem pstgBufAt_sstg : ({ s with sstg := g } : State).pstgBufAt = s.pstgBufAt := rfl

end load

/-! ## Installing an instance -/

section install
variable (ln lm n : Nat) (s : State)

@[simp] theorem sboxInstall_valid : (sboxInstall ln lm s).sbox.valid = true := rfl
@[simp] theorem sboxInstall_logn : (sboxInstall ln lm s).sbox.logn = BitVec.ofNat 6 ln := rfl
@[simp] theorem sboxInstall_logm : (sboxInstall ln lm s).sbox.logm = BitVec.ofNat 6 lm := rfl
@[simp] theorem sboxInstall_fwd :
    (sboxInstall ln lm s).sbox.fwd = Cells.install s.sbox.fwd (s.sstgFirst (2 ^ (ln + lm))) := rfl
@[simp] theorem sboxInstall_inv : (sboxInstall ln lm s).sbox.inv =
    Cells.install s.sbox.inv (inverseTableBuilder (s.sstgFirst (2 ^ (ln + lm))) ln lm) := rfl
@[simp] theorem sboxInstall_sstg : (sboxInstall ln lm s).sstg = { s.sstg with isOpen := false } := rfl
@[simp] theorem sboxInstall_pbox : (sboxInstall ln lm s).pbox = s.pbox := rfl
@[simp] theorem sboxInstall_pstg : (sboxInstall ln lm s).pstg = s.pstg := rfl
@[simp] theorem sboxInstall_inputs : (sboxInstall ln lm s).inputs = s.inputs := rfl
@[simp] theorem sboxInstall_rsp : (sboxInstall ln lm s).rsp = s.rsp := rfl
@[simp] theorem sboxInstall_resets : (sboxInstall ln lm s).resets = s.resets := rfl

@[simp] theorem pboxInstall_valid : (pboxInstall n s).pbox.valid = true := rfl
@[simp] theorem pboxInstall_n : (pboxInstall n s).pbox.n = BitVec.ofNat 6 n := rfl
@[simp] theorem pboxInstall_fwd : (pboxInstall n s).pbox.fwd =
    Cells.install s.pbox.fwd ((s.pstgFirst n).map (fun v => v.setWidth 6)) := rfl
@[simp] theorem pboxInstall_inv : (pboxInstall n s).pbox.inv =
    Cells.install s.pbox.inv (inversePermutationBuilder (s.pstgFirst n) n) := rfl
@[simp] theorem pboxInstall_pstg : (pboxInstall n s).pstg = { s.pstg with isOpen := false } := rfl
@[simp] theorem pboxInstall_sbox : (pboxInstall n s).sbox = s.sbox := rfl
@[simp] theorem pboxInstall_sstg : (pboxInstall n s).sstg = s.sstg := rfl
@[simp] theorem pboxInstall_inputs : (pboxInstall n s).inputs = s.inputs := rfl
@[simp] theorem pboxInstall_rsp : (pboxInstall n s).rsp = s.rsp := rfl
@[simp] theorem pboxInstall_resets : (pboxInstall n s).resets = s.resets := rfl

end install

/-! ## The next command -/

@[simp] theorem withFetchWord_inputs (s : State) (nbits w : Nat) :
    (s.withFetchWord nbits w).inputs = .command (BitVec.ofNat 64 (w % 2 ^ nbits)) :: s.inputs := rfl
theorem withFetchWord_taken (s : State) (nbits w : Nat) :
    { s.withFetchWord nbits w with inputs := s.inputs } = s := rfl

end Sys2Proof.Machine
end

