-- ==== Sys2Proof/Laws/Ops.lean ====
section
/-! SUPPORT. What each shared operation can do: the capacity test, the saturating counters, closing a row, responding,
raising, reset, and the step around exec. -/

namespace Sys2Proof.Machine

/-! ## The open parameter (R6) -/

theorem sboxBMax_ge : 8 ≤ Config.sboxBMax := by simp [Config.sboxBMax]

theorem sboxBMax_le : Config.sboxBMax ≤ 32 := by
  have := Config.sboxBMaxOver8.isLt
  simp only [Config.sboxBMax]; omega

theorem cap_ge : 256 ≤ Config.cap := by
  have := Nat.pow_le_pow_right (n := 2) (by norm_num) sboxBMax_ge
  simpa [Config.cap] using this

theorem cap_le : Config.cap ≤ 2 ^ 32 := Nat.pow_le_pow_right (by norm_num) sboxBMax_le

/-! ## Capacity and saturation -/

/-- The capacity test is n ≤ CAP. -/
theorem fitsCap_iff (n : Nat) : fitsCap n = true ↔ n ≤ Config.cap := by
  have := cap_ge
  simp only [fitsCap, Bool.or_eq_true, decide_eq_true_eq]; omega

theorem fitsCap_false_iff (n : Nat) : fitsCap n = false ↔ Config.cap < n := by
  rw [← Bool.not_eq_true, fitsCap_iff]; omega

/-- A saturating counter, below its bound. -/
theorem sat_succ (x : Nat) (h : x ≤ Config.cap + 1) : sat (x + 1) = min (x + 1) (Config.cap + 1) := by
  unfold sat
  split
  · next hf => rw [fitsCap_iff] at hf; omega
  · next hf => rw [fitsCap_iff] at hf; omega

/-- `sat(x) = min(x, CAP + 1)`. -/
theorem sat_eq_min (x : Nat) : sat x = min x (Config.cap + 1) := by
  unfold sat
  split
  · next hf => rw [fitsCap_iff] at hf; omega
  · next hf => rw [fitsCap_iff] at hf; omega

/-! ## Closing a row -/

@[simp] theorem closeRow_isOpen (g : SboxStaging) : (closeRow g).isOpen = g.isOpen := by
  unfold closeRow; split <;> rfl
@[simp] theorem closeRow_buf (g : SboxStaging) : (closeRow g).buf = g.buf := by unfold closeRow; split <;> rfl
@[simp] theorem closeRow_cnt (g : SboxStaging) : (closeRow g).cnt = g.cnt := by unfold closeRow; split <;> rfl
@[simp] theorem closeRow_cur (g : SboxStaging) : (closeRow g).cur = 0 := by unfold closeRow; split <;> rfl
@[simp] theorem closeRow_rows (g : SboxStaging) : (closeRow g).rows = min (g.rows + 1) (Config.cap + 1) := by
  unfold closeRow; split <;> simp [sat_eq_min]

/-- The first closed row fixes m (R122). -/
@[simp] theorem closeRow_m (g : SboxStaging) : (closeRow g).m = some (g.m.getD g.cur) := by
  unfold closeRow; split <;> simp_all

/-- A later row of another length makes the table ragged (R122). -/
@[simp] theorem closeRow_ragged (g : SboxStaging) :
    (closeRow g).ragged = (g.ragged || decide (g.m.getD g.cur ≠ g.cur)) := by
  unfold closeRow
  split
  · next h => simp [h]
  · next m h => simp [h, eq_comm]

/-! ## Responding and raising: everything they can do -/

theorem respond_next {rlen rdata : Nat} {s t : State} (h : respond rlen rdata s = .next t) :
    t = { s with rsp := some (respondWord stOk (BitVec.ofNat 6 rlen) (BitVec.ofNat 32 rdata)) } := by
  simpa [respond] using h.symm

theorem raise_next {e : Error} {s t : State} (h : raise e s = .next t) : t = { s with rsp := some (raiseWord e) } := by
  simpa [raise] using h.symm

/-- An OK response, its two fields in range. -/
theorem respond_eq (rlen rdata : Nat) (s : State) (h : rlen < 2 ^ 6) (h' : rdata < 2 ^ 32) :
    respond rlen rdata s = .next { s with rsp := some (BitVec.ofNat 64 (rlen * 2 ^ 48 + rdata)) } := by
  rw [respond, respondWord_ok rlen rdata h h']

/-! ## One step -/

/-- Everything a step can do. -/
theorem step_cases (s : State) :
    (s.inputs = [] ∧ step s = .next s) ∨
    (∃ w rest i, s.inputs = .command w :: rest ∧ decode w = .ok i ∧ step s = exec i { s with inputs := rest }) ∨
    (∃ w rest e, s.inputs = .command w :: rest ∧ decode w = .error e ∧
      step s = .next { s with inputs := rest, rsp := some (raiseWord .illegalCommand) }) ∨
    (∃ rest, (s.inputs = .reset :: rest ∨ ∃ w, s.inputs = .resetDuring w :: rest) ∧
      step s = .next (State.atReset (s.resets + 1) rest)) := by
  match h : s.inputs with
  | [] => exact .inl ⟨rfl, by simp [step, h, wait]⟩
  | .command w :: rest =>
    match hd : decode w with
    | .ok i => exact .inr (.inl ⟨w, rest, i, rfl, hd, by simp [step, h, hd]⟩)
    | .error e => exact .inr (.inr (.inl ⟨w, rest, e, rfl, hd, by simp [step, h, hd, raise]⟩))
  | .reset :: rest => exact .inr (.inr (.inr ⟨rest, .inl rfl, by simp [step, h, takeReset]⟩))
  | .resetDuring w :: rest =>
    exact .inr (.inr (.inr ⟨rest, .inr ⟨w, rfl⟩, by simp [step, h, abandonAndReset, takeReset]⟩))

end Sys2Proof.Machine
end

