-- ==== Sys2Proof/Laws/Exec.lean ====
section
/-! SUPPORT. What each meaning can do, said once: the commands that read, the commands that load, the two builds, and every
outcome of exec. -/

namespace Sys2Proof.Machine

/-! ## Transforms and readbacks, case by case -/

section transforms
variable (table : Nat → Entry) (perm : Nat → Position) (len data : Nat) (s : State)

theorem sboxXform_notConfigured (h : s.sbox.valid = false) : sboxXform table len data s = raise .notConfigured s := by
  simp [sboxXform, h]

theorem sboxXform_length (h : s.sbox.valid = true) (hl : len ≠ s.sbB) :
    sboxXform table len data s = raise .invalidInputLength s := by
  simp [sboxXform, h, hl]

theorem sboxXform_ok (h : s.sbox.valid = true) (hl : len = s.sbB) : sboxXform table len data s =
    respond s.sbB (bitsToNum (numToBits (table (linearAddr s.sbox.logm.toNat
      (splitOuter s.sbox.logn.toNat (vectorOperand len data))
      (splitMiddle s.sbox.logn.toNat (vectorOperand len data)))).toNat s.sbB)) s := by
  simp [sboxXform, h, hl]

theorem pboxXform_notConfigured (h : s.pbox.valid = false) : pboxXform perm len data s = raise .notConfigured s := by
  simp [pboxXform, h]

theorem pboxXform_length (h : s.pbox.valid = true) (hl : len ≠ s.pbN) :
    pboxXform perm len data s = raise .invalidInputLength s := by
  simp [pboxXform, h, hl]

theorem pboxXform_ok (h : s.pbox.valid = true) (hl : len = s.pbN) : pboxXform perm len data s =
    respond s.pbN (bitsToNum (permuteBits perm s.pbN (vectorOperand len data))) s := by
  simp [pboxXform, h, hl]

theorem sboxReadback_notConfigured (h : s.sbox.valid = false) : sboxReadback table data s = raise .notConfigured s := by
  simp [sboxReadback, h]

theorem sboxReadback_range (h : s.sbox.valid = true) (hd : 2 ^ s.sbB ≤ data) :
    sboxReadback table data s = raise .indexRange s := by
  simp [sboxReadback, h, hd]

theorem sboxReadback_ok (h : s.sbox.valid = true) (hd : data < 2 ^ s.sbB) :
    sboxReadback table data s = respond 0 (table data).toNat s := by
  simp [sboxReadback, h, Nat.not_le.mpr hd]

theorem pboxReadback_notConfigured (h : s.pbox.valid = false) : pboxReadback perm data s = raise .notConfigured s := by
  simp [pboxReadback, h]

theorem pboxReadback_range (h : s.pbox.valid = true) (hd : s.pbN ≤ data) :
    pboxReadback perm data s = raise .indexRange s := by
  simp [pboxReadback, h, hd]

theorem pboxReadback_ok (h : s.pbox.valid = true) (hd : data < s.pbN) :
    pboxReadback perm data s = respond 0 (perm data).toNat s := by
  simp [pboxReadback, h, Nat.not_le.mpr hd]

/-- Everything an SBox transform can do. -/
theorem sboxXform_outcome : (sboxXform table len data s = raise .notConfigured s ∧ s.sbox.valid = false) ∨
    (sboxXform table len data s = raise .invalidInputLength s ∧ s.sbox.valid = true ∧ len ≠ s.sbB) ∨
    ∃ rdata, sboxXform table len data s = respond s.sbB rdata s := by
  cases hv : s.sbox.valid with
  | false => exact .inl ⟨sboxXform_notConfigured table len data s hv, rfl⟩
  | true =>
    by_cases hl : len = s.sbB
    · exact .inr (.inr ⟨_, sboxXform_ok table len data s hv hl⟩)
    · exact .inr (.inl ⟨sboxXform_length table len data s hv hl, rfl, hl⟩)

/-- Everything a PBox transform can do. -/
theorem pboxXform_outcome : (pboxXform perm len data s = raise .notConfigured s ∧ s.pbox.valid = false) ∨
    (pboxXform perm len data s = raise .invalidInputLength s ∧ s.pbox.valid = true ∧ len ≠ s.pbN) ∨
    ∃ rdata, pboxXform perm len data s = respond s.pbN rdata s := by
  cases hv : s.pbox.valid with
  | false => exact .inl ⟨pboxXform_notConfigured perm len data s hv, rfl⟩
  | true =>
    by_cases hl : len = s.pbN
    · exact .inr (.inr ⟨_, pboxXform_ok perm len data s hv hl⟩)
    · exact .inr (.inl ⟨pboxXform_length perm len data s hv hl, rfl, hl⟩)

/-- Everything an SBox readback can do. -/
theorem sboxReadback_outcome : (sboxReadback table data s = raise .notConfigured s ∧ s.sbox.valid = false) ∨
    (sboxReadback table data s = raise .indexRange s ∧ s.sbox.valid = true ∧ 2 ^ s.sbB ≤ data) ∨
    sboxReadback table data s = respond 0 (table data).toNat s := by
  cases hv : s.sbox.valid with
  | false => exact .inl ⟨sboxReadback_notConfigured table data s hv, rfl⟩
  | true =>
    rcases Nat.lt_or_ge data (2 ^ s.sbB) with hd | hd
    · exact .inr (.inr (sboxReadback_ok table data s hv hd))
    · exact .inr (.inl ⟨sboxReadback_range table data s hv hd, rfl, hd⟩)

/-- Everything a PBox readback can do. -/
theorem pboxReadback_outcome : (pboxReadback perm data s = raise .notConfigured s ∧ s.pbox.valid = false) ∨
    (pboxReadback perm data s = raise .indexRange s ∧ s.pbox.valid = true ∧ s.pbN ≤ data) ∨
    pboxReadback perm data s = respond 0 (perm data).toNat s := by
  cases hv : s.pbox.valid with
  | false => exact .inl ⟨pboxReadback_notConfigured perm data s hv, rfl⟩
  | true =>
    rcases Nat.lt_or_ge data s.pbN with hd | hd
    · exact .inr (.inr (pboxReadback_ok perm data s hv hd))
    · exact .inr (.inl ⟨pboxReadback_range perm data s hv hd, rfl, hd⟩)

end transforms

/-! ## Loads and builds, case by case -/

section loads
variable (data : Nat) (s : State)

theorem execSboxPush_closed (h : s.sstg.isOpen = false) : execSboxPush data s = raise .sequenceError s := by
  simp [execSboxPush, h]

theorem execSboxPush_open (h : s.sstg.isOpen = true) :
    execSboxPush data s = respond 0 0 { s with sstg := sboxAppend (pushOperand data) s } := by
  simp [execSboxPush, h]

theorem execSboxEndrow_closed (h : s.sstg.isOpen = false) : execSboxEndrow s = raise .sequenceError s := by
  simp [execSboxEndrow, h]

theorem execSboxEndrow_open (h : s.sstg.isOpen = true) :
    execSboxEndrow s = respond 0 0 { s with sstg := closeRow s.sstg } := by
  simp [execSboxEndrow, h]

theorem execSboxBuild_closed (h : s.sstg.isOpen = false) : execSboxBuild s = raise .sequenceError s := by
  simp [execSboxBuild, h]

theorem execSboxBuild_refused (h : s.sstg.isOpen = true) {c : TableCause}
    (hv : sboxVerdict (sboxClosed s.sstg) (s.sstgFirst s.sstg.cnt) = .error c) :
    execSboxBuild s = raise (.invalidTable c) s := by
  simp [execSboxBuild, h, hv]

theorem execSboxBuild_installs (h : s.sstg.isOpen = true) {ln lm : Nat}
    (hv : sboxVerdict (sboxClosed s.sstg) (s.sstgFirst s.sstg.cnt) = .ok (ln, lm)) :
    execSboxBuild s = respond (ln + lm) 0 (sboxInstall ln lm s) := by
  simp [execSboxBuild, h, hv]

theorem execPboxPush_closed (h : s.pstg.isOpen = false) : execPboxPush data s = raise .sequenceError s := by
  simp [execPboxPush, h]

theorem execPboxPush_open (h : s.pstg.isOpen = true) :
    execPboxPush data s = respond 0 0 { s with pstg := pboxAppend (pushOperand data) s } := by
  simp [execPboxPush, h]

theorem execPboxBuild_closed (h : s.pstg.isOpen = false) : execPboxBuild s = raise .sequenceError s := by
  simp [execPboxBuild, h]

theorem execPboxBuild_refused (h : s.pstg.isOpen = true) {c : PermCause}
    (hv : pboxVerdict s.pstg.cnt (s.pstgFirst s.pstg.cnt) = some c) :
    execPboxBuild s = raise (.invalidPermutation c) s := by
  simp [execPboxBuild, h, hv]

theorem execPboxBuild_installs (h : s.pstg.isOpen = true)
    (hv : pboxVerdict s.pstg.cnt (s.pstgFirst s.pstg.cnt) = none) :
    execPboxBuild s = respond s.pstg.cnt 0 (pboxInstall s.pstg.cnt s) := by
  simp [execPboxBuild, h, hv]

end loads

/-! ## Everything exec can do -/

/-- A command that reads answers with an error or a value, and writes nothing. -/
theorem exec_read_outcome (i : Instr) (s : State) (h : i.isRead = true) :
    (∃ e, exec i s = raise e s) ∨ ∃ rlen rdata, exec i s = respond rlen rdata s := by
  cases i with
  | nop => exact .inr ⟨_, _, rfl⟩
  | getStatus => exact .inr ⟨_, _, rfl⟩
  | sboxFwd len data =>
    rcases sboxXform_outcome s.sbFwdAt len data s with ⟨h, -⟩ | ⟨h, -⟩ | ⟨r, h⟩
    exacts [.inl ⟨_, h⟩, .inl ⟨_, h⟩, .inr ⟨_, _, h⟩]
  | sboxInv len data =>
    rcases sboxXform_outcome s.sbInvAt len data s with ⟨h, -⟩ | ⟨h, -⟩ | ⟨r, h⟩
    exacts [.inl ⟨_, h⟩, .inl ⟨_, h⟩, .inr ⟨_, _, h⟩]
  | sboxRdf data =>
    rcases sboxReadback_outcome s.sbFwdAt data s with ⟨h, -⟩ | ⟨h, -⟩ | h
    exacts [.inl ⟨_, h⟩, .inl ⟨_, h⟩, .inr ⟨_, _, h⟩]
  | sboxRdi data =>
    rcases sboxReadback_outcome s.sbInvAt data s with ⟨h, -⟩ | ⟨h, -⟩ | h
    exacts [.inl ⟨_, h⟩, .inl ⟨_, h⟩, .inr ⟨_, _, h⟩]
  | pboxFwd len data =>
    rcases pboxXform_outcome s.pbFwdAt len data s with ⟨h, -⟩ | ⟨h, -⟩ | ⟨r, h⟩
    exacts [.inl ⟨_, h⟩, .inl ⟨_, h⟩, .inr ⟨_, _, h⟩]
  | pboxInv len data =>
    rcases pboxXform_outcome s.pbInvAt len data s with ⟨h, -⟩ | ⟨h, -⟩ | ⟨r, h⟩
    exacts [.inl ⟨_, h⟩, .inl ⟨_, h⟩, .inr ⟨_, _, h⟩]
  | pboxRdf data =>
    rcases pboxReadback_outcome s.pbFwdAt data s with ⟨h, -⟩ | ⟨h, -⟩ | h
    exacts [.inl ⟨_, h⟩, .inl ⟨_, h⟩, .inr ⟨_, _, h⟩]
  | pboxRdi data =>
    rcases pboxReadback_outcome s.pbInvAt data s with ⟨h, -⟩ | ⟨h, -⟩ | h
    exacts [.inl ⟨_, h⟩, .inl ⟨_, h⟩, .inr ⟨_, _, h⟩]
  | sboxBegin => simp [Instr.isRead] at h
  | sboxPush data => simp [Instr.isRead] at h
  | sboxEndrow => simp [Instr.isRead] at h
  | sboxBuild => simp [Instr.isRead] at h
  | pboxBegin => simp [Instr.isRead] at h
  | pboxPush data => simp [Instr.isRead] at h
  | pboxBuild => simp [Instr.isRead] at h

/-- Every outcome of a command: an error that writes nothing, a read, or one of the seven writes. -/
theorem exec_outcome (i : Instr) (s : State) :
    (∃ e, exec i s = raise e s) ∨
    (i.isRead = true ∧ ∃ rlen rdata, exec i s = respond rlen rdata s) ∨
    (i = .sboxBegin ∧ exec i s = respond 0 0
      { s with sstg := { s.sstg with isOpen := true, cnt := 0, rows := 0, cur := 0, m := none, ragged := false } }) ∨
    (∃ data, i = .sboxPush data ∧ s.sstg.isOpen = true ∧
      exec i s = respond 0 0 { s with sstg := sboxAppend (pushOperand data) s }) ∨
    (i = .sboxEndrow ∧ s.sstg.isOpen = true ∧ exec i s = respond 0 0 { s with sstg := closeRow s.sstg }) ∨
    (∃ ln lm, i = .sboxBuild ∧ s.sstg.isOpen = true ∧
      sboxVerdict (sboxClosed s.sstg) (s.sstgFirst s.sstg.cnt) = .ok (ln, lm) ∧
      exec i s = respond (ln + lm) 0 (sboxInstall ln lm s)) ∨
    (i = .pboxBegin ∧ exec i s = respond 0 0 { s with pstg := { s.pstg with isOpen := true, cnt := 0 } }) ∨
    (∃ data, i = .pboxPush data ∧ s.pstg.isOpen = true ∧
      exec i s = respond 0 0 { s with pstg := pboxAppend (pushOperand data) s }) ∨
    (i = .pboxBuild ∧ s.pstg.isOpen = true ∧ pboxVerdict s.pstg.cnt (s.pstgFirst s.pstg.cnt) = none ∧
      exec i s = respond s.pstg.cnt 0 (pboxInstall s.pstg.cnt s)) := by
  by_cases hr : i.isRead = true
  · rcases exec_read_outcome i s hr with h | h
    exacts [.inl h, .inr (.inl ⟨hr, h⟩)]
  cases i with
  | sboxBegin => exact .inr (.inr (.inl ⟨rfl, rfl⟩))
  | sboxPush data =>
    cases ho : s.sstg.isOpen with
    | false => exact .inl ⟨_, execSboxPush_closed data s ho⟩
    | true => exact .inr (.inr (.inr (.inl ⟨data, rfl, rfl, execSboxPush_open data s ho⟩)))
  | sboxEndrow =>
    cases ho : s.sstg.isOpen with
    | false => exact .inl ⟨_, execSboxEndrow_closed s ho⟩
    | true => exact .inr (.inr (.inr (.inr (.inl ⟨rfl, rfl, execSboxEndrow_open s ho⟩))))
  | sboxBuild =>
    cases ho : s.sstg.isOpen with
    | false => exact .inl ⟨_, execSboxBuild_closed s ho⟩
    | true =>
      match hv : sboxVerdict (sboxClosed s.sstg) (s.sstgFirst s.sstg.cnt) with
      | .error c => exact .inl ⟨_, execSboxBuild_refused s ho hv⟩
      | .ok (ln, lm) =>
        exact .inr (.inr (.inr (.inr (.inr (.inl ⟨ln, lm, rfl, rfl, rfl, execSboxBuild_installs s ho hv⟩)))))
  | pboxBegin => exact .inr (.inr (.inr (.inr (.inr (.inr (.inl ⟨rfl, rfl⟩))))))
  | pboxPush data =>
    cases ho : s.pstg.isOpen with
    | false => exact .inl ⟨_, execPboxPush_closed data s ho⟩
    | true =>
      exact .inr (.inr (.inr (.inr (.inr (.inr (.inr (.inl ⟨data, rfl, rfl, execPboxPush_open data s ho⟩)))))))
  | pboxBuild =>
    cases ho : s.pstg.isOpen with
    | false => exact .inl ⟨_, execPboxBuild_closed s ho⟩
    | true =>
      match hv : pboxVerdict s.pstg.cnt (s.pstgFirst s.pstg.cnt) with
      | some c => exact .inl ⟨_, execPboxBuild_refused s ho hv⟩
      | none =>
        exact .inr (.inr (.inr (.inr (.inr (.inr (.inr (.inr ⟨rfl, rfl, rfl, execPboxBuild_installs s ho hv⟩)))))))
  | nop => simp [Instr.isRead] at hr
  | getStatus => simp [Instr.isRead] at hr
  | sboxFwd len data => simp [Instr.isRead] at hr
  | sboxInv len data => simp [Instr.isRead] at hr
  | sboxRdf data => simp [Instr.isRead] at hr
  | sboxRdi data => simp [Instr.isRead] at hr
  | pboxFwd len data => simp [Instr.isRead] at hr
  | pboxInv len data => simp [Instr.isRead] at hr
  | pboxRdf data => simp [Instr.isRead] at hr
  | pboxRdi data => simp [Instr.isRead] at hr

end Sys2Proof.Machine
end

