-- ==== Sys2Proof/Laws/Flags.lean ====
section
/-! SUPPORT. STATUS, bit by bit (spec/10_state.md R37). -/

namespace Sys2Proof.Machine

theorem statusBit_getLsbD (b : Bool) (k i : Nat) :
    (statusBit b k).getLsbD i = (decide (i < 32) && decide (i = k) && b) := by
  simp only [statusBit, BitVec.getLsbD_shiftLeft, BitVec.getLsbD_setWidth, BitVec.getLsbD_ofBool]
  by_cases h : i < 32 <;> by_cases h2 : i = k <;> simp [h, h2]
  omega

/-- A dimension shifted to position k. -/
theorem dim_shift_getLsbD (d : Dim) (k i : Nat) :
    (d.setWidth 32 <<< k).getLsbD i = (decide (i < 32) && decide (k ≤ i) && d.getLsbD (i - k)) := by
  simp only [BitVec.getLsbD_shiftLeft, BitVec.getLsbD_setWidth]
  by_cases h : i < 32 <;> by_cases h2 : i < k <;> simp [h, h2, Nat.not_le.mpr, Nat.not_lt.mp]
  intro _
  omega

theorem statusSboxDims_getLsbD (s : State) (i : Nat) : (statusSboxDims s).getLsbD i =
    (s.sbox.valid && ((decide (i < 32) && decide (8 ≤ i) && s.sbox.logn.getLsbD (i - 8)) ||
      (decide (i < 32) && decide (16 ≤ i) && s.sbox.logm.getLsbD (i - 16)))) := by
  unfold statusSboxDims
  split
  · next h => rw [h, BitVec.getLsbD_or, dim_shift_getLsbD, dim_shift_getLsbD, Bool.true_and]
  · next h => simp [h]

theorem statusPboxDim_getLsbD (s : State) (i : Nat) : (statusPboxDim s).getLsbD i =
    (s.pbox.valid && (decide (i < 32) && decide (24 ≤ i) && s.pbox.n.getLsbD (i - 24))) := by
  unfold statusPboxDim
  split
  · next h => rw [h, dim_shift_getLsbD, Bool.true_and]
  · next h => simp [h]

end Sys2Proof.Machine
end

