-- ==== Sys2Proof/Laws/Pbox.lean ====
section
/-! SUPPORT. What PBOX_BUILD's parts can do: the bijection check as a scan, and the shapes of the derived arrays
(spec/42_pbox.md R162 to R169). -/

namespace Sys2Proof.Machine

/-! ## The staged values -/

@[simp] theorem length_pstgFirst (s : State) (n : Nat) : (s.pstgFirst n).length = n := by simp [State.pstgFirst]

theorem pstgFirst_eq_map (s : State) (n : Nat) : s.pstgFirst n = (List.range n).map s.pstgBufAt :=
  Cells.first_eq_map _ _ _

/-! ## The bijection check (R164) -/

/-- The mask of positions after some values that pass the check. -/
def usedAfter (values : List Entry) (used : BitVec 32) : BitVec 32 :=
  values.foldl (fun used v => used ||| 1#32 <<< (v.toNat - 1)) used

/-- Every value so far was in range and new. -/
def PermPasses (n : Nat) : List Entry → BitVec 32 → Prop
  | [], _ => True
  | v :: vs, used =>
    (1 ≤ v.toNat ∧ v.toNat ≤ n ∧ used.getLsbD (v.toNat - 1) = false) ∧
      PermPasses n vs (used ||| 1#32 <<< (v.toNat - 1))

/-- Values that pass leave the check to the rest, under their mask. -/
theorem permFault_append (n : Nat) (vs rest : List Entry) (used : BitVec 32) (h : PermPasses n vs used) :
    permFault n (vs ++ rest) used = permFault n rest (usedAfter vs used) := by
  induction vs generalizing used with
  | nil => rfl
  | cons v vs ih =>
    obtain ⟨⟨h1, h2, h3⟩, h4⟩ := h
    rw [List.cons_append, permFault, if_neg (by omega), if_neg (by simp [h3]), ih _ h4]
    rfl

/-- The check finds nothing exactly when every value passes. -/
theorem permFault_none_iff (n : Nat) (vs : List Entry) (used : BitVec 32) :
    permFault n vs used = none ↔ PermPasses n vs used := by
  induction vs generalizing used with
  | nil => simp [permFault, PermPasses]
  | cons v vs ih =>
    rw [permFault, PermPasses, ← ih]
    by_cases hr : v.toNat = 0 ∨ v.toNat > n
    · rw [if_pos hr]
      simp only [reduceCtorEq, false_iff]
      rintro ⟨⟨h1, h2, -⟩, -⟩
      omega
    · rw [if_neg hr]
      by_cases hu : used.getLsbD (v.toNat - 1) = true
      · simp [hu]
      · rw [if_neg hu]
        simp only [Bool.not_eq_true] at hu
        simp only [hu, and_true]
        constructor
        · intro h; exact ⟨⟨by omega, by omega⟩, h⟩
        · exact fun h => h.2

/-- A position is used after some values exactly when it was, or when one of them claims it. -/
theorem usedAfter_getLsbD (vs : List Entry) (used : BitVec 32) (k : Nat) (hk : k < 32) :
    (usedAfter vs used).getLsbD k = true ↔ used.getLsbD k = true ∨ ∃ v ∈ vs, v.toNat - 1 = k := by
  induction vs generalizing used with
  | nil => simp [usedAfter]
  | cons v vs ih =>
    rw [usedAfter, List.foldl_cons, ← usedAfter, ih]
    have : (1#32 <<< (v.toNat - 1)).getLsbD k = true ↔ v.toNat - 1 = k := by
      simp only [BitVec.getLsbD_shiftLeft, BitVec.getLsbD_one, hk]
      by_cases h : k < v.toNat - 1 <;> simp [h] <;> omega
    rw [BitVec.getLsbD_or, Bool.or_eq_true, this]
    simp [or_assoc]

/-- The values pass exactly when they are in range, claim no used position and do not repeat. -/
theorem permPasses_iff (n : Nat) (hn : n ≤ 32) (vs : List Entry) (used : BitVec 32) : PermPasses n vs used ↔
    (∀ v ∈ vs, 1 ≤ v.toNat ∧ v.toNat ≤ n ∧ used.getLsbD (v.toNat - 1) = false) ∧ (vs.map BitVec.toNat).Nodup := by
  induction vs generalizing used with
  | nil => simp [PermPasses]
  | cons v vs ih =>
    rw [PermPasses, ih]
    have hs : ∀ u ∈ vs, 1 ≤ u.toNat → u.toNat ≤ n → 1 ≤ v.toNat →
        ((used ||| 1#32 <<< (v.toNat - 1)).getLsbD (u.toNat - 1) = false ↔
          used.getLsbD (u.toNat - 1) = false ∧ u.toNat ≠ v.toNat) := by
      intro u _ h1 h2 h3
      have := usedAfter_getLsbD [v] used (u.toNat - 1) (by omega)
      simp only [usedAfter, List.foldl_cons, List.foldl_nil, List.mem_singleton, exists_eq_left] at this
      rw [← Bool.not_eq_true, this, ← Bool.not_eq_true]
      constructor
      · intro h; exact ⟨fun h' => h (.inl h'), fun h' => h (.inr (by omega))⟩
      · rintro ⟨h4, h5⟩ (h6 | h6)
        · exact h4 h6
        · omega
    simp only [List.map_cons, List.nodup_cons, List.mem_map, not_exists, not_and, List.forall_mem_cons]
    constructor
    · rintro ⟨⟨h1, h2, h3⟩, h4, h5⟩
      refine ⟨⟨⟨h1, h2, h3⟩, fun u hu => ?_⟩, fun u hu => ?_, h5⟩
      · obtain ⟨a, b, c⟩ := h4 u hu
        exact ⟨a, b, ((hs u hu a b h1).1 c).1⟩
      · obtain ⟨a, b, c⟩ := h4 u hu
        exact ((hs u hu a b h1).1 c).2
    · rintro ⟨⟨⟨h1, h2, h3⟩, h4⟩, h5, h6⟩
      refine ⟨⟨h1, h2, h3⟩, fun u hu => ?_, h6⟩
      obtain ⟨a, b, c⟩ := h4 u hu
      exact ⟨a, b, (hs u hu a b h1).2 ⟨c, h5 u hu⟩⟩

/-- Values in `1 .. n` that do not repeat are a bijection onto `{1, …, n}`. -/
theorem bijOn_Icc_iff (f : Nat → Nat) (n : Nat) : Set.BijOn f (Set.Iio n) (Set.Icc 1 n) ↔
    (∀ i < n, 1 ≤ f i ∧ f i ≤ n) ∧ ∀ i < n, ∀ j < n, f i = f j → i = j := by
  constructor
  · rintro ⟨a, b, -⟩
    exact ⟨fun i hi => a hi, fun i hi j hj h => b hi hj h⟩
  · rintro ⟨a, b⟩
    have hinj : Set.InjOn f (Set.Iio n) := fun i hi j hj h => b i hi j hj h
    refine ⟨fun i hi => a i hi, hinj, ?_⟩
    have := Finset.surjOn_of_injOn_of_card_le (s := Finset.range n) (t := Finset.Icc 1 n) f
      (by intro i hi; simpa using a i (by simpa using hi)) (by simpa using hinj) (by simp)
    simpa using this

/-! ## Scatters (R167, R169) -/

/-- A scatter keeps the length. -/
@[simp] theorem length_foldl_set {α : Type} (f : Nat → Nat) (g : Nat → α) (is : List Nat) (q : List α) :
    (is.foldl (fun q i => q.set (f i) (g i)) q).length = q.length := by
  induction is generalizing q with
  | nil => rfl
  | cons i is ih => rw [List.foldl_cons, ih, List.length_set]

/-- A scatter to different places: each place written holds what was written there. -/
theorem getElem?_foldl_set {α : Type} (f : Nat → Nat) (g : Nat → α) (is : List Nat) (q : List α)
    (hinj : (is.map f).Nodup) (i : Nat) (hi : i ∈ is) (hf : f i < q.length) :
    (is.foldl (fun q i => q.set (f i) (g i)) q)[f i]? = some (g i) := by
  have keep : ∀ (is : List Nat) (q : List α) (k : Nat), k ∉ is.map f →
      (is.foldl (fun q i => q.set (f i) (g i)) q)[k]? = q[k]? := by
    intro is
    induction is with
    | nil => intros; rfl
    | cons j is ih =>
      intro q k hk
      simp only [List.map_cons, List.mem_cons, not_or] at hk
      rw [List.foldl_cons, ih _ _ hk.2, List.getElem?_set_ne (Ne.symm hk.1)]
  induction is generalizing q with
  | nil => simp at hi
  | cons j is ih =>
    simp only [List.map_cons, List.nodup_cons] at hinj
    rw [List.foldl_cons]
    rcases List.mem_cons.1 hi with rfl | hi
    · rw [keep _ _ _ hinj.1, List.getElem?_set_self hf]
    · exact ih _ hinj.2 hi (by simpa using hf)

@[simp] theorem length_inversePermutationBuilder (p : List Entry) (n : Nat) :
    (inversePermutationBuilder p n).length = n := by simp [inversePermutationBuilder]

@[simp] theorem length_permuteBits (perm : Nat → Position) (n : Nat) (v : Bits) : (permuteBits perm n v).length = n := by
  simp [permuteBits]

end Sys2Proof.Machine
end

