-- ==== Sys2Proof/Laws/Words.lean ====
section
/-! SUPPORT. The words that carry an operand, as five fields, and what the decoder reads from them (spec/30_encoding.md
R73, R74, R78). -/

namespace Sys2Proof.Machine

theorem wordD_eq_packWord {opc data : Nat} (hd : data < 2 ^ 32) :
    wordD opc data = packWord (BitVec.ofNat 8 opc) 0#2 0#6 0#16 (BitVec.ofNat 32 data) := by
  apply BitVec.eq_of_toNat_eq
  rw [toNat_packWord]
  simp only [wordD, BitVec.toNat_ofNat]
  omega

theorem wordV_eq_packWord {opc len data : Nat} (hl : len < 64) (hd : data < 2 ^ 32) :
    wordV opc len data = packWord (BitVec.ofNat 8 opc) 0#2 (BitVec.ofNat 6 len) 0#16 (BitVec.ofNat 32 data) := by
  apply BitVec.eq_of_toNat_eq
  rw [toNat_packWord]
  simp only [wordV, BitVec.toNat_ofNat]
  omega

/-- A word of an assigned opcode of format D decodes to its command. -/
theorem decode_wordD {opc : Nat} {mk : Nat → Instr} (ho : opc < 256)
    (hr : ∀ len data, opcodeRow opc len data = some (.d, mk data)) {data : Nat} (hd : data < 2 ^ 32) :
    decode (wordD opc data) = .ok (mk data) := by
  rw [wordD_eq_packWord hd]
  simp only [decode, fieldOpc_packWord, fieldRsvHigh_packWord, fieldLen_packWord, fieldRsvLow_packWord,
    fieldData_packWord, BitVec.toNat_ofNat]
  rw [Nat.mod_eq_of_lt ho, Nat.mod_eq_of_lt hd, hr]
  simp

/-- A word of an assigned opcode of format V decodes to its command. -/
theorem decode_wordV {opc : Nat} {mk : Nat → Nat → Instr} (ho : opc < 256)
    (hr : ∀ len data, opcodeRow opc len data = some (.v, mk len data)) {len data : Nat} (hl : len < 64)
    (hd : data < 2 ^ 32) : decode (wordV opc len data) = .ok (mk len data) := by
  rw [wordV_eq_packWord hl hd]
  simp only [decode, fieldOpc_packWord, fieldRsvHigh_packWord, fieldLen_packWord, fieldRsvLow_packWord,
    fieldData_packWord, BitVec.toNat_ofNat]
  rw [Nat.mod_eq_of_lt ho, Nat.mod_eq_of_lt hd, Nat.mod_eq_of_lt (show len < 2 ^ 6 from hl), hr]
  simp

end Sys2Proof.Machine
end

