-- ==== Sys2Proof/Laws/PerInstr.lean ====
section
/-! SUPPORT. One lemma per command: its word, and the one row of the opcode table that accepts it (spec/30_encoding.md R71
to R79). -/

namespace Sys2Proof.Laws.EncodesItsRow

open Sys2Proof Sys2Proof.Machine

/-- The command's row is in the opcode table and accepts its word, whose five fields are the command's operands. -/
def Statement (i : Instr) : Prop :=
  i.WellFormed →
    (⟨i.opc, i.format⟩ : OpcodeRow) ∈ opcodeTable ∧ (⟨i.opc, i.format⟩ : OpcodeRow).accepts (encode i) ∧
      encode i = packWord (BitVec.ofNat 8 i.opc) 0#2 (BitVec.ofNat 6 i.len) 0#16 (BitVec.ofNat 32 i.data)

/-- The three fields of a word do not overlap. -/
theorem encode_eq_packWord {i : Instr} (hl : i.len < 64) (hd : i.data < 2 ^ 32) :
    encode i = packWord (BitVec.ofNat 8 i.opc) 0#2 (BitVec.ofNat 6 i.len) 0#16 (BitVec.ofNat 32 i.data) := by
  apply BitVec.eq_of_toNat_eq
  rw [toNat_packWord, encode, Nat.or_assoc, shiftLeft_or i.len _ _ (by omega), shiftLeft_or i.opc _ _ (by omega)]
  simp only [BitVec.toNat_ofNat]
  omega

theorem of_row {i : Instr} (hr : (⟨i.opc, i.format⟩ : OpcodeRow) ∈ opcodeTable) (ho : i.opc < 256) (hl : i.len < 64)
    (hd : i.data < 2 ^ 32) (hn : i.format ≠ .v → i.len = 0) (hz : i.format = .n → i.data = 0) :
    (⟨i.opc, i.format⟩ : OpcodeRow) ∈ opcodeTable ∧ (⟨i.opc, i.format⟩ : OpcodeRow).accepts (encode i) ∧
      encode i = packWord (BitVec.ofNat 8 i.opc) 0#2 (BitVec.ofNat 6 i.len) 0#16 (BitVec.ofNat 32 i.data) := by
  refine ⟨hr, ?_, encode_eq_packWord hl hd⟩
  rw [encode_eq_packWord hl hd]
  have h : i.opc = (BitVec.ofNat 8 i.opc).toNat := by rw [BitVec.toNat_ofNat, Nat.mod_eq_of_lt ho]
  rw [h, accepts_packWord]
  refine ⟨by rw [← h], rfl, fun hf => by rw [hn hf], rfl, fun hf => by rw [hz hf]⟩

theorem nop : Statement .nop := fun _ => of_row (by decide) (by decide) (by decide) (by decide) (by decide) (by decide)

theorem getStatus : Statement .getStatus := fun _ => of_row (by decide) (by decide) (by decide) (by decide) (by decide) (by decide)

theorem sboxBegin : Statement .sboxBegin := fun _ => of_row (by decide) (by decide) (by decide) (by decide) (by decide) (by decide)

theorem sboxPush (data : Nat) : Statement (.sboxPush data) := fun h =>
  of_row (by simp [Instr.opc, Instr.format, opcodeTable]) (by simp [Instr.opc]) (by simp [Instr.len])
    (of_decide_eq_true h) (fun _ => rfl) (by simp [Instr.format])

theorem sboxEndrow : Statement .sboxEndrow := fun _ => of_row (by decide) (by decide) (by decide) (by decide) (by decide) (by decide)

theorem sboxBuild : Statement .sboxBuild := fun _ => of_row (by decide) (by decide) (by decide) (by decide) (by decide) (by decide)

theorem sboxFwd (len data : Nat) : Statement (.sboxFwd len data) := fun h =>
  have h := (Bool.and_eq_true _ _).mp h
  of_row (by simp [Instr.opc, Instr.format, opcodeTable]) (by simp [Instr.opc]) (of_decide_eq_true h.1)
    (of_decide_eq_true h.2) (by simp [Instr.format]) (by simp [Instr.format])

theorem sboxInv (len data : Nat) : Statement (.sboxInv len data) := fun h =>
  have h := (Bool.and_eq_true _ _).mp h
  of_row (by simp [Instr.opc, Instr.format, opcodeTable]) (by simp [Instr.opc]) (of_decide_eq_true h.1)
    (of_decide_eq_true h.2) (by simp [Instr.format]) (by simp [Instr.format])

theorem sboxRdf (data : Nat) : Statement (.sboxRdf data) := fun h =>
  of_row (by simp [Instr.opc, Instr.format, opcodeTable]) (by simp [Instr.opc]) (by simp [Instr.len])
    (of_decide_eq_true h) (fun _ => rfl) (by simp [Instr.format])

theorem sboxRdi (data : Nat) : Statement (.sboxRdi data) := fun h =>
  of_row (by simp [Instr.opc, Instr.format, opcodeTable]) (by simp [Instr.opc]) (by simp [Instr.len])
    (of_decide_eq_true h) (fun _ => rfl) (by simp [Instr.format])

theorem pboxBegin : Statement .pboxBegin := fun _ => of_row (by decide) (by decide) (by decide) (by decide) (by decide) (by decide)

theorem pboxPush (data : Nat) : Statement (.pboxPush data) := fun h =>
  of_row (by simp [Instr.opc, Instr.format, opcodeTable]) (by simp [Instr.opc]) (by simp [Instr.len])
    (of_decide_eq_true h) (fun _ => rfl) (by simp [Instr.format])

theorem pboxBuild : Statement .pboxBuild := fun _ => of_row (by decide) (by decide) (by decide) (by decide) (by decide) (by decide)

theorem pboxFwd (len data : Nat) : Statement (.pboxFwd len data) := fun h =>
  have h := (Bool.and_eq_true _ _).mp h
  of_row (by simp [Instr.opc, Instr.format, opcodeTable]) (by simp [Instr.opc]) (of_decide_eq_true h.1)
    (of_decide_eq_true h.2) (by simp [Instr.format]) (by simp [Instr.format])

theorem pboxInv (len data : Nat) : Statement (.pboxInv len data) := fun h =>
  have h := (Bool.and_eq_true _ _).mp h
  of_row (by simp [Instr.opc, Instr.format, opcodeTable]) (by simp [Instr.opc]) (of_decide_eq_true h.1)
    (of_decide_eq_true h.2) (by simp [Instr.format]) (by simp [Instr.format])

theorem pboxRdf (data : Nat) : Statement (.pboxRdf data) := fun h =>
  of_row (by simp [Instr.opc, Instr.format, opcodeTable]) (by simp [Instr.opc]) (by simp [Instr.len])
    (of_decide_eq_true h) (fun _ => rfl) (by simp [Instr.format])

theorem pboxRdi (data : Nat) : Statement (.pboxRdi data) := fun h =>
  of_row (by simp [Instr.opc, Instr.format, opcodeTable]) (by simp [Instr.opc]) (by simp [Instr.len])
    (of_decide_eq_true h) (fun _ => rfl) (by simp [Instr.format])

end Sys2Proof.Laws.EncodesItsRow
end

