-- ==== Sys2Proof/Laws/Sbox.lean ====
section
/-! SUPPORT. What SBOX_BUILD's parts can do: the closed copy of the row bookkeeping, each verdict, and the row order of the
inverse table's writes (spec/41_sbox.md R123 to R133). -/

namespace Sys2Proof.Machine

/-! ## The local copy of the bookkeeping (R124) -/

@[simp] theorem sboxClosed_cnt (g : SboxStaging) : (sboxClosed g).cnt = g.cnt := by unfold sboxClosed; split <;> simp

theorem sboxClosed_rows (s : State) : (sboxClosed s.sstg).rows = s.stagedRows := by
  unfold sboxClosed State.stagedRows
  split <;> (split <;> first | omega | simp)

theorem sboxClosed_m (s : State) : (sboxClosed s.sstg).m = s.stagedM := by
  unfold sboxClosed State.stagedM
  split <;> (split <;> first | omega | simp)

theorem sboxClosed_ragged (s : State) : (sboxClosed s.sstg).ragged = true ↔ s.stagedRagged := by
  unfold sboxClosed State.stagedRagged
  split
  · next h =>
    have : s.sstg.cur ≠ 0 := by omega
    cases hm : s.sstg.m with
    | none => simp [hm]
    | some m => simp [hm, this, eq_comm (a := m)]
  · next h =>
    have : s.sstg.cur = 0 := by omega
    simp [this]

/-! ## The staged entries -/

@[simp] theorem length_sstgFirst (s : State) (n : Nat) : (s.sstgFirst n).length = n := by simp [State.sstgFirst]

theorem sstgFirst_eq_map (s : State) (n : Nat) : s.sstgFirst n = (List.range n).map s.sstgBufAt :=
  Cells.first_eq_map _ _ _

theorem mem_sstgFirst {s : State} {n : Nat} {e : Entry} : e ∈ s.sstgFirst n ↔ ∃ k < n, s.sstgBufAt k = e := by
  simp [sstgFirst_eq_map]

/-- w, over the staged entries (R123). -/
theorem maxBitlen_sstgFirst_eq_iff (s : State) (n b : Nat) :
    maxBitlen (s.sstgFirst n) = b ↔ WidthIs s.sstgBufAt n b := by
  have hle : ∀ k, maxBitlen (s.sstgFirst n) ≤ k ↔ ∀ j < n, bitlen (s.sstgBufAt j).toNat ≤ k := by
    intro k; rw [maxBitlen_le_iff]; simp [mem_sstgFirst]
  constructor
  · rintro rfl
    refine ⟨(hle _).1 le_rfl, ?_⟩
    rcases maxBitlen_attained (s.sstgFirst n) with h | ⟨e, he, h⟩
    · exact .inl h
    · obtain ⟨k, hk, rfl⟩ := mem_sstgFirst.1 he
      exact .inr ⟨k, hk, h⟩
  · rintro ⟨h1, h2⟩
    have := (hle b).2 h1
    rcases h2 with rfl | ⟨k, hk, h2⟩
    · omega
    · have := (hle _).1 le_rfl k hk; omega

/-! ## The verdicts, in order (R125, R127, R128, R130) -/

section verdicts
variable (g : SboxStaging) (entries : List Entry)

theorem sboxVerdict_capacity (h : Config.cap < g.cnt ∨ Config.cap < g.rows) :
    sboxVerdict g entries = .error .capacity := by
  unfold sboxVerdict
  rw [if_pos (by simpa only [fitsCap_false_iff] using h)]

theorem sboxVerdict_rows (hc : g.cnt ≤ Config.cap) (hr : g.rows ≤ Config.cap) (h : g.rows = 0 ∨ isPow2 g.rows = false) :
    sboxVerdict g entries = .error .rows := by
  unfold sboxVerdict
  rw [if_neg (by simp only [fitsCap_false_iff]; omega), if_pos h]

theorem sboxVerdict_cols (hc : g.cnt ≤ Config.cap) (hr : g.rows ≤ Config.cap) (hn : isPow2 g.rows = true)
    (h : g.ragged = true ∨ g.m.getD 0 = 0 ∨ isPow2 (g.m.getD 0) = false) : sboxVerdict g entries = .error .cols := by
  have h0 : g.rows ≠ 0 := by intro h0; rw [h0] at hn; simp [isPow2] at hn
  unfold sboxVerdict
  rw [if_neg (by simp only [fitsCap_false_iff]; omega), if_neg (by simp [h0, hn]), if_pos h]

/-- With the three structural checks passed, the width decides. -/
theorem sboxVerdict_width (hc : g.cnt ≤ Config.cap) (hr : g.rows ≤ Config.cap) (hn : isPow2 g.rows = true)
    (hg : g.ragged = false) {m : Nat} (hm : g.m = some m) (hp : isPow2 m = true) : sboxVerdict g entries =
      if maxBitlen entries ≠ ceilLog g.rows + ceilLog m then .error .width else .ok (ceilLog g.rows, ceilLog m) := by
  have h0 : g.rows ≠ 0 := by intro h0; rw [h0] at hn; simp [isPow2] at hn
  have h1 : m ≠ 0 := by rintro rfl; simp [isPow2] at hp
  unfold sboxVerdict
  rw [if_neg (by simp only [fitsCap_false_iff]; omega), if_neg (by simp [h0, hn]), if_neg (by simp [hg, hm, hp, h1])]
  simp [hm]

/-- Everything an accepted table says of its bookkeeping. -/
theorem sboxVerdict_ok {ln lm : Nat} (h : sboxVerdict g entries = .ok (ln, lm)) :
    g.cnt ≤ Config.cap ∧ g.rows ≤ Config.cap ∧ isPow2 g.rows = true ∧ g.ragged = false ∧
      (∃ m, g.m = some m ∧ isPow2 m = true ∧ lm = ceilLog m) ∧ ln = ceilLog g.rows ∧ maxBitlen entries = ln + lm := by
  simp only [sboxVerdict] at h
  split at h
  · simp at h
  next h1 =>
  split at h
  · simp at h
  next h2 =>
  split at h
  · simp at h
  next h3 =>
  split at h
  · simp at h
  next h4 =>
  simp only [Except.ok.injEq, Prod.mk.injEq] at h
  obtain ⟨rfl, rfl⟩ := h
  simp only [fitsCap_false_iff] at h1
  cases hm : g.m with
  | none => simp [hm] at h3
  | some m =>
    simp only [hm, Option.getD_some] at h3 h4
    refine ⟨by omega, by omega, by simpa using fun h => h2 (.inr h), by simpa using fun h => h3 (.inl h),
      ⟨m, rfl, by simpa using fun h => h3 (.inr (.inr h)), rfl⟩, rfl, by simpa using h4⟩

end verdicts

/-! ## Row order is address order (R133, R134) -/

/-- A loop over rows of a loop over columns is one loop over linear addresses. -/
theorem foldl_rows {α : Type} (f : α → Nat → α) (m n : Nat) (x : α) :
    (List.range n).foldl (fun x i => (List.range m).foldl (fun x j => f x (i * m + j)) x) x =
      (List.range (n * m)).foldl f x := by
  induction n generalizing x with
  | zero => simp
  | succ n ih =>
    rw [List.range_succ, List.foldl_append, ih, Nat.succ_mul, List.range_add, List.foldl_append]
    simp [List.foldl_map]

/-- The linear address of a column inside its row. -/
theorem linearAddr_eq (lm i j : Nat) (h : j < 2 ^ lm) : linearAddr lm i j = i * 2 ^ lm + j := shiftLeft_or _ _ _ h

@[simp] theorem length_inverseRow (table : List Entry) (ln lm i : Nat) (inv : List Entry) :
    (inverseRow table ln lm inv i).length = inv.length := by
  unfold inverseRow
  generalize List.range (2 ^ lm) = js
  induction js generalizing inv with
  | nil => rfl
  | cons j js ih => rw [List.foldl_cons, ih, List.length_set]

/-- The inverse table has the shape of the table (R25). -/
@[simp] theorem length_inverseTableBuilder (table : List Entry) (ln lm : Nat) :
    (inverseTableBuilder table ln lm).length = 2 ^ (ln + lm) := by
  unfold inverseTableBuilder
  suffices h : ∀ (is : List Nat) (inv : List Entry), (is.foldl (inverseRow table ln lm) inv).length = inv.length by
    rw [h, List.length_replicate]
  intro is
  induction is with
  | nil => intro inv; rfl
  | cons i is ih => intro inv; rw [List.foldl_cons, ih, length_inverseRow]

end Sys2Proof.Machine
end

