-- ==== Sys2Proof/Tests/Slice0.lean ====
section
/-! SUPPORT. Tests. Each expected value is from spec/ (the example of a rule, or a row of spec/95_test_vectors.md, as the
comment over it says); the witnesses show that the hypotheses of each statement of Certificates/Slice0 can be met. -/

namespace Sys2Proof.Tests

open Sys2Proof Sys2Proof.Machine

/-! ## Small states -/

/-- The response a command's outcome carries, if any. -/
def rspOf : Host.Outcome State Fault Refusal → Option PortWord
  | .next t => t.rsp
  | .fault _ => none
  | .refused _ => none

/-- What a next state holds, by a projection. -/
def nextOf {α : Type} (f : State → α) : Host.Outcome State Fault Refusal → Option α
  | .next t => some (f t)
  | .fault _ => none
  | .refused _ => none

/-- An active SBox on the reset state. -/
def withSbox (ln lm : Nat) (fwd inv : List Entry) : State :=
  { State.reset with sbox := { valid := true, logn := BitVec.ofNat 6 ln, logm := BitVec.ofNat 6 lm, fwd, inv } }

/-- An active PBox on the reset state. -/
def withPbox (fwd inv : List Position) : State :=
  { State.reset with pbox := { valid := true, n := BitVec.ofNat 6 fwd.length, fwd, inv } }

/-- An open SBox load: entries, rows closed, entries of the open row, length of the first row, ragged. -/
def withRows (buf : List Entry) (rows cur : Nat) (m : Option Nat) (ragged : Bool) : State :=
  { State.reset with sstg := { isOpen := true, buf, cnt := buf.length, rows, cur, m, ragged } }

/-- An open PBox load. -/
def withValues (vs : List Entry) : State :=
  { State.reset with pstg := { isOpen := true, buf := vs.take 32, cnt := vs.length } }

/-- Table `[[5,1,7,0],[2,6,3,4]]`, n = 2, m = 4 (95_test_vectors.md section 2.4). -/
def sbox24 : State := withSbox 1 2 [5, 1, 7, 0, 2, 6, 3, 4] [3, 1, 4, 6, 7, 0, 5, 2]

/-- Table `[[3,3],[3,3]]`, which is not a bijection (section 2.4). -/
def sboxGaps : State := withSbox 1 1 [3, 3, 3, 3] [0, 0, 0, 3]

/-- Table `[[0]]`, b = 0 (section 2.4). -/
def sboxZero : State := withSbox 0 0 [0] [0]

/-- Permutation `[4,2,7,1,3,8,5,6]` (section 2.6). -/
def pbox8 : State := withPbox [4, 2, 7, 1, 3, 8, 5, 6] [4, 2, 5, 1, 7, 8, 3, 6]

/-- The staged load of `[[2,0],[3,1]]` before BUILD. -/
def rows22 : State := withRows [2, 0, 3, 1] 2 0 (some 2) false

/-! ## Well-formedness: each check refuses an ill-formed term (R75) -/

theorem test_wf_data : Instr.wellFormed (.sboxPush (2 ^ 32)) = false ∧ Instr.wellFormed (.pboxPush (2 ^ 32)) = false ∧
    Instr.wellFormed (.sboxRdf (2 ^ 32)) = false ∧ Instr.wellFormed (.sboxRdi (2 ^ 32)) = false ∧
    Instr.wellFormed (.pboxRdf (2 ^ 32)) = false ∧ Instr.wellFormed (.pboxRdi (2 ^ 32)) = false := by decide

theorem test_wf_len : Instr.wellFormed (.sboxFwd 64 0) = false ∧ Instr.wellFormed (.sboxInv 64 0) = false ∧
    Instr.wellFormed (.pboxFwd 64 0) = false ∧ Instr.wellFormed (.pboxInv 64 0) = false := by decide

theorem test_wf_vector_data : Instr.wellFormed (.sboxFwd 8 (2 ^ 32)) = false ∧
    Instr.wellFormed (.sboxInv 8 (2 ^ 32)) = false ∧ Instr.wellFormed (.pboxFwd 8 (2 ^ 32)) = false ∧
    Instr.wellFormed (.pboxInv 8 (2 ^ 32)) = false := by decide

theorem test_wf_bounds : Instr.wellFormed (.sboxFwd 63 (2 ^ 32 - 1)) = true ∧
    Instr.wellFormed (.pboxPush (2 ^ 32 - 1)) = true := by decide

/-! ## Decoding: words from R71 to R74, R78 and the examples of the rules -/

theorem test_decode_control : decode 0x0000000000000000#64 = .ok .nop ∧ decode 0x0100000000000000#64 = .ok .getStatus := by
  decide

theorem test_decode_sbox_load : decode 0x1000000000000000#64 = .ok .sboxBegin ∧
    decode 0x1100000000000002#64 = .ok (.sboxPush 2) ∧ decode 0x1200000000000000#64 = .ok .sboxEndrow ∧
    decode 0x1300000000000000#64 = .ok .sboxBuild := by decide

theorem test_decode_sbox_use : decode 0x14080000000000CA#64 = .ok (.sboxFwd 8 0xCA) ∧
    decode 0x1503000000000003#64 = .ok (.sboxInv 3 3) ∧ decode 0x1600000000000007#64 = .ok (.sboxRdf 7) ∧
    decode 0x1700000000000003#64 = .ok (.sboxRdi 3) := by decide

theorem test_decode_pbox_load : decode 0x2000000000000000#64 = .ok .pboxBegin ∧
    decode 0x2100000000000004#64 = .ok (.pboxPush 4) ∧ decode 0x2200000000000000#64 = .ok .pboxBuild := by decide

theorem test_decode_pbox_use : decode 0x23080000000000CA#64 = .ok (.pboxFwd 8 0xCA) ∧
    decode 0x2408000000000078#64 = .ok (.pboxInv 8 0x78) ∧ decode 0x2500000000000002#64 = .ok (.pboxRdf 2) ∧
    decode 0x2600000000000007#64 = .ok (.pboxRdi 7) := by decide

/-- A word written bit by bit from R74: OPC 0x14, RSV 00, LEN 000010, RSV zeros, DATA 0x80000001. -/
theorem test_decode_bits :
    decode 0b0001010000000010000000000000000010000000000000000000000000000001#64 = .ok (.sboxFwd 2 0x80000001) := by
  decide

/-- 95_test_vectors.md section 2.2. -/
theorem test_decode_illegal : decode 0x0200000000000000#64 = .error .unassignedOpcode ∧
    decode 0xFF00000000000000#64 = .error .unassignedOpcode ∧ decode 0x0000000000000001#64 = .error .dataFieldSet ∧
    decode 0x1101000000000005#64 = .error .lenFieldSet ∧ decode 0x1440000000000000#64 = .error .reservedBitsSet ∧
    decode 0x1400000100000000#64 = .error .reservedBitsSet := by decide

theorem test_encode : encode (.sboxFwd 8 0xCA) = 0x14080000000000CA#64 ∧ encode (.pboxPush 4) = 0x2100000000000004#64 ∧
    encode .nop = 0x0000000000000000#64 := by decide

/-- The masks of R72 to R74 accept by OPC: 17 rows, no two with one OPC. -/
theorem test_table_rows_differ : opcodeTable.length = 17 ∧ (opcodeTable.map OpcodeRow.opc).Nodup := by decide

theorem test_bus : busBytes .leastSignificantFirst 0x14080000000000CA#64 = [0xCA, 0, 0, 0, 0, 0, 0x08, 0x14] ∧
    busBytes .mostSignificantFirst 0x14080000000000CA#64 = [0x14, 0x08, 0, 0, 0, 0, 0, 0xCA] := by decide

theorem test_table_word : decodeTableWord 64 0x1503000000000003 = some (.sboxInv 3 3) := by decide

/-! ## Assembly text (the example of R82) -/

theorem test_assemble_bits : assembleLine "SBOX_FWD 0b11001010".toList = some [.sboxFwd 8 0xCA] := by decide

theorem test_assemble_fields : assembleLine "sbox_fwd 8, 0xCA ; the same".toList = some [.sboxFwd 8 0xCA] := by decide

theorem test_assemble_load : assembleLine "PBOX_LOAD [2, 1]".toList = some [.pboxBegin, .pboxPush 2, .pboxPush 1, .pboxBuild] := by
  decide

/-! ## The codec (95_test_vectors.md section 2.1) -/

theorem test_bits_to_num : bitsToNum [true, true, false, false, true, false, true, false] = 202 := by decide
theorem test_num_to_bits : numToBits 5 2 = [false, true] ∧ numToBits 13 4 = [true, true, false, true] := by decide
theorem test_ceil_log : ceilLog 0 = 0 ∧ ceilLog 9 = 4 ∧ ceilLog 15 = 4 ∧ ceilLog 16 = 4 ∧ ceilLog 17 = 5 := by decide
theorem test_bitlen : bitlen 0 = 0 ∧ bitlen 1 = 1 ∧ bitlen 255 = 8 ∧ bitlen 256 = 9 := by decide
theorem test_is_pow2 : isPow2 0 = false ∧ isPow2 1 = true ∧ isPow2 6 = false ∧ isPow2 32 = true := by decide

/-! ## One step of each command -/

/-- Section 2.7: NOP. -/
theorem test_nop : rspOf (step (State.reset.withFetchWord 64 0)) = some 0#64 := by decide

/-- Section 2.7: GET_STATUS after reset, and the AES example of R191. -/
theorem test_get_status : rspOf (exec .getStatus State.reset) = some 0#64 ∧
    rspOf (exec .getStatus (withSbox 4 4 [] [])) = some 0x0000000000040401#64 := by decide

/-- Section 2.7, the last row: SB_LOGN = 0, SB_LOGM = 2, PB_N = 2. -/
theorem test_get_status_both : rspOf (exec .getStatus
    { withSbox 0 2 [2, 0, 3, 1] [] with pbox := (withPbox [2, 1] [2, 1]).pbox }) = some 0x0000000002020003#64 := by decide

/-- R120: the example, over a load already open. -/
theorem test_sbox_begin : rspOf (exec .sboxBegin rows22) = some 0#64 ∧
    nextOf State.sstg (exec .sboxBegin rows22) = some ⟨true, [2, 0, 3, 1], 0, 0, 0, none, false⟩ := by decide

/-- R121: the example. -/
theorem test_sbox_push : nextOf State.sstg (exec (.sboxPush 2) (withRows [] 0 0 none false)) =
    some ⟨true, [2], 1, 0, 1, none, false⟩ := by decide

/-- Section 2.4: no load open. -/
theorem test_sbox_push_closed : rspOf (exec (.sboxPush 1) State.reset) = some 0x0600000000000000#64 := by decide

/-- R122: the example. -/
theorem test_sbox_endrow : nextOf State.sstg (exec .sboxEndrow (withRows [2, 0] 0 2 none false)) =
    some ⟨true, [2, 0], 2, 1, 0, some 2, false⟩ := by decide

/-- R122: a later row of another length makes the table ragged. -/
theorem test_sbox_endrow_ragged : nextOf (fun t => (t.sstg.rows, t.sstg.m, t.sstg.ragged))
    (exec .sboxEndrow (withRows [0, 1, 2] 1 1 (some 2) false)) = some (2, some 2, true) := by decide

/-- Section 2.3: `[[5,1,7,0],[2,6,3,4]]`, its final row still open (R124). -/
theorem test_sbox_build : nextOf (fun t => (t.rsp, t.sbox.fwd, t.sbox.inv))
    (exec .sboxBuild (withRows [5, 1, 7, 0, 2, 6, 3, 4] 1 4 (some 4) false)) =
      some (some 0x0003000000000000#64, [5, 1, 7, 0, 2, 6, 3, 4], [3, 1, 4, 6, 7, 0, 5, 2]) := by decide

/-- Section 2.3: each refusal, and the collision at 1 with the gap at 2. -/
theorem test_sbox_build_verdicts : rspOf (exec .sboxBuild (withRows [1] 1 0 (some 1) false)) = some 0x0100030000000000#64 ∧
    rspOf (exec .sboxBuild (withRows [0, 1, 2, 4] 2 0 (some 2) false)) = some 0x0100030000000000#64 ∧
    rspOf (exec .sboxBuild (withRows [0, 1, 2] 1 1 (some 2) false)) = some 0x0100020000000000#64 ∧
    rspOf (exec .sboxBuild (withRows [] 0 0 none false)) = some 0x0100010000000000#64 ∧
    nextOf (fun t => t.sbox.inv) (exec .sboxBuild (withRows [3, 0, 1, 1] 2 0 (some 2) false)) = some [1, 3, 0, 0] := by
  decide

/-- Section 2.4: bits of DATA at and above LEN are ignored. -/
theorem test_sbox_fwd : rspOf (exec (.sboxFwd 3 6) sbox24) = some 0x0003000000000003#64 ∧
    rspOf (exec (.sboxFwd 3 0xFFFFFFFE) sbox24) = some 0x0003000000000003#64 := by decide

/-- Section 2.4: NOT_CONFIGURED, INVALID_INPUT_LENGTH, and b = 0. -/
theorem test_sbox_fwd_errors : rspOf (exec (.sboxFwd 8 0xCA) State.reset) = some 0x0400000000000000#64 ∧
    rspOf (exec (.sboxFwd 4 6) sbox24) = some 0x0300000000000000#64 ∧
    rspOf (exec (.sboxFwd 0 0) sboxZero) = some 0#64 := by decide

/-- Section 2.4. -/
theorem test_sbox_inv : rspOf (exec (.sboxInv 3 3) sbox24) = some 0x0003000000000006#64 ∧
    rspOf (exec (.sboxInv 2 3) sboxGaps) = some 0x0002000000000003#64 := by decide

/-- Section 2.4. -/
theorem test_sbox_rdf : rspOf (exec (.sboxRdf 7) sbox24) = some 0x0000000000000004#64 ∧
    rspOf (exec (.sboxRdf 8) sbox24) = some 0x0700000000000000#64 := by decide

/-- Section 2.4. -/
theorem test_sbox_rdi : rspOf (exec (.sboxRdi 7) sbox24) = some 0x0000000000000002#64 ∧
    rspOf (exec (.sboxRdi 0) State.reset) = some 0x0400000000000000#64 := by decide

/-- R160: over values already staged. -/
theorem test_pbox_begin : nextOf (fun t => (t.rsp, t.pstg)) (exec .pboxBegin (withValues [2, 2])) =
    some (some 0#64, ⟨true, [2, 2], 0⟩) := by decide

/-- R161: the example. -/
theorem test_pbox_push : nextOf (fun t => (t.rsp, t.pstg)) (exec (.pboxPush 4) (withValues [])) =
    some (some 0#64, ⟨true, [4], 1⟩) := by decide

/-- R161: the 33rd value is counted, not stored. -/
theorem test_pbox_push_33 : nextOf (fun t => (t.pstg.cnt, t.pstg.buf.length))
    (exec (.pboxPush 1) (withValues (List.replicate 32 1))) = some (33, 32) := by decide

/-- Section 2.5. -/
theorem test_pbox_build : nextOf (fun t => (t.rsp, t.pbox.fwd, t.pbox.inv))
    (exec .pboxBuild (withValues [4, 2, 7, 1, 3, 8, 5, 6])) =
      some (some 0x0008000000000000#64, [4, 2, 7, 1, 3, 8, 5, 6], [4, 2, 5, 1, 7, 8, 3, 6]) := by decide

/-- Section 2.5: each refusal. -/
theorem test_pbox_build_verdicts : rspOf (exec .pboxBuild (withValues [])) = some 0x0200010000000000#64 ∧
    rspOf (exec .pboxBuild (withValues [2])) = some 0x0200020000000000#64 ∧
    rspOf (exec .pboxBuild (withValues [3, 3, 0])) = some 0x0200030000000000#64 ∧
    rspOf (exec .pboxBuild (withValues [0, 0])) = some 0x0200020000000000#64 ∧
    rspOf (exec .pboxBuild (withValues (List.replicate 33 1))) = some 0x0200010000000000#64 := by decide

/-- Section 2.6: 0x80 is the first element. -/
theorem test_pbox_fwd : rspOf (exec (.pboxFwd 8 0x80) pbox8) = some 0x0008000000000010#64 ∧
    rspOf (exec (.pboxFwd 8 0x1CA) pbox8) = some 0x0008000000000078#64 := by decide

/-- Section 2.6. -/
theorem test_pbox_fwd_errors : rspOf (exec (.pboxFwd 7 0xCA) pbox8) = some 0x0300000000000000#64 ∧
    rspOf (exec (.pboxFwd 8 0xCA) State.reset) = some 0x0400000000000000#64 := by decide

/-- Section 1.6. -/
theorem test_pbox_inv : rspOf (exec (.pboxInv 8 0x78) pbox8) = some 0x00080000000000CA#64 := by decide

/-- R174: the index is 0-based, the value 1-based. -/
theorem test_pbox_rdf : rspOf (exec (.pboxRdf 2) pbox8) = some 0x0000000000000007#64 ∧
    rspOf (exec (.pboxRdf 8) pbox8) = some 0x0700000000000000#64 := by decide

/-- R175: the example. -/
theorem test_pbox_rdi : rspOf (exec (.pboxRdi 2) pbox8) = some 0x0000000000000005#64 := by decide

/-! ## Inputs of the host -/

/-- R80: an illegal word. -/
theorem test_illegal_word : rspOf (step (sbox24.withFetchWord 64 0x0200000000000000)) = some 0x0500000000000000#64 := by
  decide

/-- R230: the reset input clears the VALID bit and answers nothing. -/
theorem test_reset_input : nextOf (fun t => (t.sbox.valid, t.rsp, t.resets)) (step { sbox24 with inputs := [.reset] }) =
    some (false, none, 1) := by decide

/-- With nothing sent the block waits (log 5). -/
theorem test_waits : nextOf (fun t => (t.sbox.fwd, t.rsp, t.inputs)) (step sbox24) =
    some ([5, 1, 7, 0, 2, 6, 3, 4], none, []) := by decide

/-! ## Witnesses: the invariants of the active instances -/

/-- A way to show what an inverse cell holds, over a finite range. -/
theorem inverseCell_of {table : Nat → Nat} {N y v : Nat}
    (h : (v < N ∧ table v = y ∧ ∀ a < N, table a = y → a ≤ v) ∨ ((∀ a < N, table a ≠ y) ∧ v = 0)) :
    InverseCell table N y v :=
  h.imp (fun ⟨h1, h2, h3⟩ => ⟨⟨h1, h2⟩, fun a ha => h3 a ha.1 ha.2⟩) id

/-- SboxInv from what decide can see. -/
theorem sboxInv_of {s : State} (h1 : s.sbB ≤ 8) (h2 : ∀ a < 2 ^ s.sbB, s.sbFwdNat a < 2 ^ s.sbB)
    (h3 : (∀ k < 2 ^ s.sbB, bitlen (s.sbFwdAt k).toNat ≤ s.sbB) ∧
      (s.sbB = 0 ∨ ∃ k < 2 ^ s.sbB, bitlen (s.sbFwdAt k).toNat = s.sbB))
    (h4 : ∀ y < 2 ^ s.sbB, s.sbInvNat y < 2 ^ s.sbB)
    (h5 : ∀ y < 2 ^ s.sbB,
      (s.sbInvNat y < 2 ^ s.sbB ∧ s.sbFwdNat (s.sbInvNat y) = y ∧
        ∀ a < 2 ^ s.sbB, s.sbFwdNat a = y → a ≤ s.sbInvNat y) ∨
      ((∀ a < 2 ^ s.sbB, s.sbFwdNat a ≠ y) ∧ s.sbInvNat y = 0)) : s.SboxInv :=
  fun _ => ⟨h1.trans sboxBMax_ge, h2, h3, h4, fun y hy => inverseCell_of (h5 y hy)⟩

/-- PboxInv from what decide can see. -/
theorem pboxInv_of {s : State} (h1 : 1 ≤ s.pbN) (h2 : s.pbN ≤ 32)
    (h3 : (∀ i < s.pbN, 1 ≤ s.pbFwdNat i ∧ s.pbFwdNat i ≤ s.pbN) ∧
      ∀ i < s.pbN, ∀ j < s.pbN, s.pbFwdNat i = s.pbFwdNat j → i = j)
    (h4 : (∀ i < s.pbN, 1 ≤ s.pbInvNat i ∧ s.pbInvNat i ≤ s.pbN) ∧
      ∀ i < s.pbN, ∀ j < s.pbN, s.pbInvNat i = s.pbInvNat j → i = j)
    (h5 : ∀ i < s.pbN, s.pbInvNat (s.pbFwdNat i - 1) = i + 1)
    (h6 : ∀ k < s.pbN, s.pbFwdNat (s.pbInvNat k - 1) = k + 1) : s.PboxInv :=
  fun _ => ⟨h1, h2, (bijOn_Icc_iff _ _).2 h3, (bijOn_Icc_iff _ _).2 h4, h5, h6⟩

theorem sbox24_sboxInv : sbox24.SboxInv :=
  sboxInv_of (by decide) (by decide) (by decide) (by decide) (by decide)

theorem sboxGaps_sboxInv : sboxGaps.SboxInv :=
  sboxInv_of (by decide) (by decide) (by decide) (by decide) (by decide)

theorem sboxZero_sboxInv : sboxZero.SboxInv :=
  sboxInv_of (by decide) (by decide) (by decide) (by decide) (by decide)

theorem pbox8_pboxInv : pbox8.PboxInv :=
  pboxInv_of (by decide) (by decide) (by decide) (by decide) (by decide) (by decide)

/-! ## Witnesses: the invariant of the block -/

/-- A state whose instances and counters decide can see. -/
theorem inv_of {s : State} (h1 : s.SboxInv) (h2 : s.PboxInv) (h3 : s.sstg.cnt ≤ 256 ∧ s.sstg.rows ≤ 256 ∧
      s.sstg.cur ≤ s.sstg.cnt ∧ (s.sstg.m.getD 0 ≤ s.sstg.cnt) ∧ (s.sstg.m = none ↔ s.sstg.rows = 0) ∧
      (s.sstg.m = none → s.sstg.ragged = false) ∧
      (s.sstg.ragged = false → s.sstg.cnt = s.sstg.rows * s.sstg.m.getD 0 + s.sstg.cur))
    (h4 : s.pstg.cnt ≤ 33 ∧ s.sbox.fwd.length ≤ 256 ∧ s.sbox.inv.length ≤ 256 ∧ s.sstg.buf.length ≤ 256 ∧
      s.pbox.fwd.length ≤ 32 ∧ s.pbox.inv.length ≤ 32 ∧ s.pstg.buf.length ≤ 32 ∧ s.sstg.cnt ≤ s.sstg.buf.length ∧
      min s.pstg.cnt 32 ≤ s.pstg.buf.length) : s.Inv := by
  have hc := cap_ge
  obtain ⟨a1, a2, a3, a4, a5, a6, a7⟩ := h3
  obtain ⟨b1, b2, b3, b4, b5, b6, b7, b8, b9⟩ := h4
  refine ⟨h1, h2, ⟨by omega, by omega, a3, ?_, a5, a6, fun _ => a7⟩, b1, by omega, by omega, by omega, b5, b6, b7,
    by omega, b9⟩
  intro m hm
  rw [hm] at a4
  exact a4

theorem rows22_inv : rows22.Inv :=
  inv_of (fun h => absurd h (by decide)) (fun h => absurd h (by decide)) (by decide) (by decide)

/-- Both instances active, a row of an SBox load open, and a PBox load open. -/
def busy : State :=
  { sbox24 with
    pbox := pbox8.pbox
    sstg := (withRows [5, 1, 7, 0, 2, 6, 3, 4] 1 4 (some 4) false).sstg
    pstg := (withValues [2, 1]).pstg }

theorem busy_inv : busy.Inv := inv_of sbox24_sboxInv pbox8_pboxInv (by decide) (by decide)

theorem gaps_inv : sboxGaps.Inv :=
  inv_of sboxGaps_sboxInv (fun h => absurd h (by decide)) (by decide) (by decide)

theorem reset_sboxInv : State.reset.SboxInv := fun h => absurd h (by decide)
theorem reset_pboxInv : State.reset.PboxInv := fun h => absurd h (by decide)

/-- The table of sbox24 is a bijection. -/
theorem sbox24_bijective : sbox24.SboxBijective := by
  have hm : ∀ a < 2 ^ sbox24.sbB, sbox24.sbFwdNat a < 2 ^ sbox24.sbB := by decide
  have hi : ∀ a < 2 ^ sbox24.sbB, ∀ b < 2 ^ sbox24.sbB, sbox24.sbFwdNat a = sbox24.sbFwdNat b → a = b := by decide
  have hs : ∀ y < 2 ^ sbox24.sbB, ∃ a < 2 ^ sbox24.sbB, sbox24.sbFwdNat a = y := by decide
  exact ⟨fun a ha => hm a ha, fun a ha b hb h => hi a ha b hb h, fun y hy => hs y hy⟩

/-- The table of sboxGaps is not: 0 is the image of nothing. -/
theorem sboxGaps_not_bijective : ¬sboxGaps.SboxBijective := by
  rintro ⟨-, -, h⟩
  obtain ⟨a, ha, h⟩ := h (show 0 ∈ Set.Iio (2 ^ sboxGaps.sbB) by decide)
  have hn : ∀ a < 2 ^ sboxGaps.sbB, sboxGaps.sbFwdNat a ≠ 0 := by decide
  exact hn a ha h

/-! ## Witnesses: encoding -/

theorem witness_DecodeEncodeRoundTrip : (Instr.sboxFwd 63 (2 ^ 32 - 1)).WellFormed ∧ (Instr.pboxPush 0).WellFormed ∧
    decode (encode (.sboxFwd 63 (2 ^ 32 - 1))) = .ok (.sboxFwd 63 (2 ^ 32 - 1)) := by decide

/-- Also of WordAcceptedIffExactlyOneRowMatches. -/
theorem witness_DecodedWordIsTheCommandsOnlyWord : decode 0x143F0000FFFFFFFF#64 = .ok (.sboxFwd 63 (2 ^ 32 - 1)) := by
  decide

theorem rejected {w : PortWord} {e : DecodeReject} (h : decode w = .error e) : ∀ i, decode w ≠ .ok i := by
  intro i hi
  rw [h] at hi
  cases hi

theorem witness_IllegalWordRaisesAndChangesNothing_state :
    { sbox24 with inputs := [.command 0xFF00000000000000#64] }.inputs = .command 0xFF00000000000000#64 :: [] ∧
      ∀ i, decode 0xFF00000000000000#64 ≠ .ok i := ⟨rfl, rejected (e := .unassignedOpcode) (by decide)⟩

/-- The ends of the three ranges of unassigned opcodes. -/
theorem witness_IllegalWordRaisesAndChangesNothing_ranges :
    (0x0200000000000000#64).extractLsb' 56 8 = 0x02#8 ∧ (0x0F00000000000000#64).extractLsb' 56 8 = 0x0F#8 ∧
    (0x1800000000000000#64).extractLsb' 56 8 = 0x18#8 ∧ (0x1F00000000000000#64).extractLsb' 56 8 = 0x1F#8 ∧
    (0x2700000000000000#64).extractLsb' 56 8 = 0x27#8 ∧ (0xFF00000000000000#64).extractLsb' 56 8 = 0xFF#8 := by decide

theorem witness_IllegalWordRaisesAndChangesNothing_format : (⟨0x14, .v⟩ : OpcodeRow) ∈ opcodeTable ∧
    ((0x1400000100000000#64).extractLsb' 56 8).toNat = 0x14 ∧
    0x1400000100000000#64 &&& Format.v.mask ≠ OpcodeRow.matchWord ⟨0x14, .v⟩ := by decide

theorem witness_BusCarriesTheWord : ([] : List Byte).length ≠ 8 ∧ (List.replicate 9 0#8).length ≠ 8 ∧
    (Instr.pboxInv 8 0x78).WellFormed := by decide

theorem witness_NopDoesNothing : ((0x0000000000000001#64).extractLsb' 56 8).toNat = 0 ∧ 0x0000000000000001#64 ≠ 0#64 := by
  decide

/-! ## Witnesses: one step -/

/-- Also of EveryCommandWordAnswersAResponse. -/
theorem witness_StepRunsTheDecodedCommand :
    { busy with inputs := [.command 0x1300000000000000#64, .reset] }.inputs = .command 0x1300000000000000#64 :: [.reset] ∧
    decode 0x1300000000000000#64 = .ok .sboxBuild ∧ decodeTableWord 64 0x1300000000000000 = some .sboxBuild :=
  ⟨rfl, by decide, by decide⟩

/-- A state that the host sends two words to. -/
def twoWords (s : State) (w w' : PortWord) : State := { s with inputs := [.command w, .command w'] }

/-- Also of ErrorsAreNotSticky: a refused word, and an error of a command. -/
theorem witness_ErrorWritesNoStateElement :
    (∃ t r, step (twoWords busy 0x0200000000000000#64 0x1403000000000006#64) = .next t ∧ t.rsp = some r ∧ rspSt r ≠ 0#8) ∧
    (∃ t r, step (twoWords busy 0x1404000000000006#64 0x1403000000000006#64) = .next t ∧ t.rsp = some r ∧
      rspSt r ≠ 0#8) :=
  ⟨⟨_, _, rfl, rfl, by decide⟩, ⟨_, _, rfl, rfl, by decide⟩⟩

/-- Each status code a command can answer. -/
theorem witness_StatusTellsTheError :
    (rspOf (exec .nop State.reset)).map rspSt = some 0x00#8 ∧
    (rspOf (exec .sboxBuild (withRows [1] 1 0 (some 1) false))).map rspSt = some 0x01#8 ∧
    (rspOf (exec .pboxBuild (withValues []))).map rspSt = some 0x02#8 ∧
    (rspOf (exec (.sboxInv 2 0) sbox24)).map rspSt = some 0x03#8 ∧
    (rspOf (exec (.pboxInv 7 0) pbox8)).map rspSt = some 0x03#8 ∧
    (rspOf (exec (.sboxRdi 0) State.reset)).map rspSt = some 0x04#8 ∧
    (rspOf (exec (.pboxFwd 8 0) State.reset)).map rspSt = some 0x04#8 ∧
    (rspOf (exec .sboxEndrow State.reset)).map rspSt = some 0x06#8 ∧
    (rspOf (exec .pboxBuild State.reset)).map rspSt = some 0x06#8 ∧
    (rspOf (exec (.sboxRdi 8) sbox24)).map rspSt = some 0x07#8 ∧
    (rspOf (exec (.pboxRdi 8) pbox8)).map rspSt = some 0x07#8 := by decide

theorem witness_ResetInputGivesTheSpecifiedValues : { busy with inputs := [.reset] }.inputs = .reset :: [] := rfl

theorem witness_ResetAbandonsTheCommandAndIsIdempotent :
    { busy with inputs := [.resetDuring 0x1300000000000000#64] }.inputs = .resetDuring 0x1300000000000000#64 :: [] := rfl

/-! ## Witnesses: the codec -/

theorem witness_CodecRoundTrips : 0 < 2 ^ 0 ∧ 2 ^ 3 - 1 < 2 ^ 3 := by decide
theorem witness_VectorElementsAreIntegerBits : 0 < [true, false].length ∧ 1 < [true, false].length ∧
    2 < (numToBits 5 3).length := by decide
theorem witness_CeilLogIsMinimal : 1 ≤ 1 ∧ 17 ≤ 2 ^ 5 := by decide
theorem witness_BitlenIsTheWidth : 1 ≤ 1 ∧ bitlen 1 = 1 ∧ bitlen 255 = 8 := by decide
theorem witness_SplitIsRowAndColumn : ([] : Bits).length = 0 + 0 ∧ [true, true, false].length = 1 + 2 := by decide

/-! ## Witnesses: the SBox family -/

theorem witness_SboxPushAppendsOneEntry_bounds : 0 < 2 ^ 32 ∧ 2 ^ 32 - 1 < 2 ^ 32 ∧ State.reset.sstg.isOpen = false ∧
    busy.sstg.isOpen = true := by decide

/-- The last entry that is stored, and the first that is only counted. -/
theorem witness_SboxPushAppendsOneEntry_capacity :
    { rows22.sstg with cnt := Config.cap - 1 }.cnt < Config.cap ∧
    ∀ k, ¬(k = { rows22.sstg with cnt := Config.cap }.cnt ∧ { rows22.sstg with cnt := Config.cap }.cnt < Config.cap) := by
  have := cap_ge
  exact ⟨by show Config.cap - 1 < Config.cap; omega, fun k h => Nat.lt_irrefl _ h.2⟩

theorem witness_SboxEndrowClosesTheRow : State.reset.sstg.isOpen = false ∧
    (withRows [2, 0] 0 2 none false).sstg.isOpen = true ∧ (withRows [2, 0] 0 2 none false).sstg.m = none ∧
    busy.sstg.isOpen = true ∧ busy.sstg.m = some 4 := by decide

/-- Counts up to 256 fit whatever SBOX_B_MAX is. -/
theorem fits_of {s : State} (h : s.sstg.cnt ≤ 256 ∧ s.sstg.cur = 0 ∧ s.sstg.rows ≤ 256) :
    s.sstg.cnt ≤ Config.cap ∧ s.stagedRows ≤ Config.cap := by
  have := cap_ge
  simp only [State.stagedRows, h.2.1, if_true]
  omega

theorem witness_SboxBuildRefuses_capacity :
    let s : State := { rows22 with sstg := { rows22.sstg with cnt := Config.cap + 1 } }
    s.sstg.isOpen = true ∧ ¬(s.sstg.cnt ≤ Config.cap ∧ s.stagedRows ≤ Config.cap) :=
  ⟨rfl, fun h => Nat.not_succ_le_self _ h.1⟩

theorem witness_SboxBuildRefuses_rows :
    let s := withRows [0, 1, 2, 3, 0, 1] 3 0 (some 2) false
    s.sstg.isOpen = true ∧ (s.sstg.cnt ≤ Config.cap ∧ s.stagedRows ≤ Config.cap) ∧ ¬∃ k, s.stagedRows = 2 ^ k := by
  refine ⟨rfl, fits_of (by decide), ?_⟩
  rintro ⟨k, hk⟩
  have h3 : (3 : Nat) = 2 ^ k := hk
  rcases k with _ | _ | k
  · simp at h3
  · simp at h3
  · rw [pow_succ, pow_succ] at h3; omega

theorem witness_SboxBuildRefuses_cols :
    let s := withRows [0, 1, 2] 2 0 (some 2) true
    s.sstg.isOpen = true ∧ (s.sstg.cnt ≤ Config.cap ∧ s.stagedRows ≤ Config.cap) ∧ (∃ k, s.stagedRows = 2 ^ k) ∧
      s.stagedRagged := ⟨rfl, fits_of (by decide), ⟨1, rfl⟩, .inl rfl⟩

theorem witness_SboxBuildRefuses_width :
    let s := withRows [0, 1, 1, 0] 2 0 (some 2) false
    s.sstg.isOpen = true ∧ (s.sstg.cnt ≤ Config.cap ∧ s.stagedRows ≤ Config.cap) ∧ s.stagedRows = 2 ^ 1 ∧
      s.stagedM = some (2 ^ 1) ∧ ¬s.stagedRagged ∧ ¬WidthIs s.sstgBufAt s.sstg.cnt (1 + 1) := by
  refine ⟨rfl, fits_of (by decide), rfl, rfl, ?_, ?_⟩
  · rintro (h | ⟨h, -⟩)
    · exact absurd h (by decide)
    · exact absurd rfl h
  · rintro ⟨-, h⟩
    exact absurd h (by decide)

theorem witness_SboxBuildInstallsTheTable : rows22.Inv ∧ rows22.sstg.isOpen = true ∧
    (rows22.sstg.cnt ≤ Config.cap ∧ rows22.stagedRows ≤ Config.cap) ∧ rows22.stagedRows = 2 ^ 1 ∧
    rows22.stagedM = some (2 ^ 1) ∧ ¬rows22.stagedRagged ∧ WidthIs rows22.sstgBufAt rows22.sstg.cnt (1 + 1) := by
  refine ⟨rows22_inv, rfl, fits_of (by decide), rfl, rfl, ?_, ?_⟩
  · rintro (h | ⟨h, -⟩)
    · exact absurd h (by decide)
    · exact absurd rfl h
  · exact ⟨by decide, by decide⟩

/-- The smallest table, `[[0]]`. -/
theorem witness_SboxBuildInstallsTheTable_one :
    let s := withRows [0] 1 0 (some 1) false
    s.Inv ∧ s.sstg.isOpen = true ∧ (s.sstg.cnt ≤ Config.cap ∧ s.stagedRows ≤ Config.cap) ∧ s.stagedRows = 2 ^ 0 ∧
      s.stagedM = some (2 ^ 0) ∧ ¬s.stagedRagged ∧ WidthIs s.sstgBufAt s.sstg.cnt (0 + 0) := by
  refine ⟨inv_of (fun h => absurd h (by decide)) (fun h => absurd h (by decide)) (by decide) (by decide), rfl,
    fits_of (by decide), rfl, rfl, ?_, ?_⟩
  · rintro (h | ⟨h, -⟩)
    · exact absurd h (by decide)
    · exact absurd rfl h
  · exact ⟨by decide, by decide⟩

theorem witness_InverseTableIsTheLargestPreimage : 1 + 1 ≤ 32 ∧ ([3, 0, 1, 1] : List Entry).length = 2 ^ (1 + 1) ∧
    ∀ e ∈ ([3, 0, 1, 1] : List Entry), e.toNat < 2 ^ (1 + 1) := ⟨by decide, rfl, by simp⟩

theorem witness_SboxBuildClosesTheOpenRowLocally : busy.sstg.isOpen = true ∧ 0 < busy.sstg.cur := by decide

theorem witness_SboxBuildClosesTheOpenRowLocally_empty :
    let s := withRows [] 0 0 none false
    s.sstg.isOpen = true ∧ s.sstg.cur = 0 ∧ s.sstg.rows = 0 ∧ s.sstg.cnt ≤ Config.cap :=
  ⟨rfl, rfl, rfl, Nat.zero_le _⟩

/-- Also of SboxInvSubstitutesBack: no instance, a wrong length, the right one, and b = 0. -/
theorem witness_SboxFwdSubstitutes : (State.reset.SboxInv ∧ State.reset.sbox.valid = false) ∧
    (sbox24.SboxInv ∧ sbox24.sbox.valid = true ∧ 4 ≠ sbox24.sbB ∧ 63 ≠ sbox24.sbB ∧ 3 = sbox24.sbB) ∧
    (sboxZero.SboxInv ∧ sboxZero.sbox.valid = true ∧ 0 = sboxZero.sbB) :=
  ⟨⟨reset_sboxInv, rfl⟩, ⟨sbox24_sboxInv, rfl, by decide, by decide, by decide⟩, sboxZero_sboxInv, rfl, by decide⟩

theorem witness_SboxTransformsAreInverseWhenBijective :
    sbox24.SboxInv ∧ sbox24.sbox.valid = true ∧ sbox24.SboxBijective ∧ 7 < 2 ^ sbox24.sbB :=
  ⟨sbox24_sboxInv, rfl, sbox24_bijective, by decide⟩

theorem witness_NonBijectiveTableLosesAVector :
    sboxGaps.SboxInv ∧ sboxGaps.sbox.valid = true ∧ ¬sboxGaps.SboxBijective :=
  ⟨sboxGaps_sboxInv, rfl, sboxGaps_not_bijective⟩

/-- Also of SboxRdiReadsTheInverseTable. -/
theorem witness_SboxRdfReadsTheTable : State.reset.sbox.valid = false ∧ sbox24.sbox.valid = true ∧
    2 ^ sbox24.sbB ≤ 8 ∧ 7 < 2 ^ sbox24.sbB ∧ 2 ^ sboxZero.sbB ≤ 1 ∧ 0 < 2 ^ sboxZero.sbB := by decide

/-! ## Witnesses: the PBox family -/

theorem witness_PboxPushAppendsOneValue : State.reset.pstg.isOpen = false ∧ (withValues []).pstg.isOpen = true ∧
    (withValues (List.replicate 31 1)).pstg.cnt < 32 ∧
    ¬(withValues (List.replicate 32 1)).pstg.cnt < 32 := by decide

theorem witness_PboxBuildRefuses_length : (withValues []).pstg.isOpen = true ∧ (withValues []).pstg.cnt = 0 ∧
    32 < (withValues (List.replicate 33 1)).pstg.cnt := by decide

/-- `[1, 4, 0]`, refused at index 1 by RANGE; `[1, 3, 3]`, refused at index 2 by DUPLICATE. -/
theorem witness_PboxBuildRefuses_values :
    (let s := withValues [1, 4, 0]
     let v := fun i => (s.pstgBufAt i).toNat
     s.pstg.isOpen = true ∧ s.pstg.cnt = 3 ∧ (∀ j < 1, 1 ≤ v j ∧ v j ≤ 3) ∧ (∀ j < 1, ∀ k < j, v j ≠ v k) ∧ 3 < v 1) ∧
    (let s := withValues [1, 3, 3]
     let v := fun i => (s.pstgBufAt i).toNat
     s.pstg.isOpen = true ∧ s.pstg.cnt = 3 ∧ (∀ j < 2, 1 ≤ v j ∧ v j ≤ 3) ∧ (∀ j < 2, ∀ k < j, v j ≠ v k) ∧
       1 ≤ v 2 ∧ v 2 ≤ 3 ∧ ∃ j < 2, v j = v 2) := by decide

/-- A zero at index 0. -/
theorem witness_PboxBuildRefuses_zero : ((withValues [0, 1]).pstgBufAt 0).toNat = 0 := by decide

/-- Also of PboxBuildAcceptsExactlyThePermutations. -/
theorem witness_PboxBuildInstallsThePermutation :
    let s := withValues [3, 1, 2]
    s.pstg.isOpen = true ∧ 1 ≤ s.pstg.cnt ∧ s.pstg.cnt ≤ 32 ∧ s.StagedPermutation s.pstg.cnt :=
  ⟨rfl, by decide, by decide, (bijOn_Icc_iff _ _).2 ⟨by decide, by decide⟩⟩

/-- The longest sequence, the identity of 32 values. -/
def identity32 : State := withValues ((List.range 32).map (fun i => BitVec.ofNat 32 (i + 1)))

/-- The shortest and the longest permutation. -/
theorem witness_PboxBuildInstallsThePermutation_ends :
    ((withValues [1]).pstg.cnt = 1 ∧ (withValues [1]).StagedPermutation 1) ∧
    (identity32.pstg.cnt = 32 ∧ identity32.StagedPermutation 32) := by
  have h : ∀ i < 32, (identity32.pstgBufAt i).toNat = i + 1 := by decide
  refine ⟨⟨rfl, (bijOn_Icc_iff _ _).2 ⟨by decide, by decide⟩⟩, by decide, (bijOn_Icc_iff _ _).2 ⟨?_, ?_⟩⟩
  · intro i hi
    have := h i hi
    omega
  · intro i hi j hj he
    have := h i hi
    have := h j hj
    omega

/-- Also of PboxInvPermutesTheBitsBack, PboxTransformsInIntegerForm and PboxTransformsAreInverse. -/
theorem witness_PboxFwdPermutesTheBits : (State.reset.PboxInv ∧ State.reset.pbox.valid = false) ∧
    (pbox8.PboxInv ∧ pbox8.pbox.valid = true ∧ 7 ≠ pbox8.pbN ∧ 63 ≠ pbox8.pbN ∧ 8 = pbox8.pbN ∧ 255 < 2 ^ pbox8.pbN) :=
  ⟨⟨reset_pboxInv, rfl⟩, pbox8_pboxInv, rfl, by decide, by decide, by decide, by decide⟩

/-- Also of PboxRdiReadsTheInversePermutation. -/
theorem witness_PboxRdfReadsThePermutation : State.reset.pbox.valid = false ∧ pbox8.pbox.valid = true ∧
    pbox8.pbN ≤ 8 ∧ 7 < pbox8.pbN := by decide

/-! ## Witnesses: the whole machine -/

/-- A successful build, a refused one, an illegal word and reset all step from states with the invariant. -/
theorem witness_EveryStepKeepsTheBlockInvariant :
    ({ rows22 with inputs := [.command 0x1300000000000000#64] } : State).Inv ∧
    nextOf (fun t => t.sbox.inv) (step { rows22 with inputs := [.command 0x1300000000000000#64] }) = some [1, 3, 0, 2] ∧
    ({ busy with inputs := [.reset] } : State).Inv ∧
    nextOf (fun t => t.pbox.valid) (step { busy with inputs := [.reset] }) = some false :=
  ⟨rows22_inv, by decide, busy_inv, by decide⟩

theorem witness_OnlyASuccessfulBuildWritesTheActiveInstance :
    nextOf (fun t => decide (t.sbox.valid = rows22.sbox.valid)) (exec .sboxBuild rows22) = some false ∧
    nextOf (fun t => decide (t.pbox.valid = (withValues [1]).pbox.valid)) (exec .pboxBuild (withValues [1])) =
      some false := by decide

theorem witness_NotConfiguredUntilABuildSucceeds : State.reset.HasResetValues ∧
    (∃ t, execAll [] State.reset = .next t ∧ t.sbox.valid = false ∧ t.pbox.valid = false) ∧
    (∃ t, execAll (sboxLoad [[2, 0], [3, 1]]) State.reset = .next t ∧ t.sbox.valid = true) ∧
    (∃ t, execAll (pboxLoad [2, 1]) State.reset = .next t ∧ t.pbox.valid = true) :=
  ⟨⟨rfl, rfl, rfl, rfl, rfl, rfl, rfl, rfl, rfl, rfl⟩, ⟨_, rfl, rfl, rfl⟩, ⟨_, rfl, rfl⟩, ⟨_, rfl, rfl⟩⟩

theorem witness_ReadsHaveNoSideEffect : Instr.isRead (.sboxFwd 3 6) = true ∧ Instr.isRead .getStatus = true ∧
    Instr.isRead (.pboxRdi 7) = true := by decide

/-- Two states that differ in a cell outside the index space, in the other instance and in the staging. -/
def sbox24Other : State := { rows22 with sbox := { sbox24.sbox with fwd := sbox24.sbox.fwd ++ [9], inv := sbox24.sbox.inv ++ [9] } }

theorem witness_TransformDependsOnlyOnItsInstance :
    sbox24.sbox.valid = sbox24Other.sbox.valid ∧ sbox24.sbox.logn = sbox24Other.sbox.logn ∧
    sbox24.sbox.logm = sbox24Other.sbox.logm ∧
    (∀ a < 2 ^ sbox24.sbB, sbox24.sbFwdAt a = sbox24Other.sbFwdAt a ∧ sbox24.sbInvAt a = sbox24Other.sbInvAt a) ∧
    pbox8.pbox.valid = busy.pbox.valid ∧ pbox8.pbox.n = busy.pbox.n ∧
    (∀ i < pbox8.pbN, pbox8.pbFwdAt i = busy.pbFwdAt i ∧ pbox8.pbInvAt i = busy.pbInvAt i) := by decide

/-- The same active instance over two resets, and with a cell outside the index space written in one of them. -/
theorem witness_UnspecifiedContentsAreUnobservable :
    sbox24.Inv ∧ sbox24.Agree { sbox24 with resets := 1, sbox := { sbox24.sbox with fwd := sbox24.sbox.fwd ++ [9] } } := by
  refine ⟨inv_of sbox24_sboxInv reset_pboxInv (by decide) (by decide), rfl, rfl, rfl,
    fun _ => ⟨rfl, rfl, by decide⟩, rfl, fun h => absurd h (by decide), rfl, rfl, rfl, rfl, rfl, rfl, ?_, rfl, rfl, ?_⟩
  · intro k hk
    have h0 : sbox24.sstg.cnt = 0 := rfl
    rw [h0] at hk
    omega
  · intro k hk
    have h0 : sbox24.pstg.cnt = 0 := rfl
    rw [h0] at hk
    omega

theorem witness_VectorsAbove32BitsAlwaysFail : 32 < 33 ∧ 33 < 64 ∧ 63 < 64 ∧ busy.Inv ∧ State.reset.Inv :=
  ⟨by decide, by decide, by decide, busy_inv, inv_of reset_sboxInv reset_pboxInv (by decide) (by decide)⟩

theorem witness_SboxLoadBuildsTheTable : 1 + 1 ≤ Config.sboxBMax ∧ [[2, 0], [3, 1]].length = 2 ^ 1 ∧
    (∀ row ∈ [[2, 0], [3, 1]], row.length = 2 ^ 1) ∧ (∀ row ∈ [[2, 0], [3, 1]], ∀ e ∈ row, bitlen e ≤ 1 + 1) ∧
    (∃ row ∈ [[2, 0], [3, 1]], ∃ e ∈ row, bitlen e = 1 + 1) ∧ 6 + 1 < (sboxLoad [[2, 0], [3, 1]]).length :=
  ⟨le_trans (by decide) sboxBMax_ge, by decide, by decide, by decide, by decide, by decide⟩

theorem witness_PboxLoadBuildsThePermutation : 1 ≤ [2, 1].length ∧ [2, 1].length ≤ 32 ∧ [2, 1].Nodup ∧
    (∀ v ∈ [2, 1], 1 ≤ v ∧ v ≤ [2, 1].length) ∧ 2 + 1 < (pboxLoad [2, 1]).length := by decide

end Sys2Proof.Tests
end

section
/-! The values of reset and the writers of the active instances (spec/10_state.md R38, R40). -/

namespace Sys2Proof.Machine

/-! ## Reset -/

theorem atReset_hasResetValues (k : Nat) (is : List HostInput) : (State.atReset k is).HasResetValues := by
  simp [State.HasResetValues]

/-- STATUS shows nothing while both VALID and both OPEN bits are 0: the dimensions are masked by VALID (R37). -/
theorem State.HasResetValues.status_eq_zero {s : State} (h : s.HasResetValues) : s.status = 0#32 := by
  obtain ⟨hsv, hpv, hso, -, -, -, -, -, hpo, -⟩ := h
  simp [State.status, statusBit, statusSboxDims, statusPboxDim, hsv, hpv, hso, hpo]

/-- A step on the reset input is the next reset (R230). -/
theorem step_of_reset {s : State} {rest : List HostInput} (h : s.inputs = .reset :: rest) :
    step s = .next (State.atReset (s.resets + 1) rest) := by
  simp [step, h, takeReset]

/-- Settles O13, from the values of every reset. -/
theorem resetStateHasTheSpecifiedValues : Obligations.ResetStateHasTheSpecifiedValues :=
  have h : State.reset.HasResetValues := atReset_hasResetValues 0 []
  ⟨h, h.status_eq_zero, atReset_rsp 0 []⟩

/-! ## Who writes the active instances -/

/-- A command that ends in `respond` answers OK. -/
theorem respond_answersOk {rlen rdata : Nat} {s t : State} (h : respond rlen rdata s = .next t) :
    ∃ r, t.rsp = some r ∧ rspSt r = 0#8 := by
  rw [respond_next h]
  exact ⟨_, rfl, rspSt_respondWord _ _ _⟩

/-- Responding leaves the active instances as the command's writes left them. -/
theorem respond_keeps_active {rlen rdata : Nat} {s t : State} (h : respond rlen rdata s = .next t) :
    t.sbox = s.sbox ∧ t.pbox = s.pbox := by
  rw [respond_next h]
  exact ⟨rfl, rfl⟩

theorem raise_keeps_active {e : Error} {s t : State} (h : raise e s = .next t) :
    t.sbox = s.sbox ∧ t.pbox = s.pbox := by
  rw [raise_next h]
  exact ⟨rfl, rfl⟩

/-- What a command can do to the active instances: nothing, or it is a BUILD answering OK that keeps what is active of
the other kind (R38). -/
theorem exec_active_cases {i : Instr} {s t : State} (h : exec i s = .next t) :
    (t.sbox = s.sbox ∧ t.pbox = s.pbox) ∨
    (i = .sboxBuild ∧ (∃ r, t.rsp = some r ∧ rspSt r = 0#8) ∧ t.pbox = s.pbox) ∨
    (i = .pboxBuild ∧ (∃ r, t.rsp = some r ∧ rspSt r = 0#8) ∧ t.sbox = s.sbox) := by
  rcases exec_outcome i s with ⟨_, he⟩ | ⟨-, _, _, he⟩ | ⟨-, he⟩ | ⟨_, -, -, he⟩ | ⟨-, -, he⟩ | ⟨_, _, hi, -, -, he⟩ |
    ⟨-, he⟩ | ⟨_, -, -, he⟩ | ⟨hi, -, -, he⟩ <;> rw [he] at h
  -- an error, and then the commands that respond: a read, the SBox load and its BUILD, the PBox load and its BUILD
  · exact .inl (raise_keeps_active h)
  all_goals obtain ⟨hs, hp⟩ := respond_keeps_active h
  · exact .inl ⟨hs, hp⟩
  · exact .inl ⟨hs, hp⟩
  · exact .inl ⟨hs, hp⟩
  · exact .inl ⟨hs, hp⟩
  · exact .inr (.inl ⟨hi, respond_answersOk h, hp⟩)
  · exact .inl ⟨hs, hp⟩
  · exact .inl ⟨hs, hp⟩
  · exact .inr (.inr ⟨hi, respond_answersOk h, hs⟩)

/-- Settles O51, from what a command can do to the active instances and the values of every reset. -/
theorem onlyASuccessfulBuildWritesTheActiveInstance : Obligations.OnlyASuccessfulBuildWritesTheActiveInstance := by
  refine ⟨fun i s t h => ?_, fun s t h ⟨rest, hr⟩ => ?_⟩
  · rcases exec_active_cases h with ⟨hs, hp⟩ | ⟨hi, hok, hp⟩ | ⟨hi, hok, hs⟩
    · exact ⟨fun hne => absurd hs hne, fun hne => absurd hp hne⟩
    · exact ⟨fun _ => ⟨hi, hok⟩, fun hne => absurd hp hne⟩
    · exact ⟨fun hne => absurd hs hne, fun _ => ⟨hi, hok⟩⟩
  · rw [step_of_reset hr] at h
    injection h with h
    subst h
    exact ⟨rfl, rfl⟩

end Sys2Proof.Machine
end

section
/-! A transform reads its operand and the active instance of its kind, and no command writes across the families
(spec/20_memory.md R59). -/

namespace Sys2Proof.Machine

/-! ## The address of a vector operand -/

/-- Splitting a vector at LN and joining the two integers gives the integer of the vector (R109). -/
theorem linearAddr_split {ln lm : Nat} {v : Bits} (h : v.length = ln + lm) :
    linearAddr lm (splitOuter ln v) (splitMiddle ln v) = bitsToNum v := by
  have hd : (v.drop ln).length = lm := by rw [List.length_drop, h]; omega
  have hj : splitMiddle ln v < 2 ^ lm := hd ▸ bitsToNum_lt (v.drop ln)
  calc linearAddr lm (splitOuter ln v) (splitMiddle ln v)
      = splitOuter ln v * 2 ^ lm + splitMiddle ln v := linearAddr_eq lm _ _ hj
    _ = bitsToNum (v.take ln ++ v.drop ln) := by
        rw [bitsToNum_append, hd, Nat.mul_comm]; rfl
    _ = bitsToNum v := by rw [List.take_append_drop]

/-- An operand of length LN + LM addresses a cell of the index space. -/
theorem linearAddr_split_operand_lt (ln lm data : Nat) {len : Nat} (h : len = ln + lm) :
    linearAddr lm (splitOuter ln (vectorOperand len data)) (splitMiddle ln (vectorOperand len data)) < 2 ^ (ln + lm) := by
  rw [linearAddr_split ((length_vectorOperand len data).trans h)]
  simpa [h] using bitsToNum_lt (vectorOperand len data)

/-- A scatter reads the first n positions of the permutation. -/
theorem permuteBits_congr {p q : Nat → Position} {n : Nat} (h : ∀ i < n, p i = q i) (v : Bits) :
    permuteBits p n v = permuteBits q n v := by
  refine List.foldl_ext _ _ _ fun vout i hi => ?_
  rw [h i (List.mem_range.1 hi)]

/-! ## What a transform reads -/

/-- Two SBox transforms over tables that agree on the index space, in states of the same dimensions, answer alike. -/
theorem sboxXform_congr {f g : Nat → Entry} {s t : State} (len data : Nat) (hv : s.sbox.valid = t.sbox.valid)
    (hn : s.sbox.logn = t.sbox.logn) (hm : s.sbox.logm = t.sbox.logm) (hfg : ∀ a < 2 ^ s.sbB, f a = g a) :
    ∃ r, sboxXform f len data s = .next (s.answering r) ∧ sboxXform g len data t = .next (t.answering r) := by
  have hb : s.sbB = t.sbB := by rw [State.sbB, State.sbB, hn, hm]
  cases hsv : s.sbox.valid with
  | false => exact ⟨_, sboxXform_notConfigured f len data s hsv, sboxXform_notConfigured g len data t (hv ▸ hsv)⟩
  | true =>
    by_cases hl : len = s.sbB
    · refine ⟨_, sboxXform_ok f len data s hsv hl, ?_⟩
      rw [hfg _ (linearAddr_split_operand_lt s.sbox.logn.toNat s.sbox.logm.toNat data hl), hn, hm, hb]
      exact sboxXform_ok g len data t (hv ▸ hsv) (hb ▸ hl)
    · exact ⟨_, sboxXform_length f len data s hsv hl, sboxXform_length g len data t (hv ▸ hsv) (hb ▸ hl)⟩

/-- Two PBox transforms over permutations that agree below PB_N, in states of the same PB_N, answer alike. -/
theorem pboxXform_congr {p q : Nat → Position} {s t : State} (len data : Nat) (hv : s.pbox.valid = t.pbox.valid)
    (hn : s.pbox.n = t.pbox.n) (hpq : ∀ i < s.pbN, p i = q i) :
    ∃ r, pboxXform p len data s = .next (s.answering r) ∧ pboxXform q len data t = .next (t.answering r) := by
  have hN : s.pbN = t.pbN := by rw [State.pbN, State.pbN, hn]
  cases hsv : s.pbox.valid with
  | false => exact ⟨_, pboxXform_notConfigured p len data s hsv, pboxXform_notConfigured q len data t (hv ▸ hsv)⟩
  | true =>
    by_cases hl : len = s.pbN
    · refine ⟨_, pboxXform_ok p len data s hsv hl, ?_⟩
      rw [permuteBits_congr hpq, hN]
      exact pboxXform_ok q len data t (hv ▸ hsv) (hN ▸ hl)
    · exact ⟨_, pboxXform_length p len data s hsv hl, pboxXform_length q len data t (hv ▸ hsv) (hN ▸ hl)⟩

/-! ## What a command writes -/

/-- The families have no command in common. -/
theorem not_isSbox_and_isPbox (i : Instr) : ¬(i.isSbox = true ∧ i.isPbox = true) := by
  cases i <;> simp [Instr.isSbox, Instr.isPbox]

/-- What a command writes beside its response: nothing, or the instance and the load of its own family. -/
theorem exec_write_cases {i : Instr} {s t : State} (h : exec i s = .next t) :
    (∃ r, t = s.answering r) ∨
    (i.isSbox = true ∧ ∃ sb sg r, t = { s with sbox := sb, sstg := sg, rsp := some r }) ∨
    (i.isPbox = true ∧ ∃ pb pg r, t = { s with pbox := pb, pstg := pg, rsp := some r }) := by
  rcases exec_outcome i s with ⟨_, he⟩ | ⟨-, _, _, he⟩ | ⟨rfl, he⟩ | ⟨_, rfl, -, he⟩ | ⟨rfl, -, he⟩ |
    ⟨_, _, rfl, -, -, he⟩ | ⟨rfl, he⟩ | ⟨_, rfl, -, he⟩ | ⟨rfl, -, -, he⟩ <;> rw [he] at h
  -- an error and a read; the SBox load and its BUILD; the PBox load and its BUILD
  · exact .inl ⟨_, raise_next h⟩
  all_goals have ht := respond_next h
  · exact .inl ⟨_, ht⟩
  · exact .inr (.inl ⟨rfl, _, _, _, ht⟩)
  · exact .inr (.inl ⟨rfl, _, _, _, ht⟩)
  · exact .inr (.inl ⟨rfl, _, _, _, ht⟩)
  · exact .inr (.inl ⟨rfl, _, _, _, ht⟩)
  · exact .inr (.inr ⟨rfl, _, _, _, ht⟩)
  · exact .inr (.inr ⟨rfl, _, _, _, ht⟩)
  · exact .inr (.inr ⟨rfl, _, _, _, ht⟩)

/-- Settles O54, from what a transform reads and what a command of each family writes. -/
theorem transformDependsOnlyOnItsInstance : Obligations.TransformDependsOnlyOnItsInstance := by
  refine ⟨fun s t len data hv hn hm hcells => ?_, fun s t len data hv hn hcells => ?_, fun i s t h => ?_⟩
  · obtain ⟨r, hsr, htr⟩ := sboxXform_congr len data hv hn hm fun a ha => (hcells a ha).1
    obtain ⟨q, hsq, htq⟩ := sboxXform_congr len data hv hn hm fun a ha => (hcells a ha).2
    exact ⟨r, q, hsr, htr, hsq, htq⟩
  · obtain ⟨r, hsr, htr⟩ := pboxXform_congr len data hv hn fun i hi => (hcells i hi).1
    obtain ⟨q, hsq, htq⟩ := pboxXform_congr len data hv hn fun i hi => (hcells i hi).2
    exact ⟨r, q, hsr, htr, hsq, htq⟩
  · rcases exec_write_cases h with ⟨r, rfl⟩ | ⟨hs, sb, sg, r, rfl⟩ | ⟨hp, pb, pg, r, rfl⟩
    · exact ⟨fun _ => ⟨rfl, rfl, rfl, rfl⟩, fun _ => ⟨rfl, rfl, rfl, rfl⟩⟩
    · exact ⟨fun _ => ⟨rfl, rfl, rfl, rfl⟩, fun hp => absurd ⟨hs, hp⟩ (not_isSbox_and_isPbox i)⟩
    · exact ⟨fun hs => absurd ⟨hs, hp⟩ (not_isSbox_and_isPbox i), fun _ => ⟨rfl, rfl, rfl, rfl⟩⟩

end Sys2Proof.Machine
end

section
/-! Acceptance of a word by the rows of the opcode table, and illegal words (spec/30_encoding.md R79, R80). -/

namespace Sys2Proof

/-! ## The rows of the opcode table -/

/-- OPC tells the rows apart. -/
theorem row_eq_of_opc_eq {r q : OpcodeRow} (hr : r ∈ opcodeTable) (hq : q ∈ opcodeTable) (h : r.opc = q.opc) : r = q :=
  List.inj_on_of_nodup_map (f := OpcodeRow.opc) (by decide) hr hq h

theorem row_opc_lt {r : OpcodeRow} (h : r ∈ opcodeTable) : r.opc < 2 ^ 8 :=
  (by decide : ∀ r ∈ opcodeTable, r.opc < 2 ^ 8) r h

/-- The opcode map names a command of the row's format at the OPC of every row. -/
theorem opcodeRow_of_mem {r : OpcodeRow} (h : r ∈ opcodeTable) (len data : Nat) :
    ∃ i, opcodeRow r.opc len data = some (r.format, i) := by
  fin_cases h <;> exact ⟨_, rfl⟩

/-! ## What a row accepts -/

/-- The OPC and the fields a word must have 0 for a row to accept it, as the decoder reads them. -/
theorem accepts_iff {r : OpcodeRow} (h : r ∈ opcodeTable) (w : PortWord) :
    r.accepts w ↔ fieldOpc w = r.opc ∧ fieldRsvHigh w = 0 ∧ (r.format ≠ .v → fieldLen w = 0) ∧ fieldRsvLow w = 0 ∧
      (r.format = .n → fieldData w = 0) := by
  obtain ⟨opc, rh, len, rl, data, rfl⟩ := exists_packWord w
  have ho : (BitVec.ofNat 8 r.opc).toNat = r.opc := by rw [BitVec.toNat_ofNat, Nat.mod_eq_of_lt (row_opc_lt h)]
  have ha := accepts_packWord (BitVec.ofNat 8 r.opc) opc r.format rh len rl data
  rw [ho] at ha
  rw [ha]
  simp [← BitVec.toNat_inj, ho]

theorem fieldOpc_of_accepts {r : OpcodeRow} {w : PortWord} (h : r ∈ opcodeTable) (ha : r.accepts w) :
    fieldOpc w = r.opc :=
  ((accepts_iff h w).1 ha).1

/-- The row of the command that a word decodes to is in the opcode table and accepts the word. -/
theorem decode_ok_row {w : PortWord} {i : Instr} (h : decode w = .ok i) :
    (⟨i.opc, i.format⟩ : OpcodeRow) ∈ opcodeTable ∧ (⟨i.opc, i.format⟩ : OpcodeRow).accepts w := by
  obtain ⟨hrow, hhigh, hlow, hlen, hdata⟩ := decode_ok h
  obtain ⟨hopc, -, hmem, -⟩ := opcodeRow_some hrow
  rw [← hopc] at hmem
  exact ⟨hmem, (accepts_iff hmem w).2 ⟨hopc.symm, hhigh, hlen, hlow, hdata⟩⟩

/-- LEN and DATA of the command are the fields of the word: where the format has none, the field is 0. -/
theorem decode_ok_operands {w : PortWord} {i : Instr} (h : decode w = .ok i) :
    i.len = fieldLen w ∧ i.data = fieldData w := by
  obtain ⟨hrow, -, -, hlen, hdata⟩ := decode_ok h
  obtain ⟨-, -, -, hl, hd, -⟩ := opcodeRow_some hrow
  rw [hl, hd, ite_eq_left_iff, ite_eq_right_iff]
  exact ⟨fun hv => (hlen hv).symm, fun hn => (hdata hn).symm⟩

/-- A word that a row accepts decodes: it passes each of the decoder's checks. -/
theorem exists_decode_of_accepts {r : OpcodeRow} {w : PortWord} (h : r ∈ opcodeTable) (ha : r.accepts w) :
    ∃ i, decode w = .ok i := by
  obtain ⟨hopc, hhigh, hlen, hlow, hdata⟩ := (accepts_iff h w).1 ha
  obtain ⟨i, hi⟩ := opcodeRow_of_mem h (fieldLen w) (fieldData w)
  refine ⟨i, ?_⟩
  rw [← hopc] at hi
  have hl : ¬(r.format ≠ .v ∧ fieldLen w ≠ 0) := fun hc => hc.2 (hlen hc.1)
  have hd : ¬(r.format = .n ∧ fieldData w ≠ 0) := fun hc => hc.2 (hdata hc.1)
  simp [decode, hi, hhigh, hlow, hl, hd]

/-- Settles O4: a row that accepts a word has the OPC of the word, and OPC tells the rows apart. -/
theorem wordAcceptedIffExactlyOneRowMatches : Obligations.WordAcceptedIffExactlyOneRowMatches := by
  refine fun w => ⟨⟨fun ⟨i, hi⟩ => ?_, fun ⟨r, ⟨hr, ha⟩, _⟩ => exists_decode_of_accepts hr ha⟩, fun i hi => ?_⟩
  · obtain ⟨hmem, hacc⟩ := decode_ok_row hi
    refine ⟨_, ⟨hmem, hacc⟩, fun q ⟨hq, hqa⟩ => row_eq_of_opc_eq hq hmem ?_⟩
    rw [← fieldOpc_of_accepts hq hqa, fieldOpc_of_accepts hmem hacc]
  · obtain ⟨hmem, hacc⟩ := decode_ok_row hi
    obtain ⟨hl, hd⟩ := decode_ok_operands hi
    exact ⟨hmem, hacc, by rw [hl, fieldLen, BitVec.extractLsb'_toNat],
      by rw [hd, fieldData, BitVec.extractLsb'_toNat, Nat.shiftRight_zero]⟩

/-! ## Illegal words -/

/-- A word that decodes has the OPC of a row, and that row accepts it. -/
theorem exists_row_of_decode_ok {w : PortWord} {i : Instr} (h : decode w = .ok i) :
    ∃ r ∈ opcodeTable, (w.extractLsb' 56 8).toNat = r.opc ∧ r.accepts w := by
  obtain ⟨hmem, hacc⟩ := decode_ok_row h
  exact ⟨_, hmem, (BitVec.extractLsb'_toNat ..).trans (fieldOpc_of_accepts hmem hacc), hacc⟩

/-- The ranges of R80 hold no assigned opcode. -/
theorem row_opc_assigned : ∀ r ∈ opcodeTable,
    ¬((0x02 ≤ r.opc ∧ r.opc ≤ 0x0F) ∨ (0x18 ≤ r.opc ∧ r.opc ≤ 0x1F) ∨ (0x27 ≤ r.opc ∧ r.opc ≤ 0xFF)) := by
  decide

end Sys2Proof

namespace Sys2Proof.Machine

/-- The response to an illegal word, ST = 5 and every other field 0 (R201, R205). -/
theorem raiseWord_illegalCommand : raiseWord .illegalCommand = 0x0500000000000000#64 := by decide

/-- A step on a word that decoding rejects raises ILLEGAL_COMMAND (R80). -/
theorem step_of_illegal {s : State} {w : PortWord} {rest : List HostInput} (hs : s.inputs = .command w :: rest)
    (hw : ∀ i, decode w ≠ .ok i) : step s = raise .illegalCommand { s with inputs := rest } := by
  cases hd : decode w with
  | ok i => exact absurd hd (hw i)
  | error e => simp [step, hs, hd]

/-- Settles O5: decoding rejects a word of no row's OPC, and a word that the one row of its OPC does not accept. -/
theorem illegalWordRaisesAndChangesNothing : Obligations.IllegalWordRaisesAndChangesNothing := by
  refine ⟨fun s w rest hs hw => ?_, fun w hopc i hi => ?_, fun w r hr hopc hne i hi => ?_⟩
  · rw [step_of_illegal hs hw, raise, raiseWord_illegalCommand]
    rfl
  · obtain ⟨r, hr, hro, -⟩ := exists_row_of_decode_ok hi
    exact row_opc_assigned r hr (hro ▸ hopc)
  · obtain ⟨q, hq, hqo, hacc⟩ := exists_row_of_decode_ok hi
    obtain rfl := row_eq_of_opc_eq hr hq (hopc.symm.trans hqo)
    exact hne hacc

end Sys2Proof.Machine
end

section
/-! The laws of the codec and of the width functions (spec/40_codec.md R103 to R106). -/

namespace Sys2Proof.Machine

/-! ## The round trips of the codec -/

/-- The least significant bit comes last; the bits before it spell the rest. -/
theorem numToBits_concat (x L : Nat) (b : Bool) : numToBits (2 * x + b.toNat) (L + 1) = numToBits x L ++ [b] := by
  have hlow : (2 * x + b.toNat).testBit 0 = b := by cases b <;> simp [Nat.testBit_zero]
  have hhigh : (2 * x + b.toNat).testBit ∘ Nat.succ = x.testBit := by
    funext i
    have hdiv : (2 * x + b.toNat) / 2 = x := by have := b.toNat_lt; omega
    rw [Function.comp_apply, Nat.testBit_succ, hdiv]
  simp [numToBits, List.range_succ_eq_map, hlow, hhigh]

/-- Reading a vector and writing the integer back, at the vector's length, loses nothing. -/
theorem numToBits_bitsToNum (v : Bits) : numToBits (bitsToNum v) v.length = v := by
  induction v using List.reverseRecOn with
  | nil => simp
  | append_singleton v b ih => rw [bitsToNum_concat, List.length_append, List.length_singleton, numToBits_concat, ih]

/-- Writing L bits of an integer keeps its residue mod 2^L: each further bit adds its own power of two. -/
theorem bitsToNum_numToBits (x L : Nat) : bitsToNum (numToBits x L) = x % 2 ^ L := by
  induction L with
  | zero => simp [Nat.mod_one]
  | succ L ih =>
    rw [numToBits_succ, bitsToNum_cons, length_numToBits, ih, Nat.toNat_testBit, Nat.mod_pow_succ, Nat.add_comm]

/-- Settles O16, from the two round trips. -/
theorem codecRoundTrips : Obligations.CodecRoundTrips :=
  ⟨numToBits_bitsToNum, fun x L h => by rw [bitsToNum_numToBits, Nat.mod_eq_of_lt h], bitsToNum_numToBits⟩

/-! ## ceil_log -/

/-- The loop computes the ceiling logarithm when its fuel covers n: each round leaves half of n, rounded up. -/
theorem ceilLogLoop_eq_clog {fuel n : Nat} (h : n ≤ fuel + 1) : ceilLogLoop fuel n = Nat.clog 2 n := by
  induction fuel generalizing n with
  | zero => rw [ceilLogLoop, Nat.clog_of_right_le_one h]
  | succ fuel ih =>
    rw [ceilLogLoop]
    split
    case isTrue hn =>
      have hhalf : (n + 1) >>> 1 ≤ fuel + 1 := by rw [Nat.shiftRight_eq_div_pow]; omega
      rw [ih hhalf, Nat.clog_of_one_lt one_lt_two hn]
      rfl
    case isFalse hn => rw [Nat.clog_of_right_le_one (Nat.le_of_not_gt hn)]

/-- `ceil_log` is the ceiling of the logarithm to base 2. -/
theorem ceilLog_eq_clog (n : Nat) : ceilLog n = Nat.clog 2 n := ceilLogLoop_eq_clog n.le_succ

theorem ceilLog_le_iff {n c : Nat} : ceilLog n ≤ c ↔ n ≤ 2 ^ c := by
  rw [ceilLog_eq_clog, Nat.clog_le_iff_le_pow one_lt_two]

/-- The recurrence of R104: halve, rounding up, and count. -/
theorem ceilLog_of_one_lt {n : Nat} (h : 1 < n) : ceilLog n = ceilLog ((n + 1) / 2) + 1 := by
  rw [ceilLog_eq_clog, ceilLog_eq_clog, Nat.clog_of_one_lt one_lt_two h]
  rfl

theorem ceilLog_of_le_one {n : Nat} (h : n ≤ 1) : ceilLog n = 0 := by
  rw [ceilLog_eq_clog, Nat.clog_of_right_le_one h]

/-- Settles O18: 2^c ≥ n holds of c exactly from ceil_log(n) on. -/
theorem ceilLogIsMinimal : Obligations.CeilLogIsMinimal := by
  refine ⟨fun n _ => ⟨ceilLog_le_iff.1 le_rfl, fun c => ceilLog_le_iff.2⟩, fun n => ?_⟩
  split
  case isTrue h => exact ceilLog_of_one_lt h
  case isFalse h => exact ceilLog_of_le_one (Nat.le_of_not_gt h)

/-! ## bitlen -/

/-- An integer fits k bits exactly when its bit length is at most k. -/
theorem bitlen_le_iff {v k : Nat} : bitlen v ≤ k ↔ v < 2 ^ k := by
  rw [bitlen]
  split
  case isTrue h => simp [h]
  case isFalse h => exact Nat.log2_lt h

/-- The bit length is j + 1 exactly when j + 1 bits suffice and j do not. -/
theorem bitlen_eq_succ_iff {v j : Nat} : bitlen v = j + 1 ↔ 2 ^ j ≤ v ∧ v < 2 ^ (j + 1) := by
  rw [← Nat.not_lt, ← bitlen_le_iff, ← bitlen_le_iff]
  omega

/-- Settles O19, from the bounds that a bit length gives; only 0 has bit length 0. -/
theorem bitlenIsTheWidth : Obligations.BitlenIsTheWidth := by
  refine ⟨rfl, fun v k hv => ?_, fun v k => bitlen_le_iff.symm⟩
  cases k with
  | zero =>
    have hne : bitlen v ≠ 0 := fun h => by have := bitlen_le_iff.1 h.le; omega
    simp [hne]
  | succ j => simp [bitlen_eq_succ_iff]

/-! ## is_pow2 -/

/-- Settles O20: on x ≥ 1 the test clears the lowest set bit, and what remains is 0 only for a power of two. -/
theorem powerOfTwoTest : Obligations.PowerOfTwoTest := fun x =>
  calc isPow2 x = true ↔ x ≠ 0 ∧ x &&& (x - 1) = 0 := by simp [isPow2, Nat.one_le_iff_ne_zero]
    _ ↔ x.isPowerOfTwo := Nat.ne_zero_and_sub_one_eq_zero_iff_isPowerOfTwo
    _ ↔ ∃ k, x = 2 ^ k := Iff.rfl

end Sys2Proof.Machine
end

section
/-! The SBox load: SBOX_BEGIN, SBOX_PUSH and SBOX_ENDROW (spec/41_sbox.md R120 to R122), and the responses as words
(spec/30_encoding.md R76). -/

namespace Sys2Proof.Machine

/-! ## Responses as words -/

theorem raise_notConfigured (s : State) : raise .notConfigured s = .next (s.answering 0x0400000000000000#64) := rfl

theorem raise_invalidInputLength (s : State) :
    raise .invalidInputLength s = .next (s.answering 0x0300000000000000#64) := rfl

theorem raise_sequenceError (s : State) : raise .sequenceError s = .next (s.answering 0x0600000000000000#64) := rfl

theorem raise_indexRange (s : State) : raise .indexRange s = .next (s.answering 0x0700000000000000#64) := rfl

theorem raise_invalidTable (c : TableCause) (s : State) :
    raise (.invalidTable c) s = .next (s.answering (errWord 1 c.code.toNat)) := by
  cases c <;> rfl

/-- A response that carries nothing is the word 0. -/
theorem respond_zero (s : State) : respond 0 0 s = .next (s.answering 0x0000000000000000#64) := rfl

theorem respond_okWord {rlen rdata : Nat} (s : State) (h : rlen < 2 ^ 6) (h' : rdata < 2 ^ 32) :
    respond rlen rdata s = .next (s.answering (okWord rlen rdata)) :=
  respond_eq rlen rdata s h h'

/-- An integer that fits the width is kept whole. -/
theorem toNat_ofNat_of_lt {w n : Nat} (h : n < 2 ^ w) : (BitVec.ofNat w n).toNat = n :=
  (BitVec.toNat_ofNat n w).trans (Nat.mod_eq_of_lt h)

/-! ## SBOX_BEGIN -/

/-- Settles O23, from the response to a command that carries nothing. -/
theorem sboxBeginOpensAnEmptyLoad : Obligations.SboxBeginOpensAnEmptyLoad :=
  ⟨by decide, fun _ => respond_zero _⟩

/-! ## SBOX_PUSH -/

section append
variable (v : Entry) (s : State)

@[simp] theorem sboxAppend_cnt : (sboxAppend v s).cnt = min (s.sstg.cnt + 1) (Config.cap + 1) := sat_eq_min _

@[simp] theorem sboxAppend_cur : (sboxAppend v s).cur = min (s.sstg.cur + 1) (Config.cap + 1) := sat_eq_min _

/-- Below capacity the entry is written at SSTG_CNT (R121). -/
theorem sboxAppend_buf_of_lt (h : s.sstg.cnt < Config.cap) :
    (sboxAppend v s).buf = Cells.write (Config.resetSstgBuf s.resets) s.sstg.buf s.sstg.cnt v :=
  if_pos ((fitsCap_iff _).2 h)

/-- At capacity nothing is written (R121). -/
theorem sboxAppend_buf_of_ge (h : Config.cap ≤ s.sstg.cnt) : (sboxAppend v s).buf = s.sstg.buf :=
  if_neg fun hf => by have := (fitsCap_iff _).1 hf; omega

theorem sstgBufAt_sboxAppend_same (h : s.sstg.cnt < Config.cap) :
    ({ s with sstg := sboxAppend v s } : State).sstgBufAt s.sstg.cnt = v := by
  rw [State.sstgBufAt, sboxAppend_buf_of_lt v s h, Cells.read_write_same]

theorem sstgBufAt_sboxAppend_other {k : Nat} (h : ¬(k = s.sstg.cnt ∧ s.sstg.cnt < Config.cap)) :
    ({ s with sstg := sboxAppend v s } : State).sstgBufAt k = s.sstgBufAt k := by
  rcases Nat.lt_or_ge s.sstg.cnt Config.cap with hlt | hge
  · rw [State.sstgBufAt, sboxAppend_buf_of_lt v s hlt, Cells.read_write_other _ _ _ _ _ fun hk => h ⟨hk, hlt⟩]
    rfl
  · rw [State.sstgBufAt, sboxAppend_buf_of_ge v s hge]
    rfl

end append

/-- DATA of a command word is the entry pushed, whole. -/
theorem toNat_pushOperand {data : Nat} (h : data < 2 ^ 32) : (pushOperand data).toNat = data :=
  toNat_ofNat_of_lt h

/-- Settles O24, from what appending an entry leaves in each element of the load. -/
theorem sboxPushAppendsOneEntry : Obligations.SboxPushAppendsOneEntry := by
  refine fun data hd => ⟨decode_wordD (by decide) (fun _ _ => rfl) hd, fun s => ⟨fun hclosed => ?_, fun hopen => ?_⟩⟩
  · exact (execSboxPush_closed data s hclosed).trans (raise_sequenceError s)
  · refine ⟨_, (execSboxPush_open data s hopen).trans (respond_zero _), rfl, sboxAppend_cnt _ s, sboxAppend_cur _ s,
      fun hlt => ?_, fun k hk => sstgBufAt_sboxAppend_other _ s hk, rfl⟩
    exact (congrArg BitVec.toNat (sstgBufAt_sboxAppend_same _ s hlt)).trans (toNat_pushOperand hd)

/-! ## SBOX_ENDROW -/

/-- Closing a row writes the row bookkeeping and nothing else of the load (R122). -/
theorem closeRow_eq (g : SboxStaging) : closeRow g =
    { g with rows := (closeRow g).rows, cur := 0, m := (closeRow g).m, ragged := (closeRow g).ragged } := by
  unfold closeRow; split <;> rfl

/-- Settles O25, from what closing a row leaves in each element of the load. -/
theorem sboxEndrowClosesTheRow : Obligations.SboxEndrowClosesTheRow := by
  refine ⟨by decide, fun s => ⟨fun hclosed => ?_, fun hopen => ?_⟩⟩
  · exact (execSboxEndrow_closed s hclosed).trans (raise_sequenceError s)
  · refine ⟨_, (execSboxEndrow_open s hopen).trans (respond_zero _), rfl, closeRow_rows _, closeRow_cur _,
      fun hm => ?_, fun m hm => ?_, ?_⟩
    · simp [State.answering, hm]
    · simp [State.answering, hm, ne_comm (a := m)]
    · exact congrArg (fun g => ({ s with sstg := g } : State).answering 0#64) (closeRow_eq s.sstg)

end Sys2Proof.Machine
end

section
/-! SBOX_BUILD: the verdict on a staged table, the installed table, and the open row closed in local copies
(spec/41_sbox.md R123 to R132). -/

namespace Sys2Proof.Machine

/-! ## Powers of two -/

@[simp] theorem isPow2_two_pow (k : Nat) : isPow2 (2 ^ k) = true := (powerOfTwoTest _).2 ⟨k, rfl⟩

@[simp] theorem ceilLog_two_pow (k : Nat) : ceilLog (2 ^ k) = k := by
  rw [ceilLog_eq_clog, Nat.clog_pow 2 k one_lt_two]

theorem isPow2_eq_false_iff {x : Nat} : isPow2 x = false ↔ ¬∃ k, x = 2 ^ k := by
  rw [← powerOfTwoTest x, Bool.not_eq_true]

/-- A column count that is no power of two is NONE or fails the test. -/
theorem getD_zero_of_not_two_pow {m : Option Nat} (h : ¬∃ k, m = some (2 ^ k)) :
    m.getD 0 = 0 ∨ isPow2 (m.getD 0) = false := by
  cases m with
  | none => exact .inl rfl
  | some m => exact .inr (isPow2_eq_false_iff.2 fun ⟨k, hk⟩ => h ⟨k, congrArg some hk⟩)

/-! ## The verdict on a staged table -/

/-- The verdict that SBOX_BUILD reaches on the load of a state (R123, R124). -/
def State.tableVerdict (s : State) : Except TableCause (Nat × Nat) :=
  sboxVerdict (sboxClosed s.sstg) (s.sstgFirst s.sstg.cnt)

/-- The staged table fits the capacity (R125). -/
def State.FitsCapacity (s : State) : Prop := s.sstg.cnt ≤ Config.cap ∧ s.stagedRows ≤ Config.cap

section verdict
variable {s : State}

theorem tableVerdict_capacity (h : ¬s.FitsCapacity) : s.tableVerdict = .error .capacity := by
  apply sboxVerdict_capacity
  rw [sboxClosed_cnt, sboxClosed_rows, ← Nat.not_le, ← Nat.not_le]
  exact not_and_or.1 h

theorem tableVerdict_rows (hf : s.FitsCapacity) (h : ¬∃ k, s.stagedRows = 2 ^ k) : s.tableVerdict = .error .rows := by
  obtain ⟨hc, hr⟩ := hf
  rw [← sboxClosed_rows] at hr h
  exact sboxVerdict_rows _ _ (by simpa using hc) hr (.inr (isPow2_eq_false_iff.2 h))

theorem tableVerdict_cols (hf : s.FitsCapacity) (hn : ∃ k, s.stagedRows = 2 ^ k)
    (h : s.stagedRagged ∨ ¬∃ k, s.stagedM = some (2 ^ k)) : s.tableVerdict = .error .cols := by
  obtain ⟨hc, hr⟩ := hf
  rw [← sboxClosed_rows] at hr hn
  rw [← sboxClosed_ragged, ← sboxClosed_m] at h
  exact sboxVerdict_cols _ _ (by simpa using hc) hr ((powerOfTwoTest _).2 hn) (h.imp_right getD_zero_of_not_two_pow)

/-- With the three structural checks passed, the width decides (R130). -/
theorem tableVerdict_of_structure {ln lm : Nat} (hf : s.FitsCapacity) (hn : s.stagedRows = 2 ^ ln)
    (hm : s.stagedM = some (2 ^ lm)) (hg : ¬s.stagedRagged) : s.tableVerdict =
      if maxBitlen (s.sstgFirst s.sstg.cnt) ≠ ln + lm then .error .width else .ok (ln, lm) := by
  obtain ⟨hc, hr⟩ := hf
  rw [← sboxClosed_rows] at hr hn
  rw [← sboxClosed_m] at hm
  rw [← sboxClosed_ragged, Bool.not_eq_true] at hg
  have h := sboxVerdict_width _ (s.sstgFirst s.sstg.cnt) (by simpa using hc) hr (by simp [hn]) hg hm (isPow2_two_pow lm)
  rwa [hn, ceilLog_two_pow, ceilLog_two_pow] at h

theorem tableVerdict_width {ln lm : Nat} (hf : s.FitsCapacity) (hn : s.stagedRows = 2 ^ ln)
    (hm : s.stagedM = some (2 ^ lm)) (hg : ¬s.stagedRagged) (hw : ¬WidthIs s.sstgBufAt s.sstg.cnt (ln + lm)) :
    s.tableVerdict = .error .width := by
  rw [tableVerdict_of_structure hf hn hm hg, if_pos (by rwa [Ne, maxBitlen_sstgFirst_eq_iff])]

theorem tableVerdict_ok {ln lm : Nat} (hf : s.FitsCapacity) (hn : s.stagedRows = 2 ^ ln)
    (hm : s.stagedM = some (2 ^ lm)) (hg : ¬s.stagedRagged) (hw : WidthIs s.sstgBufAt s.sstg.cnt (ln + lm)) :
    s.tableVerdict = .ok (ln, lm) := by
  rw [tableVerdict_of_structure hf hn hm hg, if_neg (by rwa [not_not, maxBitlen_sstgFirst_eq_iff])]

/-- SBOX_BUILD raises the cause of a refusing verdict. -/
theorem execSboxBuild_of_error (c : TableCause) (ho : s.sstg.isOpen = true) (h : s.tableVerdict = .error c) :
    execSboxBuild s = .next (s.answering (errWord 1 c.code.toNat)) :=
  (execSboxBuild_refused s ho h).trans (raise_invalidTable c s)

/-- SBOX_BUILD installs the table of an accepting verdict. -/
theorem execSboxBuild_of_ok {ln lm : Nat} (ho : s.sstg.isOpen = true) (h : s.tableVerdict = .ok (ln, lm)) :
    execSboxBuild s = respond (ln + lm) 0 (sboxInstall ln lm s) :=
  execSboxBuild_installs s ho h

end verdict

/-- Settles O26, from the verdict in each case of the first check that fails. -/
theorem sboxBuildRefusesByTheFirstFailedCheck : Obligations.SboxBuildRefusesByTheFirstFailedCheck := by
  refine fun s => ⟨fun hclosed => (execSboxBuild_closed s hclosed).trans (raise_sequenceError s), fun ho => ?_⟩
  exact ⟨fun hf => execSboxBuild_of_error .capacity ho (tableVerdict_capacity hf),
    fun hf hn => execSboxBuild_of_error .rows ho (tableVerdict_rows hf hn),
    fun hf hn h => execSboxBuild_of_error .cols ho (tableVerdict_cols hf hn h),
    fun _ _ hf hn hm hg hw => execSboxBuild_of_error .width ho (tableVerdict_width hf hn hm hg hw)⟩

/-! ## The installed table -/

section install
variable {ln lm a : Nat} (s : State)

theorem sbFwdAt_sboxInstall_lt (h : a < 2 ^ (ln + lm)) : (sboxInstall ln lm s).sbFwdAt a = s.sstgBufAt a := by
  rw [State.sbFwdAt, sboxInstall_fwd, Cells.read_install_lt _ _ _ (by simpa using h)]
  exact Cells.getElem_first ..

theorem sbInvAt_sboxInstall_lt (h : a < 2 ^ (ln + lm)) : some ((sboxInstall ln lm s).sbInvAt a) =
    (inverseTableBuilder ((List.range (2 ^ (ln + lm))).map s.sstgBufAt) ln lm)[a]? := by
  rw [State.sbInvAt, sboxInstall_inv, Cells.read_install_lt _ _ _ (by simpa using h), ← List.getElem?_eq_getElem,
    sstgFirst_eq_map]

theorem sbFwdAt_sboxInstall_ge (h : 2 ^ (ln + lm) ≤ a) : (sboxInstall ln lm s).sbFwdAt a = s.sbFwdAt a := by
  rw [State.sbFwdAt, sboxInstall_fwd, Cells.read_install_ge _ _ _ (by simpa using h)]
  rfl

theorem sbInvAt_sboxInstall_ge (h : 2 ^ (ln + lm) ≤ a) : (sboxInstall ln lm s).sbInvAt a = s.sbInvAt a := by
  rw [State.sbInvAt, sboxInstall_inv, Cells.read_install_ge _ _ _ (by simpa using h)]
  rfl

end install

/-- A rectangular table of n rows and m columns that did not overflow has n · m entries staged (R125). -/
theorem State.SstgInv.cnt_eq {s : State} {n m : Nat} (h : s.SstgInv) (hf : s.FitsCapacity) (hn : s.stagedRows = n)
    (hm : s.stagedM = some m) (hg : ¬s.stagedRagged) : s.sstg.cnt = n * m := by
  obtain ⟨hc, hr⟩ := hf
  obtain ⟨-, -, -, -, hnone, -, hcount⟩ := h
  obtain ⟨hragged, hlast⟩ := not_or.1 hg
  replace hcount := hcount hc (Bool.eq_false_of_not_eq_true hragged)
  by_cases hcur : s.sstg.cur = 0
  case pos =>
    rw [State.stagedRows, if_pos hcur] at hn
    rw [State.stagedM, if_pos hcur] at hm
    simpa [hcur, hn, hm] using hcount
  case neg =>
    have hrows : s.sstg.rows + 1 = n := by
      rw [State.stagedRows, if_neg hcur] at hn hr
      omega
    rw [State.stagedM, if_neg hcur] at hm
    rw [hcount, ← hrows]
    cases hfirst : s.sstg.m with
    | none =>
      -- the open row is the first one
      have : s.sstg.cur = m := by simpa [hfirst] using hm
      simp [hnone.1 hfirst, this]
    | some c =>
      -- the open row is as long as the first one
      have hcm : c = m := by simpa [hfirst] using hm
      have hcc : s.sstg.cur = c := by
        by_contra hne
        exact hlast ⟨hcur, c, hfirst, hne⟩
      rw [Option.getD_some, hcc, hcm, Nat.succ_mul]

/-- The width of a table that fits the capacity is at most 32 (R6). -/
theorem width_le_of_two_pow_le_cap {b : Nat} (h : 2 ^ b ≤ Config.cap) : b ≤ 32 :=
  ((Nat.pow_le_pow_iff_right one_lt_two).1 h).trans sboxBMax_le

/-- Settles O27, from the verdict on the table, its entry count, and what installing it leaves in each cell. -/
theorem sboxBuildInstallsTheTable : Obligations.SboxBuildInstallsTheTable := by
  intro s ln lm ⟨_, _, hs, _⟩ ho hc hr hn hm hg hw
  have hcnt : s.sstg.cnt = 2 ^ (ln + lm) := by rw [hs.cnt_eq ⟨hc, hr⟩ hn hm hg, pow_add]
  have hb : ln + lm ≤ 32 := width_le_of_two_pow_le_cap (hcnt ▸ hc)
  have hexec := (execSboxBuild_of_ok ho (tableVerdict_ok ⟨hc, hr⟩ hn hm hg hw)).trans
    (respond_okWord _ (by omega) (by decide))
  exact ⟨hcnt, _, hexec, rfl, rfl, toNat_ofNat_of_lt (by omega), toNat_ofNat_of_lt (by omega),
    fun a ha => sbFwdAt_sboxInstall_lt s ha, fun a ha => sbInvAt_sboxInstall_lt s ha,
    fun a ha => ⟨sbFwdAt_sboxInstall_ge s ha, sbInvAt_sboxInstall_ge s ha⟩, rfl⟩

/-! ## The open row at BUILD (R124) -/

theorem sboxClosed_of_cur_pos {g : SboxStaging} (h : 0 < g.cur) : sboxClosed g = closeRow g := if_pos h

theorem sboxClosed_closeRow (g : SboxStaging) : sboxClosed (closeRow g) = closeRow g := by simp [sboxClosed]

/-- The state that SBOX_ENDROW leaves. -/
def State.endRow (s : State) : State := { s with sstg := closeRow s.sstg }.answering 0x0000000000000000#64

theorem sstgFirst_endRow (s : State) (n : Nat) : s.endRow.sstgFirst n = s.sstgFirst n :=
  congrArg (fun buf => Cells.first (Config.resetSstgBuf s.resets) buf n) (closeRow_buf s.sstg)

/-- Closing the open row first does not change the verdict. -/
theorem tableVerdict_endRow {s : State} (h : 0 < s.sstg.cur) : s.endRow.tableVerdict = s.tableVerdict := by
  have hcnt : s.endRow.sstg.cnt = s.sstg.cnt := closeRow_cnt s.sstg
  rw [State.tableVerdict, State.tableVerdict, sstgFirst_endRow, hcnt, sboxClosed_of_cur_pos h]
  exact congrArg (sboxVerdict · _) (sboxClosed_closeRow s.sstg)

/-- Closing the open row first does not change the SBox installed. -/
theorem sboxInstall_endRow_sbox (ln lm : Nat) (s : State) :
    (sboxInstall ln lm s.endRow).sbox = (sboxInstall ln lm s).sbox := by
  simp only [sboxInstall, sstgFirst_endRow]
  rfl

/-- Settles O29: SBOX_ENDROW changes neither the verdict nor the SBox that BUILD installs; with no row closed and none
open the row count 0 is no power of two. -/
theorem sboxBuildClosesTheOpenRowLocally : Obligations.SboxBuildClosesTheOpenRowLocally := by
  refine ⟨fun s ho hcur => ?_, fun s ho hcur hrows hc => ?_⟩
  · have hend : exec .sboxEndrow s = .next s.endRow := (execSboxEndrow_open s ho).trans (respond_zero _)
    have ho' : s.endRow.sstg.isOpen = true := (closeRow_isOpen s.sstg).trans ho
    have hsame := tableVerdict_endRow hcur
    cases hv : s.tableVerdict with
    | error c =>
      exact ⟨_, _, _, execSboxBuild_of_error c ho hv, hend, execSboxBuild_of_error c ho' (hsame.trans hv), rfl, rfl, rfl⟩
    | ok d =>
      obtain ⟨ln, lm⟩ := d
      exact ⟨_, _, _, execSboxBuild_of_ok ho hv, hend, execSboxBuild_of_ok ho' (hsame.trans hv), rfl,
        (sboxInstall_endRow_sbox ln lm s).symm, rfl⟩
  · have hzero : s.stagedRows = 0 := (if_pos hcur).trans hrows
    refine execSboxBuild_of_error .rows ho (tableVerdict_rows ⟨hc, hzero ▸ Nat.zero_le _⟩ ?_)
    rintro ⟨k, hk⟩
    exact absurd (hzero.symm.trans hk) (Nat.two_pow_pos k).ne

end Sys2Proof.Machine
end

section
/-! The SBox transforms and readbacks (spec/41_sbox.md R135 to R140). -/

namespace Sys2Proof.Machine

/-! ## The address of an operand -/

theorem splitMiddle_lt {ln lm : Nat} {v : Bits} (h : v.length = ln + lm) : splitMiddle ln v < 2 ^ lm := by
  have hd : (v.drop ln).length = lm := by rw [List.length_drop, h]; omega
  exact hd ▸ bitsToNum_lt (v.drop ln)

/-- The split address of an operand of LN + LM bits is DATA, its ignored bits cut off (R75, R109). -/
theorem linearAddr_split_operand (ln lm data : Nat) {len : Nat} (h : len = ln + lm) :
    linearAddr lm (splitOuter ln (vectorOperand len data)) (splitMiddle ln (vectorOperand len data)) =
      data % 2 ^ (ln + lm) := by
  rw [linearAddr_split ((length_vectorOperand len data).trans h), vectorOperand, bitsToNum_numToBits, h]

/-! ## Transforms -/

section transform
variable {table : Nat → Entry} {len data : Nat} {s : State}

/-- A transform answers the cell that DATA mod 2^SB_B addresses, where that cell fits SB_B bits (R135). -/
theorem sboxXform_answers (hv : s.sbox.valid = true) (hl : len = s.sbB) (hb : s.sbB ≤ 32)
    (hcell : (table (data % 2 ^ s.sbB)).toNat < 2 ^ s.sbB) : sboxXform table len data s =
      .next (s.answering (okWord s.sbB (table (data % 2 ^ s.sbB)).toNat)) := by
  have haddr := linearAddr_split_operand s.sbox.logn.toNat s.sbox.logm.toNat data hl
  rw [sboxXform_ok table len data s hv hl, haddr, ← State.sbB, bitsToNum_numToBits, Nat.mod_eq_of_lt hcell,
    respond_okWord s (by omega) (BitVec.isLt _)]

/-- An operand of SB_B bits that spells x addresses cell x. -/
theorem sboxXform_answers_of_lt {x : Nat} (hv : s.sbox.valid = true) (hb : s.sbB ≤ 32) (hx : x < 2 ^ s.sbB)
    (hcell : (table x).toNat < 2 ^ s.sbB) :
    sboxXform table s.sbB x s = .next (s.answering (okWord s.sbB (table x).toNat)) := by
  have hmod := Nat.mod_eq_of_lt hx
  have h := sboxXform_answers (table := table) (data := x) hv rfl hb (by rwa [hmod])
  rwa [hmod] at h

/-- A transform answers NOT_CONFIGURED, else INVALID_INPUT_LENGTH, else the cell at the row and column that its operand
spells (R135, R109). -/
theorem sboxXform_substitutes
    (hcells : s.sbox.valid = true → s.sbB ≤ 32 ∧ ∀ a < 2 ^ s.sbB, (table a).toNat < 2 ^ s.sbB) :
    (s.sbox.valid = false → sboxXform table len data s = .next (s.answering 0x0400000000000000#64)) ∧
    (s.sbox.valid = true → len ≠ s.sbB →
      sboxXform table len data s = .next (s.answering 0x0300000000000000#64)) ∧
    (s.sbox.valid = true → len = s.sbB → ∃ outer middle : Nat,
      outer = bitsToNum ((numToBits data len).take s.sbox.logn.toNat) ∧
      middle = bitsToNum ((numToBits data len).drop s.sbox.logn.toNat) ∧
      outer * 2 ^ s.sbox.logm.toNat + middle = data % 2 ^ s.sbB ∧
      sboxXform table len data s =
        .next (s.answering (okWord s.sbB (table (outer * 2 ^ s.sbox.logm.toNat + middle)).toNat))) := by
  refine ⟨fun hv => ?_, fun hv hne => ?_, fun hv hl => ?_⟩
  · exact (sboxXform_notConfigured table len data s hv).trans (raise_notConfigured s)
  · exact (sboxXform_length table len data s hv hne).trans (raise_invalidInputLength s)
  · obtain ⟨hb, hlt⟩ := hcells hv
    have haddr := linearAddr_split_operand s.sbox.logn.toNat s.sbox.logm.toNat data hl
    rw [linearAddr_eq _ _ _ (splitMiddle_lt ((length_vectorOperand len data).trans hl))] at haddr
    refine ⟨_, _, rfl, rfl, haddr, ?_⟩
    have h := sboxXform_answers hv hl hb (hlt (data % 2 ^ s.sbB) (Nat.mod_lt _ (Nat.two_pow_pos _)))
    rwa [State.sbB, ← haddr] at h

end transform

/-! ## What R26 says of the active tables -/

section invariant
variable {s : State} (hs : s.SboxInv) (hv : s.sbox.valid = true)
include hs hv

theorem State.SboxInv.sbB_le : s.sbB ≤ 32 := (hs hv).1.trans sboxBMax_le

theorem State.SboxInv.sbFwdNat_lt : ∀ a < 2 ^ s.sbB, s.sbFwdNat a < 2 ^ s.sbB := by
  obtain ⟨-, hfwd, -⟩ := hs hv
  exact hfwd

theorem State.SboxInv.sbInvNat_lt : ∀ y < 2 ^ s.sbB, s.sbInvNat y < 2 ^ s.sbB := by
  obtain ⟨-, -, -, hinv, -⟩ := hs hv
  exact hinv

/-- The inverse table is the one of R134. -/
theorem State.SboxInv.inverseCell : ∀ y < 2 ^ s.sbB, InverseCell s.sbFwdNat (2 ^ s.sbB) y (s.sbInvNat y) := by
  obtain ⟨-, -, -, -, hcell⟩ := hs hv
  exact hcell

end invariant

/-- Settles O30, from what a transform answers over cells of SB_B bits. -/
theorem sboxFwdSubstitutes : Obligations.SboxFwdSubstitutes := fun _ _ hl hd =>
  ⟨decode_wordV (by decide) (fun _ _ => rfl) hl hd,
    fun _ hs => sboxXform_substitutes fun hv => ⟨hs.sbB_le hv, hs.sbFwdNat_lt hv⟩⟩

/-- Settles O31, from what a transform answers over cells of SB_B bits. -/
theorem sboxInvSubstitutesBack : Obligations.SboxInvSubstitutesBack := fun _ _ hl hd =>
  ⟨decode_wordV (by decide) (fun _ _ => rfl) hl hd,
    fun _ hs => sboxXform_substitutes fun hv => ⟨hs.sbB_le hv, hs.sbInvNat_lt hv⟩⟩

/-! ## The two transforms undo each other -/

/-- Where the table reaches y, the inverse cell of y is an index whose image is y (R134). -/
theorem InverseCell.image_eq {table : Nat → Nat} {N y v a : Nat} (h : InverseCell table N y v) (ha : a < N)
    (hy : table a = y) : v < N ∧ table v = y := by
  rcases h with hgreatest | ⟨hgap, -⟩
  · exact hgreatest.1
  · exact absurd hy (hgap a ha)

section active
variable {s : State} (hs : s.SboxInv) (hv : s.sbox.valid = true)
include hs hv

theorem exec_sboxFwd_answers {x : Nat} (hx : x < 2 ^ s.sbB) :
    exec (.sboxFwd s.sbB x) s = .next (s.answering (okWord s.sbB (s.sbFwdNat x))) :=
  sboxXform_answers_of_lt hv (hs.sbB_le hv) hx (hs.sbFwdNat_lt hv x hx)

theorem exec_sboxInv_answers {y : Nat} (hy : y < 2 ^ s.sbB) :
    exec (.sboxInv s.sbB y) s = .next (s.answering (okWord s.sbB (s.sbInvNat y))) :=
  sboxXform_answers_of_lt hv (hs.sbB_le hv) hy (hs.sbInvNat_lt hv y hy)

theorem sbInvNat_sbFwdNat (hbij : s.SboxBijective) {x : Nat} (hx : x < 2 ^ s.sbB) :
    s.sbInvNat (s.sbFwdNat x) = x := by
  have hy : s.sbFwdNat x < 2 ^ s.sbB := hbij.mapsTo hx
  obtain ⟨hlt, himage⟩ := (hs.inverseCell hv _ hy).image_eq hx rfl
  exact hbij.injOn hlt hx himage

theorem sbFwdNat_sbInvNat (hbij : s.SboxBijective) {x : Nat} (hx : x < 2 ^ s.sbB) :
    s.sbFwdNat (s.sbInvNat x) = x := by
  obtain ⟨a, ha, hax⟩ := hbij.surjOn hx
  exact ((hs.inverseCell hv x hx).image_eq ha hax).2

end active

/-- Settles O32: over a bijection the inverse table is the inverse function, on both sides. -/
theorem sboxTransformsAreInverseWhenBijective : Obligations.SboxTransformsAreInverseWhenBijective := by
  intro s hs hv hbij x hx
  have hfwd := hs.sbFwdNat_lt hv x hx
  have hinv := hs.sbInvNat_lt hv x hx
  refine ⟨⟨_, hfwd, exec_sboxFwd_answers hs hv hx, ?_⟩, ⟨_, hinv, exec_sboxInv_answers hs hv hx, ?_⟩⟩
  · rw [exec_sboxInv_answers hs hv hfwd, sbInvNat_sbFwdNat hs hv hbij hx]
  · rw [exec_sboxFwd_answers hs hv hinv, sbFwdNat_sbInvNat hs hv hbij hx]

/-! ## Readbacks -/

/-- A readback answers NOT_CONFIGURED, else INDEX_RANGE, else the cell, whole (R139, R140). -/
theorem sboxReadback_reads {table : Nat → Entry} {data : Nat} {s : State} :
    (s.sbox.valid = false → sboxReadback table data s = .next (s.answering 0x0400000000000000#64)) ∧
    (s.sbox.valid = true → 2 ^ s.sbB ≤ data →
      sboxReadback table data s = .next (s.answering 0x0700000000000000#64)) ∧
    (s.sbox.valid = true → data < 2 ^ s.sbB →
      sboxReadback table data s = .next (s.answering (okWord 0 (table data).toNat))) := by
  refine ⟨fun hv => ?_, fun hv hge => ?_, fun hv hlt => ?_⟩
  · exact (sboxReadback_notConfigured table data s hv).trans (raise_notConfigured s)
  · exact (sboxReadback_range table data s hv hge).trans (raise_indexRange s)
  · exact (sboxReadback_ok table data s hv hlt).trans (respond_okWord s (by decide) (BitVec.isLt _))

/-- Settles O34, from what a readback answers. -/
theorem sboxRdfReadsTheTable : Obligations.SboxRdfReadsTheTable := fun _ hd =>
  ⟨decode_wordD (by decide) (fun _ _ => rfl) hd, fun _ => sboxReadback_reads⟩

/-- Settles O35, from what a readback answers. -/
theorem sboxRdiReadsTheInverseTable : Obligations.SboxRdiReadsTheInverseTable := fun _ hd =>
  ⟨decode_wordD (by decide) (fun _ _ => rfl) hd, fun _ => sboxReadback_reads⟩

end Sys2Proof.Machine
end

section
/-! The PBox load: PBOX_BEGIN and PBOX_PUSH (spec/42_pbox.md R160, R161). -/

namespace Sys2Proof.Machine

/-- Settles O36, from the response to a command that carries nothing. -/
theorem pboxBeginOpensAnEmptyLoad : Obligations.PboxBeginOpensAnEmptyLoad :=
  ⟨by decide, fun _ => respond_zero _⟩

section append
variable (v : Entry) (s : State)

/-- While fewer than 32 were pushed the value is written at PSTG_CNT (R161). -/
theorem pboxAppend_buf_of_lt (h : s.pstg.cnt < 32) :
    (pboxAppend v s).buf = Cells.write (Config.resetPstgBuf s.resets) s.pstg.buf s.pstg.cnt v :=
  if_pos h

/-- After 32 values nothing is written (R161). -/
theorem pboxAppend_buf_of_ge (h : 32 ≤ s.pstg.cnt) : (pboxAppend v s).buf = s.pstg.buf :=
  if_neg (Nat.not_lt.2 h)

theorem pstgBufAt_pboxAppend_same (h : s.pstg.cnt < 32) :
    ({ s with pstg := pboxAppend v s } : State).pstgBufAt s.pstg.cnt = v := by
  rw [State.pstgBufAt, pboxAppend_buf_of_lt v s h, Cells.read_write_same]

theorem pstgBufAt_pboxAppend_other {k : Nat} (h : ¬(k = s.pstg.cnt ∧ s.pstg.cnt < 32)) :
    ({ s with pstg := pboxAppend v s } : State).pstgBufAt k = s.pstgBufAt k := by
  rcases Nat.lt_or_ge s.pstg.cnt 32 with hlt | hge
  · rw [State.pstgBufAt, pboxAppend_buf_of_lt v s hlt, Cells.read_write_other _ _ _ _ _ fun hk => h ⟨hk, hlt⟩]
    rfl
  · rw [State.pstgBufAt, pboxAppend_buf_of_ge v s hge]
    rfl

end append

/-- Settles O37, from what appending a value leaves in each element of the load. -/
theorem pboxPushAppendsOneValue : Obligations.PboxPushAppendsOneValue := by
  refine fun data hd => ⟨decode_wordD (by decide) (fun _ _ => rfl) hd, fun s => ⟨fun hclosed => ?_, fun hopen => ?_⟩⟩
  · exact (execPboxPush_closed data s hclosed).trans (raise_sequenceError s)
  · refine ⟨_, (execPboxPush_open data s hopen).trans (respond_zero _), rfl, rfl, fun hlt => ?_,
      fun k hk => pstgBufAt_pboxAppend_other _ s hk, rfl⟩
    exact (congrArg BitVec.toNat (pstgBufAt_pboxAppend_same _ s hlt)).trans (toNat_pushOperand hd)

end Sys2Proof.Machine
end

section
/-! PBOX_BUILD: the verdict on a staged sequence and the installed permutation (spec/42_pbox.md R162 to R168). -/

namespace Sys2Proof.Machine

theorem raise_invalidPermutation (c : PermCause) (s : State) :
    raise (.invalidPermutation c) s = .next (s.answering (errWord 2 c.code.toNat)) := by
  cases c <;> rfl

/-! ## The first offending value (R164) -/

/-- A value out of range, after values that pass, is refused by RANGE. -/
theorem permFault_range {n : Nat} {vs rest : List Entry} {v : Entry} {used : BitVec 32} (h : PermPasses n vs used)
    (hv : v.toNat = 0 ∨ n < v.toNat) : permFault n (vs ++ v :: rest) used = some .range := by
  rw [permFault_append n vs _ used h, permFault, if_pos hv]

/-- A value in range that repeats one of the values before it, which pass, is refused by DUPLICATE. -/
theorem permFault_duplicate {n : Nat} {vs rest : List Entry} {u v : Entry} {used : BitVec 32} (hn : n ≤ 32)
    (h : PermPasses n vs used) (h1 : 1 ≤ v.toNat) (hle : v.toNat ≤ n) (hu : u ∈ vs) (heq : u.toNat = v.toNat) :
    permFault n (vs ++ v :: rest) used = some .duplicate := by
  have hused : (usedAfter vs used).getLsbD (v.toNat - 1) = true :=
    (usedAfter_getLsbD vs used _ (by omega)).2 (.inr ⟨u, hu, by rw [heq]⟩)
  rw [permFault_append n vs _ used h, permFault, if_neg (by omega), if_pos hused]

/-! ## The verdict on a staged sequence -/

/-- The verdict that PBOX_BUILD reaches on the load of a state (R162). -/
def State.permVerdict (s : State) : Option PermCause := pboxVerdict s.pstg.cnt (s.pstgFirst s.pstg.cnt)

section verdict
variable {s : State} {n i : Nat}

/-- The staged values up to index i, and the value there. -/
theorem exists_pstgFirst_eq_append (h : i < n) : ∃ rest, s.pstgFirst n = s.pstgFirst i ++ s.pstgBufAt i :: rest := by
  obtain ⟨d, rfl⟩ : ∃ d, n = i + 1 + d := ⟨n - (i + 1), by omega⟩
  simp [pstgFirst_eq_map, List.range_add, List.range_succ]

/-- The first i staged values pass exactly when they are in range and pairwise different. -/
theorem permPasses_pstgFirst_iff (hn : n ≤ 32) : PermPasses n (s.pstgFirst i) 0#32 ↔
    (∀ j < i, 1 ≤ (s.pstgBufAt j).toNat ∧ (s.pstgBufAt j).toNat ≤ n) ∧
      Set.InjOn (fun j => (s.pstgBufAt j).toNat) (Set.Iio i) := by
  rw [permPasses_iff n hn, pstgFirst_eq_map, List.map_map, List.nodup_map_iff_inj_on List.nodup_range]
  simp [Set.InjOn]

theorem permVerdict_length (h : s.pstg.cnt = 0 ∨ 32 < s.pstg.cnt) : s.permVerdict = some .length := if_pos h

/-- With the length checked, the values decide. -/
theorem permVerdict_of_length (h1 : 1 ≤ s.pstg.cnt) (h32 : s.pstg.cnt ≤ 32) :
    s.permVerdict = permFault s.pstg.cnt (s.pstgFirst s.pstg.cnt) 0#32 :=
  if_neg (not_or.2 ⟨Nat.one_le_iff_ne_zero.1 h1, Nat.not_lt.2 h32⟩)

theorem permVerdict_range (h32 : s.pstg.cnt ≤ 32) (hi : i < s.pstg.cnt)
    (hpass : PermPasses s.pstg.cnt (s.pstgFirst i) 0#32)
    (hv : (s.pstgBufAt i).toNat = 0 ∨ s.pstg.cnt < (s.pstgBufAt i).toNat) : s.permVerdict = some .range := by
  obtain ⟨rest, hsplit⟩ := exists_pstgFirst_eq_append (s := s) hi
  rw [permVerdict_of_length (Nat.one_le_of_lt hi) h32, hsplit, permFault_range hpass hv]

theorem permVerdict_duplicate {j : Nat} (h32 : s.pstg.cnt ≤ 32) (hi : i < s.pstg.cnt)
    (hpass : PermPasses s.pstg.cnt (s.pstgFirst i) 0#32) (h1 : 1 ≤ (s.pstgBufAt i).toNat)
    (hle : (s.pstgBufAt i).toNat ≤ s.pstg.cnt) (hj : j < i) (heq : (s.pstgBufAt j).toNat = (s.pstgBufAt i).toNat) :
    s.permVerdict = some .duplicate := by
  obtain ⟨rest, hsplit⟩ := exists_pstgFirst_eq_append (s := s) hi
  have hmem : s.pstgBufAt j ∈ s.pstgFirst i := by
    rw [pstgFirst_eq_map]
    exact List.mem_map_of_mem (List.mem_range.2 hj)
  rw [permVerdict_of_length (Nat.one_le_of_lt hi) h32, hsplit, permFault_duplicate h32 hpass h1 hle hmem heq]

/-- A sequence of legal length is accepted exactly when it is a permutation (R166). -/
theorem permVerdict_eq_none_iff (h1 : 1 ≤ s.pstg.cnt) (h32 : s.pstg.cnt ≤ 32) :
    s.permVerdict = none ↔ s.StagedPermutation s.pstg.cnt := by
  rw [permVerdict_of_length h1 h32, permFault_none_iff, permPasses_pstgFirst_iff h32]
  exact (bijOn_Icc_iff _ _).symm

/-- PBOX_BUILD raises the cause of a refusing verdict. -/
theorem execPboxBuild_of_some (c : PermCause) (ho : s.pstg.isOpen = true) (h : s.permVerdict = some c) :
    execPboxBuild s = .next (s.answering (errWord 2 c.code.toNat)) :=
  (execPboxBuild_refused s ho h).trans (raise_invalidPermutation c s)

end verdict

/-- Values each of which differs from the ones before it do not repeat. -/
theorem injOn_Iio_of_ne_earlier {f : Nat → Nat} {i : Nat} (h : ∀ j < i, ∀ k < j, f j ≠ f k) :
    Set.InjOn f (Set.Iio i) := by
  intro a ha b hb hab
  rcases Nat.lt_trichotomy a b with hlt | heq | hgt
  · exact absurd hab.symm (h b hb a hlt)
  · exact heq
  · exact absurd hab (h a ha b hgt)

/-- Settles O38: the values before the first offending one pass, and so the check stops there. -/
theorem pboxBuildRefusesByTheFirstOffendingValue : Obligations.PboxBuildRefusesByTheFirstOffendingValue := by
  refine fun s => ⟨fun hclosed => (execPboxBuild_closed s hclosed).trans (raise_sequenceError s),
    fun ho hlen => execPboxBuild_of_some .length ho (permVerdict_length hlen), ?_⟩
  intro ho _ h32 i hi hrange hnew
  have hpass : PermPasses s.pstg.cnt (s.pstgFirst i) 0#32 :=
    (permPasses_pstgFirst_iff h32).2 ⟨hrange, injOn_Iio_of_ne_earlier hnew⟩
  exact ⟨fun hv => execPboxBuild_of_some .range ho (permVerdict_range h32 hi hpass hv),
    fun ⟨h1, hle, _, hj, heq⟩ =>
      execPboxBuild_of_some .duplicate ho (permVerdict_duplicate h32 hi hpass h1 hle hj heq)⟩

/-! ## Scatters by a permutation (R167, R169) -/

/-- A scatter by a permutation of `1 .. n` writes each element i at the place of i. -/
theorem getElem?_scatter {α : Type} {p : Nat → Nat} {n i : Nat} (hp : Set.BijOn p (Set.Iio n) (Set.Icc 1 n))
    (g : Nat → α) {q : List α} (hq : q.length = n) (hi : i < n) :
    ((List.range n).foldl (fun q i => q.set (p i - 1) (g i)) q)[p i - 1]? = some (g i) := by
  obtain ⟨hrange, hinj⟩ := (bijOn_Icc_iff p n).1 hp
  refine getElem?_foldl_set (fun i => p i - 1) g _ q ?_ i (List.mem_range.2 hi) ?_
  · refine List.Nodup.map_on (fun j hj k hk hjk => ?_) List.nodup_range
    have hj := List.mem_range.1 hj
    have hk := List.mem_range.1 hk
    have := hrange j hj
    have := hrange k hk
    exact hinj j hj k hk (by omega)
  · have := hrange i hi
    omega

/-- The builder inverts a permutation (R167). -/
theorem getElem?_inversePermutationBuilder {p : List Entry} {n i : Nat}
    (hp : Set.BijOn (fun i => (p.getD i 0#32).toNat) (Set.Iio n) (Set.Icc 1 n)) (hi : i < n) :
    (inversePermutationBuilder p n)[(p.getD i 0#32).toNat - 1]? = some (BitVec.ofNat 6 (i + 1)) :=
  getElem?_scatter hp _ List.length_replicate hi

/-- Permuting moves element i to the position of i (R169). -/
theorem getElem?_permuteBits {perm : Nat → Position} {n i : Nat} {vin : Bits}
    (hp : Set.BijOn (fun i => (perm i).toNat) (Set.Iio n) (Set.Icc 1 n)) (hv : vin.length = n) (hi : i < n) :
    (permuteBits perm n vin)[(perm i).toNat - 1]? = vin[i]? := by
  rw [permuteBits, getElem?_scatter hp _ List.length_replicate hi, List.getD_eq_getElem _ _ (hv ▸ hi),
    List.getElem?_eq_getElem (hv ▸ hi)]

/-! ## The installed permutation (R168) -/

section install
variable {n i : Nat} {s : State}

theorem pbFwdAt_pboxInstall_lt (h : i < n) : (pboxInstall n s).pbFwdAt i = (s.pstgBufAt i).setWidth 6 := by
  rw [State.pbFwdAt, pboxInstall_fwd, Cells.read_install_lt _ _ _ (by simpa using h)]
  simp [pstgFirst_eq_map]

theorem pbInvAt_pboxInstall_lt (h : i < n) :
    some ((pboxInstall n s).pbInvAt i) = (inversePermutationBuilder (s.pstgFirst n) n)[i]? := by
  rw [State.pbInvAt, pboxInstall_inv, Cells.read_install_lt _ _ _ (by simpa using h), ← List.getElem?_eq_getElem]

theorem pbFwdAt_pboxInstall_ge (h : n ≤ i) : (pboxInstall n s).pbFwdAt i = s.pbFwdAt i := by
  rw [State.pbFwdAt, pboxInstall_fwd, Cells.read_install_ge _ _ _ (by simpa using h)]
  rfl

theorem pbInvAt_pboxInstall_ge (h : n ≤ i) : (pboxInstall n s).pbInvAt i = s.pbInvAt i := by
  rw [State.pbInvAt, pboxInstall_inv, Cells.read_install_ge _ _ _ (by simpa using h)]
  rfl

theorem getD_pstgFirst (h : i < n) : (s.pstgFirst n).getD i 0#32 = s.pstgBufAt i := by
  simp [pstgFirst_eq_map, h]

section permutation
variable (hn : n ≤ 32) (hp : s.StagedPermutation n) (hi : i < n)
include hn hp hi

/-- A value of a permutation of at most 32 values fits a PBox cell, so it is installed whole. -/
theorem pbFwdNat_pboxInstall : (pboxInstall n s).pbFwdNat i = (s.pstgBufAt i).toNat := by
  have hle : (s.pstgBufAt i).toNat ≤ n := (hp.mapsTo hi).2
  rw [State.pbFwdNat, pbFwdAt_pboxInstall_lt hi, BitVec.toNat_setWidth, Nat.mod_eq_of_lt (by omega)]

/-- The installed inverse takes the value at index i back to i. -/
theorem pbInvNat_pboxInstall : (pboxInstall n s).pbInvNat ((s.pstgBufAt i).toNat - 1) = i + 1 := by
  have hpos : 1 ≤ (s.pstgBufAt i).toNat := (hp.mapsTo hi).1
  have hle : (s.pstgBufAt i).toNat ≤ n := (hp.mapsTo hi).2
  have hread : (inversePermutationBuilder (s.pstgFirst n) n)[(s.pstgBufAt i).toNat - 1]? =
      some (BitVec.ofNat 6 (i + 1)) := by
    have := getElem?_inversePermutationBuilder (p := s.pstgFirst n)
      (hp.congr fun j hj => by rw [getD_pstgFirst hj]) hi
    rwa [getD_pstgFirst hi] at this
  have hcell := Option.some.inj ((pbInvAt_pboxInstall_lt (s := s) (by omega)).trans hread)
  rw [State.pbInvNat, hcell, toNat_ofNat_of_lt (by omega)]

end permutation

end install

/-- Settles O40, from the verdict on a permutation and what installing it leaves in each cell. -/
theorem pboxBuildInstallsThePermutation : Obligations.PboxBuildInstallsThePermutation := by
  intro s ho h1 h32 hp
  have hexec := (execPboxBuild_installs s ho ((permVerdict_eq_none_iff h1 h32).2 hp)).trans
    (respond_okWord _ (by omega) (by decide))
  exact ⟨_, hexec, rfl, rfl, toNat_ofNat_of_lt (by omega), fun i hi => pbFwdNat_pboxInstall h32 hp hi,
    fun i hi => pbInvNat_pboxInstall h32 hp hi,
    fun i hi => ⟨pbFwdAt_pboxInstall_ge hi, pbInvAt_pboxInstall_ge hi⟩, rfl⟩

end Sys2Proof.Machine
end

section
/-! The PBox transforms and readbacks (spec/42_pbox.md R169 to R175). -/

namespace Sys2Proof.Machine

/-! ## Transforms -/

/-- A transform answers NOT_CONFIGURED, else INVALID_INPUT_LENGTH, else its operand with element i moved to the position
of i (R169). -/
theorem pboxXform_permutes {perm : Nat → Position} {len data : Nat} {s : State}
    (hperm : s.pbox.valid = true →
      s.pbN ≤ 32 ∧ Set.BijOn (fun i => (perm i).toNat) (Set.Iio s.pbN) (Set.Icc 1 s.pbN)) :
    (s.pbox.valid = false → pboxXform perm len data s = .next (s.answering 0x0400000000000000#64)) ∧
    (s.pbox.valid = true → len ≠ s.pbN →
      pboxXform perm len data s = .next (s.answering 0x0300000000000000#64)) ∧
    (s.pbox.valid = true → len = s.pbN → ∃ vout : Bits, vout.length = s.pbN ∧
      (∀ i < s.pbN, vout[(perm i).toNat - 1]? = (numToBits data len)[i]?) ∧
      pboxXform perm len data s = .next (s.answering (okWord s.pbN (bitsToNum vout)))) := by
  refine ⟨fun hv => ?_, fun hv hne => ?_, fun hv hl => ?_⟩
  · exact (pboxXform_notConfigured perm len data s hv).trans (raise_notConfigured s)
  · exact (pboxXform_length perm len data s hv hne).trans (raise_invalidInputLength s)
  · obtain ⟨hn, hbij⟩ := hperm hv
    have hlen : (vectorOperand len data).length = s.pbN := (length_vectorOperand len data).trans hl
    have hlt : bitsToNum (permuteBits perm s.pbN (vectorOperand len data)) < 2 ^ 32 :=
      calc _ < 2 ^ s.pbN := by simpa using bitsToNum_lt (permuteBits perm s.pbN (vectorOperand len data))
        _ ≤ 2 ^ 32 := Nat.pow_le_pow_right (by decide) hn
    exact ⟨_, length_permuteBits _ _ _, fun i hi => getElem?_permuteBits hbij hlen hi,
      (pboxXform_ok perm len data s hv hl).trans (respond_okWord s (by omega) hlt)⟩

/-! ## What R31 says of the active permutations -/

section invariant
variable {s : State} (hs : s.PboxInv) (hv : s.pbox.valid = true)
include hs hv

theorem State.PboxInv.pbN_le : s.pbN ≤ 32 := by
  obtain ⟨-, hn, -⟩ := hs hv
  exact hn

theorem State.PboxInv.bijOn_pbFwdNat : Set.BijOn s.pbFwdNat (Set.Iio s.pbN) (Set.Icc 1 s.pbN) := by
  obtain ⟨-, -, hfwd, -⟩ := hs hv
  exact hfwd

theorem State.PboxInv.bijOn_pbInvNat : Set.BijOn s.pbInvNat (Set.Iio s.pbN) (Set.Icc 1 s.pbN) := by
  obtain ⟨-, -, -, hinv, -⟩ := hs hv
  exact hinv

end invariant

/-- Settles O41, from what a transform answers over a permutation. -/
theorem pboxFwdPermutesTheBits : Obligations.PboxFwdPermutesTheBits := fun _ _ hl hd =>
  ⟨decode_wordV (by decide) (fun _ _ => rfl) hl hd,
    fun _ hs => pboxXform_permutes fun hv => ⟨hs.pbN_le hv, hs.bijOn_pbFwdNat hv⟩⟩

/-- Settles O42, from what a transform answers over a permutation. -/
theorem pboxInvPermutesTheBitsBack : Obligations.PboxInvPermutesTheBitsBack := fun _ _ hl hd =>
  ⟨decode_wordV (by decide) (fun _ _ => rfl) hl hd,
    fun _ hs => pboxXform_permutes fun hv => ⟨hs.pbN_le hv, hs.bijOn_pbInvNat hv⟩⟩

/-! ## Readbacks -/

/-- A readback answers NOT_CONFIGURED, else INDEX_RANGE, else the position, whole (R174, R175). -/
theorem pboxReadback_reads {perm : Nat → Position} {data : Nat} {s : State} :
    (s.pbox.valid = false → pboxReadback perm data s = .next (s.answering 0x0400000000000000#64)) ∧
    (s.pbox.valid = true → s.pbN ≤ data →
      pboxReadback perm data s = .next (s.answering 0x0700000000000000#64)) ∧
    (s.pbox.valid = true → data < s.pbN →
      pboxReadback perm data s = .next (s.answering (okWord 0 (perm data).toNat))) := by
  refine ⟨fun hv => ?_, fun hv hge => ?_, fun hv hlt => ?_⟩
  · exact (pboxReadback_notConfigured perm data s hv).trans (raise_notConfigured s)
  · exact (pboxReadback_range perm data s hv hge).trans (raise_indexRange s)
  · exact (pboxReadback_ok perm data s hv hlt).trans
      (respond_okWord s (by decide) ((BitVec.isLt _).trans (by decide)))

/-- Settles O45, from what a readback answers. -/
theorem pboxRdfReadsThePermutation : Obligations.PboxRdfReadsThePermutation := fun _ hd =>
  ⟨decode_wordD (by decide) (fun _ _ => rfl) hd, fun _ => pboxReadback_reads⟩

/-- Settles O46, from what a readback answers. -/
theorem pboxRdiReadsTheInversePermutation : Obligations.PboxRdiReadsTheInversePermutation := fun _ hd =>
  ⟨decode_wordD (by decide) (fun _ _ => rfl) hd, fun _ => pboxReadback_reads⟩

end Sys2Proof.Machine
end

section
/-! NOP and GET_STATUS (spec/43_control.md R190, R191), and the fields of STATUS (spec/10_state.md R37). -/

namespace Sys2Proof.Machine

/-! ## NOP -/

/-- The mask of format N has every bit, so the row of NOP accepts the all-zero word only (R72, R190). -/
theorem nop_row_accepts_iff (w : PortWord) : (⟨0x00, .n⟩ : OpcodeRow).accepts w ↔ w = 0#64 := by
  have hmask : Format.n.mask = BitVec.allOnes 64 := by decide
  rw [OpcodeRow.accepts, hmask, BitVec.and_allOnes]
  rfl

/-- Settles O47: a word with OPC 0x00 that decodes is a word that the row of NOP accepts. -/
theorem nopDoesNothing : Obligations.NopDoesNothing := by
  obtain ⟨-, -, hrejected⟩ := illegalWordRaisesAndChangesNothing
  exact ⟨by decide, respond_zero, fun w hopc hne =>
    hrejected w ⟨0x00, .n⟩ (by decide) hopc fun hacc => hne ((nop_row_accepts_iff w).1 hacc)⟩

/-! ## The fields of STATUS -/

section field
variable {k a w : Nat}

/-- A status bit at position k is 0 in every field that does not hold k. -/
theorem extractLsb'_statusBit (b : Bool) (h : k < a) : (statusBit b k).extractLsb' a w = 0#w := by
  refine BitVec.eq_of_getLsbD_eq fun i hi => ?_
  have hne : a + i ≠ k := by omega
  simp [statusBit_getLsbD, hne]

/-- A dimension at position k is read back whole from the six bits at k. -/
theorem extractLsb'_dim_same (d : Dim) (h : k + 6 ≤ 32) : (d.setWidth 32 <<< k).extractLsb' k 6 = d := by
  refine BitVec.eq_of_getLsbD_eq fun i hi => ?_
  have hlt : k + i < 32 := by omega
  rw [BitVec.getLsbD_extractLsb', dim_shift_getLsbD]
  simp [hi, hlt]

/-- A dimension at position k is 0 in every field apart from its six bits. -/
theorem extractLsb'_dim_other (d : Dim) (h : a + w ≤ k ∨ k + 6 ≤ a) :
    (d.setWidth 32 <<< k).extractLsb' a w = 0#w := by
  refine BitVec.eq_of_getLsbD_eq fun i hi => ?_
  rw [BitVec.getLsbD_extractLsb', dim_shift_getLsbD, BitVec.getLsbD_zero]
  rcases h with hbelow | habove
  · have hlt : ¬k ≤ a + i := by omega
    simp [hlt]
  · rw [BitVec.getLsbD_of_ge d (a + i - k) (by omega)]
    simp

end field

section status
variable (s : State) {a w : Nat}

/-- Bits 0 to 3 of STATUS are the VALID and OPEN bits: the dimensions start at bit 8 (R37). -/
theorem status_flags : s.status.getLsbD 0 = s.sbox.valid ∧ s.status.getLsbD 1 = s.pbox.valid ∧
    s.status.getLsbD 2 = s.sstg.isOpen ∧ s.status.getLsbD 3 = s.pstg.isOpen := by
  simp only [State.status, BitVec.getLsbD_or, statusBit_getLsbD, statusSboxDims_getLsbD, statusPboxDim_getLsbD]
  simp

theorem extractLsb'_statusSboxDims : (statusSboxDims s).extractLsb' a w = if s.sbox.valid = true then
    (s.sbox.logn.setWidth 32 <<< 8).extractLsb' a w ||| (s.sbox.logm.setWidth 32 <<< 16).extractLsb' a w else 0#w := by
  unfold statusSboxDims
  split
  · exact BitVec.extractLsb'_or
  · exact BitVec.extractLsb'_zero

theorem extractLsb'_statusPboxDim : (statusPboxDim s).extractLsb' a w =
    if s.pbox.valid = true then (s.pbox.n.setWidth 32 <<< 24).extractLsb' a w else 0#w := by
  unfold statusPboxDim
  split
  · rfl
  · exact BitVec.extractLsb'_zero

/-- From bit 4 on STATUS holds the dimensions alone (R37). -/
theorem extractLsb'_status (h : 4 ≤ a) : s.status.extractLsb' a w =
    (statusSboxDims s).extractLsb' a w ||| (statusPboxDim s).extractLsb' a w := by
  have hbit : ∀ (b : Bool) {k : Nat}, k < 4 → (statusBit b k).extractLsb' a w = 0#w :=
    fun b _ hk => extractLsb'_statusBit b (hk.trans_le h)
  simp [State.status, BitVec.extractLsb'_or, hbit]

/-- Where no dimension stands, STATUS is 0 (R37). -/
theorem status_reserved (h4 : 4 ≤ a) (hn : a + w ≤ 8 ∨ 14 ≤ a) (hm : a + w ≤ 16 ∨ 22 ≤ a)
    (hp : a + w ≤ 24 ∨ 30 ≤ a) : s.status.extractLsb' a w = 0#w := by
  rw [extractLsb'_status s h4, extractLsb'_statusSboxDims, extractLsb'_statusPboxDim, extractLsb'_dim_other _ hn,
    extractLsb'_dim_other _ hm, extractLsb'_dim_other _ hp]
  simp

/-- SB_LOGN is at 13:8 while SB_VALID is 1 (R37). -/
theorem status_logn : s.status.extractLsb' 8 6 = if s.sbox.valid = true then s.sbox.logn else 0#6 := by
  rw [extractLsb'_status s (by decide), extractLsb'_statusSboxDims, extractLsb'_statusPboxDim,
    extractLsb'_dim_same s.sbox.logn (by decide), extractLsb'_dim_other s.sbox.logm (by decide),
    extractLsb'_dim_other s.pbox.n (by decide)]
  simp

/-- SB_LOGM is at 21:16 while SB_VALID is 1 (R37). -/
theorem status_logm : s.status.extractLsb' 16 6 = if s.sbox.valid = true then s.sbox.logm else 0#6 := by
  rw [extractLsb'_status s (by decide), extractLsb'_statusSboxDims, extractLsb'_statusPboxDim,
    extractLsb'_dim_other s.sbox.logn (by decide), extractLsb'_dim_same s.sbox.logm (by decide),
    extractLsb'_dim_other s.pbox.n (by decide)]
  simp

/-- PB_N is at 29:24 while PB_VALID is 1 (R37). -/
theorem status_pbN : s.status.extractLsb' 24 6 = if s.pbox.valid = true then s.pbox.n else 0#6 := by
  rw [extractLsb'_status s (by decide), extractLsb'_statusSboxDims, extractLsb'_statusPboxDim,
    extractLsb'_dim_other s.sbox.logn (by decide), extractLsb'_dim_other s.sbox.logm (by decide),
    extractLsb'_dim_same s.pbox.n (by decide)]
  simp

end status

/-! ## GET_STATUS -/

/-- GET_STATUS answers STATUS, whole, and writes nothing (R191). -/
theorem exec_getStatus (s : State) : exec .getStatus s = .next (s.answering (okWord 0 s.status.toNat)) :=
  respond_okWord s (by decide) s.status.isLt

/-- Settles O48, from the fields of STATUS. -/
theorem getStatusShowsTheView : Obligations.GetStatusShowsTheView := by
  refine ⟨by decide, fun s => ⟨s.status, exec_getStatus s, ?_⟩⟩
  obtain ⟨hsbValid, hpbValid, hsbOpen, hpbOpen⟩ := status_flags s
  have hreserved : s.status.extractLsb' 4 4 = 0#4 ∧ s.status.extractLsb' 14 2 = 0#2 ∧
      s.status.extractLsb' 22 2 = 0#2 ∧ s.status.extractLsb' 30 2 = 0#2 := by
    refine ⟨?_, ?_, ?_, ?_⟩ <;> exact status_reserved s (by decide) (by decide) (by decide) (by decide)
  obtain ⟨h4, h14, h22, h30⟩ := hreserved
  exact ⟨hsbValid, hpbValid, hsbOpen, hpbOpen, h4, status_logn s, h14, status_logm s, h22, status_pbN s, h30⟩

end Sys2Proof.Machine
end

section
/-! A command that answers an error (spec/60_exceptions.md R203 to R205): it has only replaced the response, which no
command reads. -/

namespace Sys2Proof.Machine

/-! ## The state and the response an error leaves -/

/-- `raise E(c)` answers the word `(E << 56) | (c << 40)` (R205). -/
theorem raiseWord_eq_errWord (e : Error) : raiseWord e = errWord e.st.toNat e.cause.toNat := by
  apply BitVec.eq_of_toNat_eq
  have hst := e.st.isLt; have hcause := e.cause.isLt
  rw [toNat_raiseWord, errWord, toNat_ofNat_of_lt (by omega)]

/-- A command either raises in the state it found, or ends in `respond`. -/
theorem exec_raises_or_responds (i : Instr) (s : State) :
    (∃ e, exec i s = raise e s) ∨ ∃ rlen rdata u, exec i s = respond rlen rdata u := by
  rcases exec_outcome i s with ⟨_, he⟩ | ⟨-, _, _, he⟩ | ⟨-, he⟩ | ⟨_, -, -, he⟩ | ⟨-, -, he⟩ | ⟨_, _, -, -, -, he⟩ |
    ⟨-, he⟩ | ⟨_, -, -, he⟩ | ⟨-, -, -, he⟩
  · exact .inl ⟨_, he⟩
  all_goals exact .inr ⟨_, _, _, he⟩

/-- The step on a word that decodes is exec of its command, the word taken (R58). -/
theorem step_of_decode_ok {s : State} {w : PortWord} {i : Instr} {rest : List HostInput}
    (hs : s.inputs = .command w :: rest) (hd : decode w = .ok i) : step s = exec i { s with inputs := rest } := by
  simp only [step, hs, hd]

/-- The step on a command word, legal or not, either raises with nothing but the word taken, or ends in `respond`. -/
theorem step_raises_or_responds {s : State} {w : PortWord} {rest : List HostInput} (hs : s.inputs = .command w :: rest) :
    (∃ e, step s = raise e { s with inputs := rest }) ∨ ∃ rlen rdata u, step s = respond rlen rdata u := by
  cases hd : decode w with
  | ok i => exact step_of_decode_ok hs hd ▸ exec_raises_or_responds i _
  | error _ => exact .inl ⟨_, step_of_illegal hs (by simp [hd])⟩

/-- Only `raise` answers with ST not 0, so a step that does has raised. -/
theorem exists_raise_of_rspSt_ne_zero {s t : State} {w r : PortWord} {rest : List HostInput}
    (hs : s.inputs = .command w :: rest) (ht : step s = .next t) (hr : t.rsp = some r) (hst : rspSt r ≠ 0#8) :
    ∃ e, r = raiseWord e ∧ t = { s with inputs := rest }.answering r := by
  rcases step_raises_or_responds hs with ⟨e, he⟩ | ⟨rlen, rdata, u, he⟩ <;> rw [he] at ht
  · obtain rfl := raise_next ht
    obtain rfl : raiseWord e = r := Option.some.inj hr
    exact ⟨e, rfl, rfl⟩
  · obtain ⟨r', hr', hok⟩ := respond_answersOk ht
    obtain rfl : r' = r := Option.some.inj (hr'.symm.trans hr)
    exact absurd hok hst

/-- Settles O10, from the one way to answer an error. -/
theorem errorWritesNoStateElement : Obligations.ErrorWritesNoStateElement := by
  intro s t w r rest hs ht hr hst
  obtain ⟨e, rfl, hkept⟩ := exists_raise_of_rspSt_ne_zero hs ht hr hst
  rw [rspSt_raiseWord, rspCause_raiseWord]
  exact ⟨hkept, raiseWord_eq_errWord e⟩

/-! ## No command reads the response -/

/-- Every meaning reads the staging and the active instances alone, and replaces the response in its last act. -/
theorem exec_answering (i : Instr) (s : State) (r : PortWord) : exec i (s.answering r) = exec i s := by
  cases i <;> rfl

/-- Neither does the step on a command word, legal or not. -/
theorem step_answering {s : State} {w : PortWord} {rest : List HostInput} (hs : s.inputs = .command w :: rest)
    (r : PortWord) : step (s.answering r) = step s := by
  have hs' : (s.answering r).inputs = .command w :: rest := hs
  cases hd : decode w with
  | ok i =>
    rw [step_of_decode_ok hs hd, step_of_decode_ok hs' hd]
    exact exec_answering i { s with inputs := rest } r
  | error _ =>
    rw [step_of_illegal hs (by simp [hd]), step_of_illegal hs' (by simp [hd])]
    rfl

/-- Settles O11: an error leaves only its response behind, and the next step does not read it. -/
theorem errorsAreNotSticky : Obligations.ErrorsAreNotSticky := by
  refine ⟨exec_answering, fun s t w w' r rest hs ht hr hst => ?_⟩
  obtain ⟨-, -, rfl⟩ := exists_raise_of_rspSt_ne_zero hs ht hr hst
  exact step_answering rfl r

end Sys2Proof.Machine
end

section
/-! Reset between commands and during one, and how long no instance is active after it (spec/10_state.md R40,
spec/70_reset_and_hazards.md R230, R233, R234). -/

namespace Sys2Proof.Machine

/-! ## The reset input -/

/-- Settles O14, from the values of every reset. -/
theorem resetInputGivesTheSpecifiedValues : Obligations.ResetInputGivesTheSpecifiedValues := by
  intro s rest hs
  have hvalues := atReset_hasResetValues (s.resets + 1) rest
  exact ⟨_, step_of_reset hs, hvalues, hvalues.status_eq_zero, atReset_rsp _ rest, atReset_inputs _ rest⟩

/-- A step on reset during a command is the next reset, whatever the command (R233; log 7). -/
theorem step_of_resetDuring {s : State} {w : PortWord} {rest : List HostInput}
    (hs : s.inputs = .resetDuring w :: rest) : step s = .next (State.atReset (s.resets + 1) rest) := by
  simp [step, hs, abandonAndReset, takeReset]

/-- Resets differ only in what R40 leaves unspecified, which no command can tell apart: no instance is active and nothing
is staged (R231). -/
theorem atReset_agree (k l : Nat) (is : List HostInput) : (State.atReset k is).Agree (State.atReset l is) := by
  simp [State.Agree]

/-! ## A command performed before the reset -/

/-- Every command answers a next state (R217). -/
theorem exists_exec_next (i : Instr) (s : State) : ∃ t, exec i s = .next t := by
  rcases exec_raises_or_responds i s with ⟨_, he⟩ | ⟨_, _, _, he⟩ <;> exact ⟨_, he⟩

/-- No command touches what the host still gives. -/
theorem exec_inputs {i : Instr} {s t : State} (h : exec i s = .next t) : t.inputs = s.inputs := by
  rcases exec_write_cases h with ⟨_, rfl⟩ | ⟨-, _, _, _, rfl⟩ | ⟨-, _, _, _, rfl⟩ <;> rfl

/-- A step on a command word, legal or not, takes that word alone. -/
theorem exists_step_of_command {s : State} {w : PortWord} {rest : List HostInput} (hs : s.inputs = .command w :: rest) :
    ∃ u, step s = .next u ∧ u.inputs = rest := by
  cases hd : decode w with
  | ok i =>
    obtain ⟨u, hu⟩ := exists_exec_next i { s with inputs := rest }
    exact ⟨u, (step_of_decode_ok hs hd).trans hu, exec_inputs hu⟩
  | error _ => exact ⟨_, step_of_illegal hs (by simp [hd]), rfl⟩

/-- Settles O15: the step and every run it is compared with end in a reset, and resets of any two counts agree. -/
theorem resetAbandonsTheCommandAndIsIdempotent : Obligations.ResetAbandonsTheCommandAndIsIdempotent := by
  intro s w rest hs
  obtain ⟨u, hu, hinputs⟩ :=
    exists_step_of_command (s := { s with inputs := .command w :: .reset :: rest }) (w := w) rfl
  exact ⟨_, step_of_resetDuring hs, atReset_hasResetValues _ rest, atReset_rsp _ rest, atReset_inputs _ rest,
    step_of_reset rfl,
    ⟨u, _, hu, step_of_reset hinputs, atReset_agree _ _ rest⟩,
    ⟨_, step_of_reset rfl, atReset_agree _ _ rest⟩⟩

/-! ## Command sequences -/

theorem execAll_cons {i : Instr} {s u : State} (is : List Instr) (h : exec i s = .next u) :
    execAll (i :: is) s = execAll is u := by
  simp [execAll, h]

/-- Among the commands performed from s, some b answered OK. -/
def AnswersOkAmong (b : Instr) (is : List Instr) (s : State) : Prop :=
  ∃ k u v r, is[k]? = some b ∧ execAll (is.take k) s = .next u ∧ exec b u = .next v ∧ v.rsp = some r ∧ rspSt r = 0#8

theorem AnswersOkAmong.head {b : Instr} {s v : State} {r : PortWord} (is : List Instr) (hv : exec b s = .next v)
    (hr : v.rsp = some r) (hok : rspSt r = 0#8) : AnswersOkAmong b (b :: is) s :=
  ⟨0, s, v, r, rfl, rfl, hv, hr, hok⟩

theorem AnswersOkAmong.cons {b i : Instr} {is : List Instr} {s u : State} (hu : exec i s = .next u)
    (h : AnswersOkAmong b is u) : AnswersOkAmong b (i :: is) s := by
  obtain ⟨k, u', v, r, hk, hrun, hv, hr, hok⟩ := h
  exact ⟨k + 1, u', v, r, hk, (execAll_cons (is.take k) hu).trans hrun, hv, hr, hok⟩

/-- What every command keeps unless it is b and answers OK holds after any commands, or some b among them answered OK. -/
theorem execAll_keeps_or_answersOkAmong {P : State → Prop} {b : Instr}
    (hstep : ∀ {i u v}, exec i u = .next v → P u → P v ∨ (i = b ∧ ∃ r, v.rsp = some r ∧ rspSt r = 0#8))
    {is : List Instr} {s t : State} (hs : P s) (ht : execAll is s = .next t) : P t ∨ AnswersOkAmong b is s := by
  induction is generalizing s with
  | nil =>
    cases ht
    exact .inl hs
  | cons i is ih =>
    obtain ⟨u, hu⟩ := exists_exec_next i s
    rcases hstep hu hs with hPu | ⟨rfl, r, hr, hok⟩
    · rw [execAll_cons is hu] at ht
      exact (ih hPu ht).imp_right (.cons hu)
    · exact .inr (.head is hu hr hok)

/-! ## Until a BUILD succeeds -/

/-- SB_VALID stays 0 unless the command is an SBOX_BUILD that answers OK (R38). -/
theorem exec_sbox_valid_cases {i : Instr} {s t : State} (h : exec i s = .next t) (hs : s.sbox.valid = false) :
    t.sbox.valid = false ∨ (i = .sboxBuild ∧ ∃ r, t.rsp = some r ∧ rspSt r = 0#8) := by
  rcases exec_active_cases h with ⟨hkept, -⟩ | ⟨hi, hok, -⟩ | ⟨-, -, hkept⟩
  · exact .inl (hkept ▸ hs)
  · exact .inr ⟨hi, hok⟩
  · exact .inl (hkept ▸ hs)

/-- PB_VALID stays 0 unless the command is a PBOX_BUILD that answers OK (R38). -/
theorem exec_pbox_valid_cases {i : Instr} {s t : State} (h : exec i s = .next t) (hs : s.pbox.valid = false) :
    t.pbox.valid = false ∨ (i = .pboxBuild ∧ ∃ r, t.rsp = some r ∧ rspSt r = 0#8) := by
  rcases exec_active_cases h with ⟨-, hkept⟩ | ⟨-, -, hkept⟩ | ⟨hi, hok, -⟩
  · exact .inl (hkept ▸ hs)
  · exact .inl (hkept ▸ hs)
  · exact .inr ⟨hi, hok⟩

/-- While SB_VALID is 0, the transforms and readbacks of the SBox raise NOT_CONFIGURED (R135, R139, R140). -/
theorem exec_sbox_read_notConfigured {s : State} (hs : s.sbox.valid = false) (len data : Nat) (i : Instr)
    (hi : i = .sboxFwd len data ∨ i = .sboxInv len data ∨ i = .sboxRdf data ∨ i = .sboxRdi data) :
    exec i s = .next (s.answering 0x0400000000000000#64) := by
  rw [← raise_notConfigured]
  rcases hi with rfl | rfl | rfl | rfl
  · exact sboxXform_notConfigured _ len data s hs
  · exact sboxXform_notConfigured _ len data s hs
  · exact sboxReadback_notConfigured _ data s hs
  · exact sboxReadback_notConfigured _ data s hs

/-- While PB_VALID is 0, the transforms and readbacks of the PBox raise NOT_CONFIGURED (R169, R174, R175). -/
theorem exec_pbox_read_notConfigured {s : State} (hs : s.pbox.valid = false) (len data : Nat) (i : Instr)
    (hi : i = .pboxFwd len data ∨ i = .pboxInv len data ∨ i = .pboxRdf data ∨ i = .pboxRdi data) :
    exec i s = .next (s.answering 0x0400000000000000#64) := by
  rw [← raise_notConfigured]
  rcases hi with rfl | rfl | rfl | rfl
  · exact pboxXform_notConfigured _ len data s hs
  · exact pboxXform_notConfigured _ len data s hs
  · exact pboxReadback_notConfigured _ data s hs
  · exact pboxReadback_notConfigured _ data s hs

/-- Settles O52, by induction on the commands, for each kind: its VALID bit is 0 until its BUILD answers OK. -/
theorem notConfiguredUntilABuildSucceeds : Obligations.NotConfiguredUntilABuildSucceeds := by
  intro s t is hs ht
  obtain ⟨hsb, hpb, -⟩ := hs
  have hsbox : t.sbox.valid = false ∨ AnswersOkAmong .sboxBuild is s :=
    execAll_keeps_or_answersOkAmong (P := fun s => s.sbox.valid = false) exec_sbox_valid_cases hsb ht
  have hpbox : t.pbox.valid = false ∨ AnswersOkAmong .pboxBuild is s :=
    execAll_keeps_or_answersOkAmong (P := fun s => s.pbox.valid = false) exec_pbox_valid_cases hpb ht
  exact ⟨hsbox.imp_left fun hv => ⟨hv, exec_sbox_read_notConfigured hv⟩,
    hpbox.imp_left fun hv => ⟨hv, exec_pbox_read_notConfigured hv⟩⟩

end Sys2Proof.Machine
end

section
/-! The elements of a vector as the bits of its integer, the split of a vector, and the width functions at powers of two
(spec/40_codec.md R101, R102, R107, R109). -/

namespace Sys2Proof.Machine

/-! ## Elements and bits -/

/-- Element k of num_to_bits is bit L-1-k: the bits are collected least significant first and then reversed (R102). -/
theorem getElem_numToBits {num L k : Nat} (h : k < (numToBits num L).length) :
    (numToBits num L)[k] = num.testBit (L - 1 - k) := by
  simp [numToBits, List.getElem_reverse]

/-- Every vector is the num_to_bits of its own integer, so its elements are the bits of that (R101). -/
theorem getElem_eq_testBit_bitsToNum (v : Bits) {k : Nat} (h : k < v.length) :
    v[k] = (bitsToNum v).testBit (v.length - 1 - k) := by
  rw [List.getElem_of_eq (numToBits_bitsToNum v).symm h, getElem_numToBits]

/-- Settles O17: a vector is determined by its integer, whose bits num_to_bits lists. -/
theorem vectorElementsAreIntegerBits : Obligations.VectorElementsAreIntegerBits :=
  ⟨fun v _ h => getElem_eq_testBit_bitsToNum v h, bitsToNum_lt, length_numToBits, fun _ _ _ h => getElem_numToBits h⟩

/-! ## Powers of two -/

/-- The all-ones integer of k bits needs exactly k of them (R107). -/
theorem bitlen_two_pow_sub_one (k : Nat) : bitlen (2 ^ k - 1) = k := by
  refine eq_of_forall_ge_iff fun c => ?_
  have hpos := Nat.two_pow_pos k
  rw [bitlen_le_iff, ← Nat.pow_le_pow_iff_right one_lt_two (n := k)]
  omega

/-- Settles O21, from the two width functions at a power of two. -/
theorem powerOfTwoWidths : Obligations.PowerOfTwoWidths := fun k =>
  ⟨ceilLog_two_pow k, by rw [ceilLog_two_pow], bitlen_two_pow_sub_one k⟩

/-! ## The split -/

/-- Settles O22: the split integers are the digits of the whole one in base 2^LM. -/
theorem splitIsRowAndColumn : Obligations.SplitIsRowAndColumn := by
  intro ln lm v hv
  have hjoin := linearAddr_split hv
  have hlt := splitMiddle_lt hv
  have hsum : splitOuter ln v * 2 ^ lm + splitMiddle ln v = bitsToNum v := by rw [← linearAddr_eq _ _ _ hlt, hjoin]
  have hpos := Nat.two_pow_pos lm
  refine ⟨?_, ?_, hjoin⟩
  · rw [← hsum, Nat.mul_comm, Nat.mul_add_div hpos, Nat.div_eq_of_lt hlt, Nat.add_zero]
  · rw [← hsum, Nat.mul_comm, Nat.mul_add_mod, Nat.mod_eq_of_lt hlt]

end Sys2Proof.Machine
end

section
/-! Decoding and encoding undo each other, and the carriage of a word over a byte bus (spec/30_encoding.md R70 to R80,
spec/20_memory.md R54). -/

namespace Sys2Proof

/-! ## The command of a word and the word of a command -/

/-- Settles O1, by decoding each word. -/
theorem specWordsDecode : Obligations.SpecWordsDecode := by
  unfold Obligations.SpecWordsDecode
  decide

theorem encodesItsRow (i : Instr) : Laws.EncodesItsRow.Statement i := by
  cases i with
  | nop => exact Laws.EncodesItsRow.nop
  | getStatus => exact Laws.EncodesItsRow.getStatus
  | sboxBegin => exact Laws.EncodesItsRow.sboxBegin
  | sboxPush data => exact Laws.EncodesItsRow.sboxPush data
  | sboxEndrow => exact Laws.EncodesItsRow.sboxEndrow
  | sboxBuild => exact Laws.EncodesItsRow.sboxBuild
  | sboxFwd len data => exact Laws.EncodesItsRow.sboxFwd len data
  | sboxInv len data => exact Laws.EncodesItsRow.sboxInv len data
  | sboxRdf data => exact Laws.EncodesItsRow.sboxRdf data
  | sboxRdi data => exact Laws.EncodesItsRow.sboxRdi data
  | pboxBegin => exact Laws.EncodesItsRow.pboxBegin
  | pboxPush data => exact Laws.EncodesItsRow.pboxPush data
  | pboxBuild => exact Laws.EncodesItsRow.pboxBuild
  | pboxFwd len data => exact Laws.EncodesItsRow.pboxFwd len data
  | pboxInv len data => exact Laws.EncodesItsRow.pboxInv len data
  | pboxRdf data => exact Laws.EncodesItsRow.pboxRdf data
  | pboxRdi data => exact Laws.EncodesItsRow.pboxRdi data

/-- The operands of a well-formed command fit their fields (R75). -/
theorem Instr.WellFormed.operands_lt {i : Instr} (h : i.WellFormed) : i.len < 64 ∧ i.data < 2 ^ 32 := by
  revert h
  cases i <;> simp [Instr.WellFormed, Instr.wellFormed, Instr.len, Instr.data, lenFits, dataFits]

/-- The opcode map gives a command back from its own OPC, LEN and DATA (R78). -/
theorem opcodeRow_self (i : Instr) : opcodeRow i.opc i.len i.data = some (i.format, i) := by
  cases i <;> rfl

theorem instr_eq_of_fields {i j : Instr} (ho : i.opc = j.opc) (hl : i.len = j.len) (hd : i.data = j.data) : i = j := by
  have h := opcodeRow_self i
  rw [ho, hl, hd, opcodeRow_self j] at h
  injection h with h
  injection h with _ h
  exact h.symm

/-- Settles O2: the row of the command accepts its word, so the word decodes, and OPC, LEN and DATA tell commands
apart. -/
theorem decodeEncodeRoundTrip : Obligations.DecodeEncodeRoundTrip := by
  intro i hi
  obtain ⟨hmem, hacc, hword⟩ := encodesItsRow i hi
  obtain ⟨hlen, hdata⟩ := hi.operands_lt
  obtain ⟨j, hj⟩ := exists_decode_of_accepts hmem hacc
  obtain ⟨hrow, -⟩ := decode_ok hj
  obtain ⟨hopc, -⟩ := opcodeRow_some hrow
  obtain ⟨hl, hd⟩ := decode_ok_operands hj
  rw [hj]
  refine congrArg Except.ok (instr_eq_of_fields ?_ ?_ ?_)
  · rw [hopc, fieldOpc_of_accepts hmem hacc]
  · rw [hl, hword, fieldLen_packWord, Machine.toNat_ofNat_of_lt hlen]
  · rw [hd, hword, fieldData_packWord, Machine.toNat_ofNat_of_lt hdata]

/-- A command read from a word is well-formed: its operands are fields of the word. -/
theorem wellFormed_of_decode_ok {w : PortWord} {i : Instr} (h : decode w = .ok i) : i.WellFormed := by
  obtain ⟨hrow, -⟩ := decode_ok h
  obtain ⟨-, -, -, -, -, hwf⟩ := opcodeRow_some hrow
  exact hwf (Nat.mod_lt _ (by decide)) (Nat.mod_lt _ (by decide))

/-- Settles O3: the three fields of the word are those of the command, and its two reserved fields are 0. -/
theorem decodedWordIsTheCommandsOnlyWord : Obligations.DecodedWordIsTheCommandsOnlyWord := by
  intro w i h
  have hwf := wellFormed_of_decode_ok h
  obtain ⟨-, -, hword⟩ := encodesItsRow i hwf
  obtain ⟨hrow, hhigh, hlow, -⟩ := decode_ok h
  obtain ⟨hopc, -⟩ := opcodeRow_some hrow
  obtain ⟨hl, hd⟩ := decode_ok_operands h
  refine ⟨hwf, ?_⟩
  obtain ⟨opc, rh, len, rl, data, rfl⟩ := exists_packWord w
  rw [fieldOpc_packWord] at hopc
  rw [fieldRsvHigh_packWord] at hhigh
  rw [fieldRsvLow_packWord] at hlow
  rw [fieldLen_packWord] at hl
  rw [fieldData_packWord] at hd
  rw [hword, packWord_inj]
  simp [hopc, hl, hd, ← BitVec.toNat_inj, hhigh, hlow]

/-! ## A word on a byte bus -/

/-- The n lowest bytes of an integer spell it mod 2^(8n). -/
theorem bytesLowToNat_bytes (n x : Nat) :
    bytesLowToNat ((List.range n).map fun k => BitVec.ofNat 8 (x >>> (8 * k))) = x % 2 ^ (8 * n) := by
  induction n generalizing x with
  | zero => simp [bytesLowToNat, Nat.mod_one]
  | succ n ih =>
    have htail : (fun k => BitVec.ofNat 8 (x >>> (8 * k))) ∘ Nat.succ =
        fun k => BitVec.ofNat 8 ((x / 2 ^ 8) >>> (8 * k)) := by
      funext k
      rw [Function.comp_apply, Nat.mul_succ, Nat.add_comm, Nat.shiftRight_add, Nat.shiftRight_eq_div_pow x 8]
    rw [List.range_succ_eq_map, List.map_cons, List.map_map, htail, bytesLowToNat, ih, Nat.mul_zero,
      Nat.shiftRight_zero, BitVec.toNat_ofNat, Nat.mul_succ, Nat.add_comm (8 * n), Nat.pow_add, ← Nat.mod_mul]

theorem bytesLowToNat_wordBytesLow (w : PortWord) : bytesLowToNat (wordBytesLow w) = w.toNat := by
  rw [wordBytesLow, bytesLowToNat_bytes, Nat.mod_eq_of_lt w.isLt]

theorem length_busBytes (o : ByteOrder) (w : PortWord) : (busBytes o w).length = 8 := by
  cases o <;> simp [busBytes, wordBytesLow]

/-- A bus in either order gives back the word put on it. -/
theorem busWord_busBytes (o : ByteOrder) (w : PortWord) : busWord o (busBytes o w) = some w := by
  rw [busWord.eq_def, if_pos (length_busBytes o w)]
  cases o <;> simp [busBytes, bytesLowToNat_wordBytesLow]

/-- Settles O6, from the integer that the bytes spell and the round trip of a command through its word. -/
theorem busCarriesTheWord : Obligations.BusCarriesTheWord := by
  refine ⟨fun o w => ⟨length_busBytes o w, busWord_busBytes o w⟩, fun o bs hne => ?_, fun i hi => ?_⟩
  · rw [decodeBytes, busWord.eq_def, if_neg hne]
  · rw [decodeBytes, busWord_busBytes]
    exact decodeEncodeRoundTrip i hi

end Sys2Proof
end

section
/-! The fields of a response word (spec/30_encoding.md R76), and the commands that only read (spec/20_memory.md R56). -/

namespace Sys2Proof.Machine

/-! ## Response words -/

/-- A word that is the sum of six fields in place has those fields (R76). -/
theorem fields_of_toNat_eq {r : PortWord} {st cause : BitVec 8} {rlen : Dim} {rdata : Entry}
    (h : r.toNat = st.toNat * 2 ^ 56 + rlen.toNat * 2 ^ 48 + cause.toNat * 2 ^ 40 + rdata.toNat) :
    rspSt r = st ∧ r.extractLsb' 54 2 = 0#2 ∧ rspRlen r = rlen ∧ rspCause r = cause ∧ r.extractLsb' 32 8 = 0#8 ∧
      rspRdata r = rdata := by
  have hst := st.isLt; have hrlen := rlen.isLt; have hcause := cause.isLt; have hrdata := rdata.isLt
  simp only [← BitVec.toNat_inj, rspSt, rspRlen, rspCause, rspRdata, BitVec.extractLsb'_toNat, h,
    Nat.shiftRight_eq_div_pow, BitVec.toNat_ofNat]
  refine ⟨?_, ?_, ?_, ?_, ?_, ?_⟩ <;> omega

/-- Settles O7: both builders add up fields that do not overlap. -/
theorem responseWordFields : Obligations.ResponseWordFields := by
  refine ⟨fun st rlen rdata => fields_of_toNat_eq (cause := 0#8) ?_,
    fun e => fields_of_toNat_eq (rlen := 0#6) (rdata := 0#32) ?_⟩
  · rw [toNat_respondWord, BitVec.toNat_zero]; omega
  · rw [toNat_raiseWord, BitVec.toNat_zero, BitVec.toNat_zero]; omega

/-! ## One step -/

/-- Settles O8, from the step on a word that decodes. -/
theorem stepRunsTheDecodedCommand : Obligations.StepRunsTheDecodedCommand := by
  refine ⟨fun s w i rest hs hd => step_of_decode_ok hs hd, fun s w i h => ?_⟩
  have hd : decode (BitVec.ofNat 64 (w % 2 ^ 64)) = .ok i := by
    unfold decodeTableWord at h
    split at h
    next hj => rw [hj, Option.some.inj h]
    next => cases h
  rw [step_of_decode_ok (withFetchWord_inputs s 64 w) hd, withFetchWord_taken]

/-- Every command answers a response word and leaves the inputs and the count of resets. -/
theorem exec_answers_response {i : Instr} {s t : State} (h : exec i s = .next t) :
    ∃ r, t.rsp = some r ∧ t.inputs = s.inputs ∧ t.resets = s.resets := by
  rcases exec_write_cases h with ⟨r, rfl⟩ | ⟨-, _, _, r, rfl⟩ | ⟨-, _, _, r, rfl⟩ <;> exact ⟨r, rfl, rfl, rfl⟩

/-- Settles O9: a legal word performs its command, which answers; an illegal one raises. -/
theorem everyCommandWordAnswersAResponse : Obligations.EveryCommandWordAnswersAResponse := by
  refine ⟨fun s w rest hs => ?_, fun s => ?_⟩
  · cases hd : decode w with
    | ok i =>
      obtain ⟨t, ht⟩ := exists_exec_next i { s with inputs := rest }
      obtain ⟨r, hr, hin, hres⟩ := exec_answers_response ht
      exact ⟨t, r, (step_of_decode_ok hs hd).trans ht, hr, hin, hres⟩
    | error _ => exact ⟨_, _, step_of_illegal hs (by simp [hd]), rfl, rfl, rfl⟩
  · rcases step_cases s with ⟨-, h⟩ | ⟨_, _, i, -, -, h⟩ | ⟨_, _, _, -, -, h⟩ | ⟨_, -, h⟩
    · exact ⟨_, h⟩
    · obtain ⟨t, ht⟩ := exists_exec_next i _
      exact ⟨t, h.trans ht⟩
    · exact ⟨_, h⟩
    · exact ⟨_, h⟩

/-- Settles O53: a read only replaces the response, and no command reads the response. -/
theorem readsHaveNoSideEffect : Obligations.ReadsHaveNoSideEffect := by
  intro i s hi
  have hanswers : ∃ r, exec i s = .next (s.answering r) := by
    rcases exec_read_outcome i s hi with ⟨_, h⟩ | ⟨_, _, h⟩ <;> exact ⟨_, h⟩
  obtain ⟨r, hr⟩ := hanswers
  exact ⟨r, hr, fun q => (exec_answering i s q).trans hr⟩

end Sys2Proof.Machine
end

section
/-! Which command raises which error, and in which state (spec/60_exceptions.md R201, R202; spec/30_encoding.md R81). -/

namespace Sys2Proof.Machine

/-! ## Errors and their commands -/

/-- The command may raise the error in the state (R201). -/
def RaisedBy (i : Instr) (s : State) : Error → Prop
  | .invalidTable _ => i = .sboxBuild
  | .invalidPermutation _ => i = .pboxBuild
  | .invalidInputLength => ∃ len data,
      ((i = .sboxFwd len data ∨ i = .sboxInv len data) ∧ s.sbox.valid = true ∧ len ≠ s.sbB) ∨
      ((i = .pboxFwd len data ∨ i = .pboxInv len data) ∧ s.pbox.valid = true ∧ len ≠ s.pbN)
  | .notConfigured => (i.isSbox = true ∧ i.isRead = true ∧ s.sbox.valid = false) ∨
      (i.isPbox = true ∧ i.isRead = true ∧ s.pbox.valid = false)
  | .illegalCommand => False
  | .sequenceError => (((∃ d, i = .sboxPush d) ∨ i = .sboxEndrow ∨ i = .sboxBuild) ∧ s.sstg.isOpen = false) ∨
      (((∃ d, i = .pboxPush d) ∨ i = .pboxBuild) ∧ s.pstg.isOpen = false)
  | .indexRange => ∃ data,
      ((i = .sboxRdf data ∨ i = .sboxRdi data) ∧ s.sbox.valid = true ∧ 2 ^ s.sbB ≤ data) ∨
      ((i = .pboxRdf data ∨ i = .pboxRdi data) ∧ s.pbox.valid = true ∧ s.pbN ≤ data)

/-- The outcome is an error that the command may raise in the state, or ends in `respond`. -/
def RaisesOrResponds (i : Instr) (s : State) (o : Host.Outcome State Fault Refusal) : Prop :=
  (∃ e, o = raise e s ∧ RaisedBy i s e) ∨ ∃ rlen rdata u, o = respond rlen rdata u

section outcomes
variable {i : Instr} {len data : Nat} {s : State}

theorem RaisesOrResponds.respond {rlen rdata : Nat} {u : State} :
    RaisesOrResponds i s (Machine.respond rlen rdata u) :=
  .inr ⟨rlen, rdata, u, rfl⟩

theorem RaisesOrResponds.raise {e : Error} (h : RaisedBy i s e) : RaisesOrResponds i s (Machine.raise e s) :=
  .inl ⟨e, rfl, h⟩

theorem sboxXform_raisesOrResponds (table : Nat → Entry) (hi : i = .sboxFwd len data ∨ i = .sboxInv len data) :
    RaisesOrResponds i s (sboxXform table len data s) := by
  rcases sboxXform_outcome table len data s with ⟨h, hv⟩ | ⟨h, hv, hl⟩ | ⟨_, h⟩ <;> rw [h]
  · exact .raise (.inl (by rcases hi with rfl | rfl <;> exact ⟨rfl, rfl, hv⟩))
  · exact .raise ⟨len, data, .inl ⟨hi, hv, hl⟩⟩
  · exact .respond

theorem pboxXform_raisesOrResponds (perm : Nat → Position) (hi : i = .pboxFwd len data ∨ i = .pboxInv len data) :
    RaisesOrResponds i s (pboxXform perm len data s) := by
  rcases pboxXform_outcome perm len data s with ⟨h, hv⟩ | ⟨h, hv, hl⟩ | ⟨_, h⟩ <;> rw [h]
  · exact .raise (.inr (by rcases hi with rfl | rfl <;> exact ⟨rfl, rfl, hv⟩))
  · exact .raise ⟨len, data, .inr ⟨hi, hv, hl⟩⟩
  · exact .respond

theorem sboxReadback_raisesOrResponds (table : Nat → Entry) (hi : i = .sboxRdf data ∨ i = .sboxRdi data) :
    RaisesOrResponds i s (sboxReadback table data s) := by
  rcases sboxReadback_outcome table data s with ⟨h, hv⟩ | ⟨h, hv, hd⟩ | h <;> rw [h]
  · exact .raise (.inl (by rcases hi with rfl | rfl <;> exact ⟨rfl, rfl, hv⟩))
  · exact .raise ⟨data, .inl ⟨hi, hv, hd⟩⟩
  · exact .respond

theorem pboxReadback_raisesOrResponds (perm : Nat → Position) (hi : i = .pboxRdf data ∨ i = .pboxRdi data) :
    RaisesOrResponds i s (pboxReadback perm data s) := by
  rcases pboxReadback_outcome perm data s with ⟨h, hv⟩ | ⟨h, hv, hd⟩ | h <;> rw [h]
  · exact .raise (.inr (by rcases hi with rfl | rfl <;> exact ⟨rfl, rfl, hv⟩))
  · exact .raise ⟨data, .inr ⟨hi, hv, hd⟩⟩
  · exact .respond

end outcomes

/-- A command raises only the errors that are its own, each in a state where the error's condition holds. -/
theorem exec_raisesOrResponds (i : Instr) (s : State) : RaisesOrResponds i s (exec i s) := by
  cases i with
  | nop => exact .respond
  | getStatus => exact .respond
  | sboxBegin => exact .respond
  | pboxBegin => exact .respond
  | sboxFwd len data => exact sboxXform_raisesOrResponds s.sbFwdAt (.inl rfl)
  | sboxInv len data => exact sboxXform_raisesOrResponds s.sbInvAt (.inr rfl)
  | sboxRdf data => exact sboxReadback_raisesOrResponds s.sbFwdAt (.inl rfl)
  | sboxRdi data => exact sboxReadback_raisesOrResponds s.sbInvAt (.inr rfl)
  | pboxFwd len data => exact pboxXform_raisesOrResponds s.pbFwdAt (.inl rfl)
  | pboxInv len data => exact pboxXform_raisesOrResponds s.pbInvAt (.inr rfl)
  | pboxRdf data => exact pboxReadback_raisesOrResponds s.pbFwdAt (.inl rfl)
  | pboxRdi data => exact pboxReadback_raisesOrResponds s.pbInvAt (.inr rfl)
  | sboxPush data =>
    cases ho : s.sstg.isOpen with
    | false => exact .inl ⟨_, execSboxPush_closed data s ho, .inl ⟨.inl ⟨data, rfl⟩, ho⟩⟩
    | true => exact .inr ⟨_, _, _, execSboxPush_open data s ho⟩
  | sboxEndrow =>
    cases ho : s.sstg.isOpen with
    | false => exact .inl ⟨_, execSboxEndrow_closed s ho, .inl ⟨.inr (.inl rfl), ho⟩⟩
    | true => exact .inr ⟨_, _, _, execSboxEndrow_open s ho⟩
  | sboxBuild =>
    cases ho : s.sstg.isOpen with
    | false => exact .inl ⟨_, execSboxBuild_closed s ho, .inl ⟨.inr (.inr rfl), ho⟩⟩
    | true =>
      cases hv : s.tableVerdict with
      | error c => exact .inl ⟨_, execSboxBuild_refused s ho hv, rfl⟩
      | ok d => exact .inr ⟨_, _, _, execSboxBuild_of_ok ho hv⟩
  | pboxPush data =>
    cases ho : s.pstg.isOpen with
    | false => exact .inl ⟨_, execPboxPush_closed data s ho, .inr ⟨.inl ⟨data, rfl⟩, ho⟩⟩
    | true => exact .inr ⟨_, _, _, execPboxPush_open data s ho⟩
  | pboxBuild =>
    cases ho : s.pstg.isOpen with
    | false => exact .inl ⟨_, execPboxBuild_closed s ho, .inr ⟨.inr rfl, ho⟩⟩
    | true =>
      cases hv : s.permVerdict with
      | some c => exact .inl ⟨_, execPboxBuild_refused s ho hv, rfl⟩
      | none => exact .inr ⟨_, _, _, execPboxBuild_installs s ho hv⟩

theorem rspCause_respondWord (st : BitVec 8) (rlen : Dim) (rdata : Entry) :
    rspCause (respondWord st rlen rdata) = 0#8 := by
  obtain ⟨-, -, -, hcause, -⟩ := responseWordFields.1 st rlen rdata
  exact hcause

/-- Settles O12: each error has its own status code, its causes, and the commands that raise it. -/
theorem statusTellsTheError : Obligations.StatusTellsTheError := by
  intro i s t r ht hr
  rcases exec_raisesOrResponds i s with ⟨e, he, hby⟩ | ⟨rlen, rdata, u, he⟩ <;> rw [he] at ht
  · obtain rfl := raise_next ht
    obtain rfl : raiseWord e = r := Option.some.inj hr
    simp only [rspSt_raiseWord, rspCause_raiseWord]
    cases e with
    | invalidTable c => cases c <;> simpa [RaisedBy, Error.st, Error.cause, TableCause.code] using hby
    | invalidPermutation c => cases c <;> simpa [RaisedBy, Error.st, Error.cause, PermCause.code] using hby
    | illegalCommand => exact hby.elim
    | invalidInputLength => simpa [RaisedBy, Error.st, Error.cause] using hby
    | notConfigured => simpa [RaisedBy, Error.st, Error.cause] using hby
    | sequenceError => simpa [RaisedBy, Error.st, Error.cause] using hby
    | indexRange => simpa [RaisedBy, Error.st, Error.cause] using hby
  · obtain rfl := respond_next ht
    obtain rfl := Option.some.inj hr
    simp [rspSt_respondWord, rspCause_respondWord, stOk]

/-! ## Vectors above 32 bits -/

/-- An SBox transform of a length that no active SBox has (R81, R135). -/
theorem sboxXform_fails {table : Nat → Entry} {len data : Nat} {s : State} (h : s.sbox.valid = true → len ≠ s.sbB) :
    sboxXform table len data s = .next (s.answering (errWord 3 0)) ∨
      sboxXform table len data s = .next (s.answering (errWord 4 0)) := by
  cases hv : s.sbox.valid with
  | false => exact .inr (sboxXform_notConfigured table len data s hv)
  | true => exact .inl (sboxXform_length table len data s hv (h hv))

/-- A PBox transform of a length that no active PBox has (R81, R169). -/
theorem pboxXform_fails {perm : Nat → Position} {len data : Nat} {s : State} (h : s.pbox.valid = true → len ≠ s.pbN) :
    pboxXform perm len data s = .next (s.answering (errWord 3 0)) ∨
      pboxXform perm len data s = .next (s.answering (errWord 4 0)) := by
  cases hv : s.pbox.valid with
  | false => exact .inr (pboxXform_notConfigured perm len data s hv)
  | true => exact .inl (pboxXform_length perm len data s hv (h hv))

/-- Settles O56: under the invariant an active width is at most 32, and LEN up to 63 fits its field. -/
theorem vectorsAbove32BitsAlwaysFail : Obligations.VectorsAbove32BitsAlwaysFail := by
  intro len data h32 h64 hd s ⟨hsbox, hpbox, _⟩ i hi
  have hs : s.sbox.valid = true → len ≠ s.sbB := fun hv => by have := hsbox.sbB_le hv; omega
  have hp : s.pbox.valid = true → len ≠ s.pbN := fun hv => by have := hpbox.pbN_le hv; omega
  have hwf : i.WellFormed := by
    rcases hi with rfl | rfl | rfl | rfl <;>
      simpa [Instr.WellFormed, Instr.wellFormed, lenFits, dataFits] using ⟨h64, hd⟩
  refine ⟨decodeEncodeRoundTrip i hwf, ?_⟩
  rcases hi with rfl | rfl | rfl | rfl
  · exact sboxXform_fails hs
  · exact sboxXform_fails hs
  · exact pboxXform_fails hp
  · exact pboxXform_fails hp

end Sys2Proof.Machine
end

section
/-! The inverse table in closed form, and tables that are no bijection (spec/41_sbox.md R133, R134, R141). -/

namespace Sys2Proof.Machine

/-! ## The inverse table -/

/-- The split address of an entry of LN + LM bits is the entry (R133). -/
theorem inverseTarget_eq {ln lm : Nat} {y : Entry} (h : y.toNat < 2 ^ (ln + lm)) : inverseTarget ln lm y = y.toNat :=
  (linearAddr_split_operand ln lm y.toNat rfl).trans (Nat.mod_eq_of_lt h)

/-- Row i and column j form an address of the index space (R24). -/
theorem rowMajor_lt {ln lm i j : Nat} (hi : i < 2 ^ ln) (hj : j < 2 ^ lm) : i * 2 ^ lm + j < 2 ^ (ln + lm) :=
  calc i * 2 ^ lm + j < (i + 1) * 2 ^ lm := by rw [Nat.succ_mul]; omega
    _ ≤ 2 ^ ln * 2 ^ lm := Nat.mul_le_mul_right _ hi
    _ = 2 ^ (ln + lm) := (Nat.pow_add ..).symm

/-- Over entries of LN + LM bits, the builder's two loops write address a at the cell of entry a, in address order. -/
theorem inverseTableBuilder_eq_foldl {ln lm : Nat} {table : List Entry}
    (h : ∀ a < 2 ^ (ln + lm), (table.getD a 0#32).toNat < 2 ^ (ln + lm)) : inverseTableBuilder table ln lm =
      (List.range (2 ^ (ln + lm))).foldl (fun q a => q.set (table.getD a 0#32).toNat (BitVec.ofNat 32 a))
        (List.replicate (2 ^ (ln + lm)) 0#32) := by
  rw [inverseTableBuilder, Nat.pow_add, ← foldl_rows, ← Nat.pow_add]
  refine List.foldl_ext _ _ _ fun q i hi => List.foldl_ext _ _ _ fun q j hj => ?_
  have hj := List.mem_range.1 hj
  rw [linearAddr_eq lm i j hj, inverseTarget_eq (h _ (rowMajor_lt (List.mem_range.1 hi) hj))]

/-- One more index, which the table sends to y: it is the largest. -/
theorem inverseCell_succ_same {table : Nat → Nat} {N y : Nat} (h : table N = y) : InverseCell table (N + 1) y N :=
  .inl ⟨⟨N.lt_succ_self, h⟩, fun _ ha => Nat.le_of_lt_succ ha.1⟩

/-- One more index, which the table sends elsewhere. -/
theorem InverseCell.succ_other {table : Nat → Nat} {N y v : Nat} (h : InverseCell table N y v) (hne : table N ≠ y) :
    InverseCell table (N + 1) y v := by
  have hold : ∀ {a}, a < N + 1 → table a = y → a < N := fun {a} ha hy =>
    (Nat.lt_succ_iff_lt_or_eq.1 ha).resolve_right fun haN => hne (haN ▸ hy)
  rcases h with ⟨⟨hv, hy⟩, hmax⟩ | ⟨hgap, hv⟩
  · exact .inl ⟨⟨hv.trans N.lt_succ_self, hy⟩, fun a ha => hmax ⟨hold ha.1 ha.2, ha.2⟩⟩
  · exact .inr ⟨fun a ha hy => hgap a (hold ha hy) hy, hv⟩

/-- Writing each index a below N at cell f a, in order, leaves the last index written at a cell, and 0 at the others. -/
theorem inverseCell_foldl_set (f : Nat → Nat) {M N y : Nat} (hN : N ≤ 2 ^ 32) (hy : y < M) : InverseCell f N y
    (((List.range N).foldl (fun q a => q.set (f a) (BitVec.ofNat 32 a))
      (List.replicate M 0#32)).getD y 0#32).toNat := by
  induction N with
  | zero => exact .inr ⟨fun _ ha => absurd ha (Nat.not_lt_zero _), by simp⟩
  | succ N ih =>
    rw [List.range_succ, List.foldl_append, List.foldl_cons, List.foldl_nil, List.getD_eq_getElem?_getD]
    by_cases hf : f N = y
    · have hlen : f N < ((List.range N).foldl (fun q a => q.set (f a) (BitVec.ofNat 32 a))
          (List.replicate M 0#32)).length := by simpa [hf] using hy
      rw [← hf, List.getElem?_set_self hlen, Option.getD_some, toNat_ofNat_of_lt (by omega)]
      exact inverseCell_succ_same rfl
    · rw [List.getElem?_set_ne hf, ← List.getD_eq_getElem?_getD]
      exact (ih (by omega)).succ_other hf

/-- Settles O28: the builder writes the addresses in ascending order, so that the largest preimage remains. -/
theorem inverseTableIsTheLargestPreimage : Obligations.InverseTableIsTheLargestPreimage := by
  intro ln lm table hb hlen htable
  have hlt : ∀ a < 2 ^ (ln + lm), (table.getD a 0#32).toNat < 2 ^ (ln + lm) := fun a ha => by
    rw [List.getD_eq_getElem _ _ (hlen ▸ ha)]
    exact htable _ (List.getElem_mem _)
  refine ⟨length_inverseTableBuilder table ln lm, fun y hy => ?_⟩
  rw [inverseTableBuilder_eq_foldl hlt]
  exact inverseCell_foldl_set _ (Nat.pow_le_pow_right (by decide) hb) hy

/-! ## Tables that are no bijection -/

/-- A map of `[0, N)` into itself that misses nothing is a bijection. -/
theorem bijOn_Iio_of_surjOn {f : Nat → Nat} {N : Nat} (hmaps : Set.MapsTo f (Set.Iio N) (Set.Iio N))
    (hsurj : Set.SurjOn f (Set.Iio N) (Set.Iio N)) : Set.BijOn f (Set.Iio N) (Set.Iio N) := by
  rw [← Finset.coe_Iio] at *
  exact ⟨hmaps, Finset.injOn_of_surjOn_of_card_le f hmaps hsurj le_rfl, hsurj⟩

/-- A map of `[0, N)` into itself that does not repeat a value is a bijection. -/
theorem bijOn_Iio_of_injOn {f : Nat → Nat} {N : Nat} (hmaps : Set.MapsTo f (Set.Iio N) (Set.Iio N))
    (hinj : Set.InjOn f (Set.Iio N)) : Set.BijOn f (Set.Iio N) (Set.Iio N) := by
  rw [← Finset.coe_Iio] at *
  exact ⟨hmaps, hinj, Finset.surjOn_of_injOn_of_card_le f hmaps hinj le_rfl⟩

/-- Settles O33: a table that missed nothing would be a bijection, and so would one that SBOX_INV always brings back. -/
theorem nonBijectiveTableLosesAVector : Obligations.NonBijectiveTableLosesAVector := by
  intro s hs hv hbij
  have hmaps : Set.MapsTo s.sbFwdNat (Set.Iio (2 ^ s.sbB)) (Set.Iio (2 ^ s.sbB)) := hs.sbFwdNat_lt hv
  refine ⟨?_, ?_⟩
  · obtain ⟨y, hy, hgap⟩ : ∃ y < 2 ^ s.sbB, ∀ a < 2 ^ s.sbB, s.sbFwdNat a ≠ y := by
      by_contra! hno
      exact hbij (bijOn_Iio_of_surjOn hmaps fun y hy => hno y hy)
    rcases hs.inverseCell hv y hy with ⟨⟨ha, hay⟩, -⟩ | ⟨-, hzero⟩
    · exact absurd hay (hgap _ ha)
    · exact ⟨y, hy, hgap, hzero⟩
  · obtain ⟨x, hx, hlost⟩ : ∃ x < 2 ^ s.sbB, s.sbInvNat (s.sbFwdNat x) ≠ x := by
      by_contra! hno
      have hleft : Set.LeftInvOn s.sbInvNat s.sbFwdNat (Set.Iio (2 ^ s.sbB)) := hno
      exact hbij (bijOn_Iio_of_injOn hmaps hleft.injOn)
    have hy := hs.sbFwdNat_lt hv x hx
    exact ⟨x, hx, _, hy, _, hs.sbInvNat_lt hv _ hy, hlost, exec_sboxFwd_answers hs hv hx, exec_sboxInv_answers hs hv hy⟩

end Sys2Proof.Machine
end

section
/-! PBOX_BUILD accepts exactly the permutations, and the PBox transforms in integer form (spec/42_pbox.md R166, R172,
R173). -/

namespace Sys2Proof.Machine

/-! ## What PBOX_BUILD accepts -/

theorem permVerdict_eq_none_iff_permutation (s : State) : s.permVerdict = none ↔
    1 ≤ s.pstg.cnt ∧ s.pstg.cnt ≤ 32 ∧ s.StagedPermutation s.pstg.cnt := by
  by_cases hlen : s.pstg.cnt = 0 ∨ 32 < s.pstg.cnt
  · rw [permVerdict_length hlen]
    simp only [reduceCtorEq, false_iff]
    omega
  · rw [permVerdict_eq_none_iff (by omega) (by omega)]
    exact ⟨fun h => ⟨by omega, by omega, h⟩, fun ⟨_, _, h⟩ => h⟩

/-- Settles O39: PBOX_BUILD answers OK exactly when its verdict finds no fault. -/
theorem pboxBuildAcceptsExactlyThePermutations : Obligations.PboxBuildAcceptsExactlyThePermutations := by
  intro s ho
  rw [← permVerdict_eq_none_iff_permutation]
  cases hv : s.permVerdict with
  | none => exact ⟨_, _, execPboxBuild_installs s ho hv, rfl, by simp [stOk]⟩
  | some c => exact ⟨_, _, execPboxBuild_refused s ho hv, rfl, by simp [Error.st]⟩

/-! ## The transforms as scatters of the bits of an integer -/

/-- Vectors of one length that agree element by element are the bits of one integer below 2^L. -/
theorem eq_of_getElem?_numToBits {x z L : Nat} (hx : x < 2 ^ L) (hz : z < 2 ^ L)
    (h : ∀ k < L, (numToBits z L)[k]? = (numToBits x L)[k]?) : z = x := by
  have hbits : numToBits z L = numToBits x L := by
    refine List.ext_getElem? fun k => ?_
    rcases Nat.lt_or_ge k L with hk | hk
    · exact h k hk
    · rw [List.getElem?_eq_none (by simpa), List.getElem?_eq_none (by simpa)]
  rw [← Nat.mod_eq_of_lt hz, ← bitsToNum_numToBits, hbits, bitsToNum_numToBits, Nat.mod_eq_of_lt hx]

theorem getElem?_numToBits {x L k : Nat} (h : k < L) : (numToBits x L)[k]? = some (x.testBit (L - 1 - k)) := by
  rw [List.getElem?_eq_getElem (by simpa), getElem_numToBits]

/-- Element i of x is element p(i) - 1 of y, for each index i of a vector of n bits (R169). -/
def ScattersTo (p : Nat → Nat) (n x y : Nat) : Prop :=
  ∀ i < n, (numToBits y n)[p i - 1]? = (numToBits x n)[i]?

section scatter
variable {p q : Nat → Nat} {n x y z : Nat}

/-- The gather form, by the map that p undoes (R173). -/
theorem ScattersTo.gather (h : ScattersTo p n x y) (hq : ∀ k < n, 1 ≤ q k ∧ q k ≤ n)
    (hpq : ∀ k < n, p (q k - 1) = k + 1) {k : Nat} (hk : k < n) : (numToBits y n)[k]? = (numToBits x n)[q k - 1]? := by
  have hlt : q k - 1 < n := by have := hq k hk; omega
  simpa [hpq k hk] using h _ hlt

/-- The integer form: bit n - p(i) of y is bit n - 1 - i of x (R173). -/
theorem ScattersTo.testBit (h : ScattersTo p n x y) (hp : ∀ i < n, 1 ≤ p i ∧ p i ≤ n) {i : Nat} (hi : i < n) :
    y.testBit (n - p i) = x.testBit (n - 1 - i) := by
  obtain ⟨h1, hn⟩ := hp i hi
  have hbit := h i hi
  rw [getElem?_numToBits (by omega), getElem?_numToBits hi, Option.some.injEq] at hbit
  rwa [show n - p i = n - 1 - (p i - 1) by omega]

/-- Scattering by p and then by the map that undoes p gives the vector back (R172). -/
theorem ScattersTo.undo (hxy : ScattersTo p n x y) (hyz : ScattersTo q n y z) (hp : ∀ i < n, 1 ≤ p i ∧ p i ≤ n)
    (hqp : ∀ i < n, q (p i - 1) = i + 1) (hx : x < 2 ^ n) (hz : z < 2 ^ n) : z = x :=
  eq_of_getElem?_numToBits hx hz fun _ hk => (hyz.gather hp hqp hk).trans (hxy _ hk)

end scatter

/-- A transform of an operand of PB_N bits answers the integer whose bits are the operand's, scattered (R169). -/
theorem pboxXform_scatters {perm : Nat → Position} {s : State} (hv : s.pbox.valid = true) (hn : s.pbN ≤ 32)
    (hbij : Set.BijOn (fun i => (perm i).toNat) (Set.Iio s.pbN) (Set.Icc 1 s.pbN)) (x : Nat) :
    ∃ y < 2 ^ s.pbN, pboxXform perm s.pbN x s = .next (s.answering (okWord s.pbN y)) ∧
      ScattersTo (fun i => (perm i).toNat) s.pbN x y := by
  obtain ⟨-, -, hok⟩ := pboxXform_permutes (data := x) (len := s.pbN) (fun _ => ⟨hn, hbij⟩)
  obtain ⟨vout, hlen, hvout, hexec⟩ := hok hv rfl
  refine ⟨bitsToNum vout, hlen ▸ bitsToNum_lt vout, hexec, fun i hi => ?_⟩
  rw [← hvout i hi, ← hlen, numToBits_bitsToNum]

/-! ## The active permutations -/

section active
variable {s : State} (hs : s.PboxInv) (hv : s.pbox.valid = true)
include hs hv

theorem exec_pboxFwd_scatters (x : Nat) : ∃ y < 2 ^ s.pbN,
    exec (.pboxFwd s.pbN x) s = .next (s.answering (okWord s.pbN y)) ∧ ScattersTo s.pbFwdNat s.pbN x y :=
  pboxXform_scatters hv (hs.pbN_le hv) (hs.bijOn_pbFwdNat hv) x

theorem exec_pboxInv_scatters (x : Nat) : ∃ y < 2 ^ s.pbN,
    exec (.pboxInv s.pbN x) s = .next (s.answering (okWord s.pbN y)) ∧ ScattersTo s.pbInvNat s.pbN x y :=
  pboxXform_scatters hv (hs.pbN_le hv) (hs.bijOn_pbInvNat hv) x

/-- Both arrays hold positions from 1 to PB_N (R31). -/
theorem State.PboxInv.positions : (∀ i < s.pbN, 1 ≤ s.pbFwdNat i ∧ s.pbFwdNat i ≤ s.pbN) ∧
    (∀ i < s.pbN, 1 ≤ s.pbInvNat i ∧ s.pbInvNat i ≤ s.pbN) :=
  ⟨fun _ hi => (hs.bijOn_pbFwdNat hv).mapsTo hi, fun _ hi => (hs.bijOn_pbInvNat hv).mapsTo hi⟩

/-- Each array undoes the other (R31). -/
theorem State.PboxInv.undo : (∀ i < s.pbN, s.pbInvNat (s.pbFwdNat i - 1) = i + 1) ∧
    (∀ k < s.pbN, s.pbFwdNat (s.pbInvNat k - 1) = k + 1) := by
  obtain ⟨-, -, -, -, hundo⟩ := hs hv
  exact hundo

end active

/-- Settles O43, from the two forms of a scatter. -/
theorem pboxTransformsInIntegerForm : Obligations.PboxTransformsInIntegerForm := by
  intro s data hs hv _
  obtain ⟨hfwd, hinv⟩ := hs.positions hv
  obtain ⟨hinvFwd, hfwdInv⟩ := hs.undo hv
  obtain ⟨y, hy, hexecF, hscatF⟩ := exec_pboxFwd_scatters hs hv data
  obtain ⟨z, hz, hexecI, hscatI⟩ := exec_pboxInv_scatters hs hv data
  exact ⟨⟨y, hy, hexecF, fun _ hk => hscatF.gather hinv hfwdInv hk, fun _ hi => hscatF.testBit hfwd hi⟩,
    ⟨z, hz, hexecI, fun _ hk => hscatI.gather hfwd hinvFwd hk, fun _ hi => hscatI.testBit hinv hi⟩⟩

/-- Settles O44: the two arrays undo each other, and so do the scatters by them. -/
theorem pboxTransformsAreInverse : Obligations.PboxTransformsAreInverse := by
  intro s hs hv x hx
  obtain ⟨hfwd, hinv⟩ := hs.positions hv
  obtain ⟨hinvFwd, hfwdInv⟩ := hs.undo hv
  refine ⟨?_, ?_⟩
  · obtain ⟨y, hy, hexecF, hxy⟩ := exec_pboxFwd_scatters hs hv x
    obtain ⟨z, hz, hexecI, hyz⟩ := exec_pboxInv_scatters hs hv y
    obtain rfl := hxy.undo hyz hfwd hinvFwd hx hz
    exact ⟨y, hy, hexecF, hexecI⟩
  · obtain ⟨y, hy, hexecI, hxy⟩ := exec_pboxInv_scatters hs hv x
    obtain ⟨z, hz, hexecF, hyz⟩ := exec_pboxFwd_scatters hs hv y
    obtain rfl := hxy.undo hyz hinv hfwdInv hx hz
    exact ⟨y, hy, hexecI, hexecF⟩

end Sys2Proof.Machine
end

section
/-! The invariant of the block: it holds at reset and every step keeps it (spec/10_state.md R26, R31, R33 to R36;
spec/41_sbox.md R125, R126; spec/20_memory.md R51). -/

namespace Sys2Proof.Machine

/-! ## Reset -/

/-- After reset no active part is there and nothing is staged, so that every bound holds. -/
theorem atReset_inv (k : Nat) (is : List HostInput) : (State.atReset k is).Inv := by
  simp [State.Inv, State.SboxInv, State.PboxInv, State.SstgInv, State.PstgInv, State.ArraysInv]

/-- Settles O49, from the values of every reset. -/
theorem resetMeetsTheBlockInvariant : Obligations.ResetMeetsTheBlockInvariant := atReset_inv 0 []

/-! ## The SBox load -/

section sboxLoad
variable {s : State}

/-- An empty SBox load, open or not. -/
theorem sstgInv_of_empty (h : s.sstg.cnt = 0 ∧ s.sstg.rows = 0 ∧ s.sstg.cur = 0 ∧ s.sstg.m = none ∧
    s.sstg.ragged = false) : s.SstgInv := by
  obtain ⟨hcnt, hrows, hcur, hm, hragged⟩ := h
  simp [State.SstgInv, hcnt, hrows, hcur, hm, hragged]

/-- One more entry goes to the open row and to the whole count alike (R121). -/
theorem State.SstgInv.append (h : s.SstgInv) (v : Entry) : ({ s with sstg := sboxAppend v s } : State).SstgInv := by
  obtain ⟨hcnt, hrows, hcur, hm, hnone, hragged, hcount⟩ := h
  have hfields : (sboxAppend v s).rows = s.sstg.rows ∧ (sboxAppend v s).m = s.sstg.m ∧
      (sboxAppend v s).ragged = s.sstg.ragged := ⟨rfl, rfl, rfl⟩
  obtain ⟨hrows', hm', hragged'⟩ := hfields
  simp only [State.SstgInv, sboxAppend_cnt, sboxAppend_cur, hrows', hm', hragged']
  refine ⟨by omega, hrows, by omega, fun m hs => ?_, hnone, hragged, fun hle hr => ?_⟩
  · have := hm m hs; omega
  · have := hcount (by omega) hr; omega

/-- Closing a row moves the entries of the open row to the closed ones: a table that stays rectangular has one more row
of the same length (R122). -/
theorem State.SstgInv.closeRow (h : s.SstgInv) : ({ s with sstg := Machine.closeRow s.sstg } : State).SstgInv := by
  obtain ⟨hcnt, hrows, hcur, hm, hnone, hragged, hcount⟩ := h
  simp only [State.SstgInv, closeRow_cnt, closeRow_rows, closeRow_cur, closeRow_m, closeRow_ragged, Option.some.injEq,
    Option.getD_some, Nat.add_zero, Bool.or_eq_false_iff, decide_eq_false_iff_not, not_not]
  refine ⟨hcnt, by omega, Nat.zero_le _, ?_, by simp, by simp, ?_⟩
  · rintro _ rfl
    cases hfirst : s.sstg.m with
    | none => exact hcur
    | some m => exact hm m hfirst
  · rintro hle ⟨hr, hlen⟩
    replace hcount := hcount hle hr
    rw [hlen]
    cases hfirst : s.sstg.m with
    | none => simpa [hnone.1 hfirst, hfirst] using hcount
    | some m =>
      rw [hfirst, Option.getD_some] at hcount hlen
      rw [← hlen] at hcount ⊢
      rcases Nat.lt_or_ge Config.cap s.sstg.rows with hfull | hroom
      -- a saturated row count with no overflow of entries: the rows are empty
      · have hzero : m = 0 := by
          by_contra hne
          have : s.sstg.rows * 1 ≤ s.sstg.rows * m := Nat.mul_le_mul_left _ (Nat.one_le_iff_ne_zero.2 hne)
          omega
        simpa [hzero] using hcount
      · rw [min_eq_left (by omega), Nat.succ_mul, hcount]

/-- The staged cells have room for one more entry below capacity, and are left alone at capacity (R121). -/
theorem State.ArraysInv.sboxAppend (h : s.ArraysInv) (v : Entry) :
    ({ s with sstg := Machine.sboxAppend v s } : State).ArraysInv := by
  obtain ⟨hf, hi, hb, hpf, hpi, hpb, hst, hpst⟩ := h
  refine ⟨hf, hi, ?_, hpf, hpi, hpb, ?_, hpst⟩
  all_goals
    rcases Nat.lt_or_ge s.sstg.cnt Config.cap with hlt | hge
    · simp only [sboxAppend_buf_of_lt v s hlt, sboxAppend_cnt, Cells.length_write]
      omega
    · simp only [sboxAppend_buf_of_ge v s hge, sboxAppend_cnt]
      omega

end sboxLoad

/-! ## The PBox load -/

section pboxLoad
variable {s : State}

theorem pstgInv_append (v : Entry) : ({ s with pstg := pboxAppend v s } : State).PstgInv := Nat.min_le_right _ _

/-- The staged cells have room for a value while fewer than 32 were pushed, and are left alone after that (R161). -/
theorem State.ArraysInv.pboxAppend (h : s.ArraysInv) (v : Entry) :
    ({ s with pstg := Machine.pboxAppend v s } : State).ArraysInv := by
  obtain ⟨hf, hi, hb, hpf, hpi, hpb, hst, hpst⟩ := h
  have hcnt : (Machine.pboxAppend v s).cnt = min (s.pstg.cnt + 1) 33 := rfl
  refine ⟨hf, hi, hb, hpf, hpi, ?_, hst, ?_⟩
  all_goals
    rcases Nat.lt_or_ge s.pstg.cnt 32 with hlt | hge
    · simp only [pboxAppend_buf_of_lt v s hlt, hcnt, Cells.length_write]
      omega
    · simp only [pboxAppend_buf_of_ge v s hge, hcnt]
      omega

end pboxLoad

/-! ## Installing an SBox (R131) -/

/-- Everything an accepted table says: its structure, its width, and so its entry count. -/
theorem accepted_table {s : State} {ln lm : Nat} (hs : s.SstgInv) (hv : s.tableVerdict = .ok (ln, lm)) :
    s.sstg.cnt = 2 ^ (ln + lm) ∧ ln + lm ≤ Config.sboxBMax ∧ WidthIs s.sstgBufAt (2 ^ (ln + lm)) (ln + lm) := by
  obtain ⟨hcnt, hrows, hn, hg, ⟨m, hm, hm2, rfl⟩, rfl, hw⟩ := sboxVerdict_ok _ _ hv
  obtain ⟨k, hk⟩ := (powerOfTwoTest _).1 hn
  obtain ⟨l, rfl⟩ := (powerOfTwoTest _).1 hm2
  rw [hk, ceilLog_two_pow, ceilLog_two_pow] at hw ⊢
  rw [sboxClosed_cnt] at hcnt
  rw [sboxClosed_m] at hm
  rw [sboxClosed_rows] at hk hrows
  have hfits : s.FitsCapacity := ⟨hcnt, hrows⟩
  have hcount : s.sstg.cnt = 2 ^ (k + l) := by
    rw [hs.cnt_eq hfits hk hm (by simp [← sboxClosed_ragged, hg]), Nat.pow_add]
  refine ⟨hcount, (Nat.pow_le_pow_iff_right one_lt_two).1 (hcount ▸ hcnt), ?_⟩
  rwa [← hcount, ← maxBitlen_sstgFirst_eq_iff]

/-- What an inverse table holds depends on the table's values on `[0, N)` alone. -/
theorem InverseCell.congr {f g : Nat → Nat} {N y v : Nat} (h : InverseCell f N y v) (hfg : ∀ a < N, f a = g a) :
    InverseCell g N y v := by
  have hset : { a | a < N ∧ g a = y } = { a | a < N ∧ f a = y } :=
    Set.ext fun a => and_congr_right fun ha => by rw [hfg a ha]
  rw [InverseCell, hset]
  exact h.imp_right (And.imp_left fun hgap a ha => hfg a ha ▸ hgap a ha)

/-- An inverse cell is an index of the table. -/
theorem InverseCell.lt {f : Nat → Nat} {N y v : Nat} (h : InverseCell f N y v) (hN : 0 < N) : v < N := by
  rcases h with ⟨⟨hv, -⟩, -⟩ | ⟨-, rfl⟩
  · exact hv
  · exact hN

section install
variable {s : State} {ln lm : Nat}

theorem sbB_sboxInstall (hb : ln + lm ≤ 32) : (sboxInstall ln lm s).sbB = ln + lm := by
  rw [State.sbB, sboxInstall_logn, sboxInstall_logm, toNat_ofNat_of_lt (by omega), toNat_ofNat_of_lt (by omega)]

theorem sbFwdNat_sboxInstall {a : Nat} (ha : a < 2 ^ (ln + lm)) :
    (sboxInstall ln lm s).sbFwdNat a = (s.sstgBufAt a).toNat := by
  rw [State.sbFwdNat, sbFwdAt_sboxInstall_lt s ha]

/-- A cell of an installed inverse table is the largest preimage in the staged table, or 0 (R131, R134). -/
theorem inverseCell_sboxInstall (hb : ln + lm ≤ 32) (hlt : ∀ a < 2 ^ (ln + lm), (s.sstgBufAt a).toNat < 2 ^ (ln + lm))
    {y : Nat} (hy : y < 2 ^ (ln + lm)) : InverseCell (fun a => (s.sstgBufAt a).toNat) (2 ^ (ln + lm)) y
      ((sboxInstall ln lm s).sbInvNat y) := by
  have hentries : ∀ e ∈ (List.range (2 ^ (ln + lm))).map s.sstgBufAt, e.toNat < 2 ^ (ln + lm) := by
    simpa using hlt
  obtain ⟨-, hcell⟩ := inverseTableIsTheLargestPreimage ln lm _ hb (by simp) hentries
  replace hcell := hcell y hy
  rw [List.getD_eq_getElem?_getD, ← sbInvAt_sboxInstall_lt s hy, Option.getD_some] at hcell
  refine hcell.congr fun a ha => ?_
  simp [ha]

/-- An accepted table, installed, is an active SBox as R26 says. -/
theorem sboxInv_sboxInstall (hs : s.SstgInv) (hv : s.tableVerdict = .ok (ln, lm)) : (sboxInstall ln lm s).SboxInv := by
  obtain ⟨-, hmax, hw⟩ := accepted_table hs hv
  have hb := hmax.trans sboxBMax_le
  obtain ⟨hwidth, hattained⟩ := hw
  have hlt : ∀ a < 2 ^ (ln + lm), (s.sstgBufAt a).toNat < 2 ^ (ln + lm) := fun a ha => bitlen_le_iff.1 (hwidth a ha)
  have hcell : ∀ y < 2 ^ (ln + lm),
      InverseCell (sboxInstall ln lm s).sbFwdNat (2 ^ (ln + lm)) y ((sboxInstall ln lm s).sbInvNat y) :=
    fun y hy => (inverseCell_sboxInstall hb hlt hy).congr fun a ha => (sbFwdNat_sboxInstall ha).symm
  intro _
  rw [sbB_sboxInstall hb]
  refine ⟨hmax, fun a ha => ?_, ⟨fun a ha => ?_, hattained.imp_right ?_⟩,
    fun y hy => (hcell y hy).lt (Nat.two_pow_pos _), hcell⟩
  · rw [sbFwdNat_sboxInstall ha]
    exact hlt a ha
  · rw [sbFwdAt_sboxInstall_lt s ha]
    exact hwidth a ha
  · rintro ⟨a, ha, hab⟩
    exact ⟨a, ha, by rw [sbFwdAt_sboxInstall_lt s ha, hab]⟩

/-- An accepted table fits the arrays. -/
theorem State.ArraysInv.sboxInstall (h : s.ArraysInv) (hfit : 2 ^ (ln + lm) ≤ Config.cap) :
    (Machine.sboxInstall ln lm s).ArraysInv := by
  obtain ⟨hf, hi, hb, hpf, hpi, hpb, hst, hpst⟩ := h
  refine ⟨?_, ?_, hb, hpf, hpi, hpb, hst, hpst⟩
  · rw [sboxInstall_fwd, Cells.length_install, length_sstgFirst]
    exact max_le hf hfit
  · rw [sboxInstall_inv, Cells.length_install, length_inverseTableBuilder]
    exact max_le hi hfit

end install

/-! ## Installing a PBox (R168) -/

/-- A map that takes each value of a permutation back to its index is a permutation, and each undoes the other. -/
theorem bijOn_undo {p q : Nat → Nat} {n : Nat} (hp : Set.BijOn p (Set.Iio n) (Set.Icc 1 n))
    (hqp : ∀ i < n, q (p i - 1) = i + 1) :
    Set.BijOn q (Set.Iio n) (Set.Icc 1 n) ∧ ∀ k < n, p (q k - 1) = k + 1 := by
  have hindex : ∀ k < n, ∃ i < n, p i = k + 1 ∧ q k = i + 1 := fun k hk => by
    obtain ⟨i, hi, hik⟩ := hp.surjOn (show k + 1 ∈ Set.Icc 1 n from ⟨by omega, hk⟩)
    exact ⟨i, hi, hik, by simpa [hik] using hqp i hi⟩
  have hpq : ∀ k < n, p (q k - 1) = k + 1 := fun k hk => by
    obtain ⟨i, -, hik, hq⟩ := hindex k hk
    rw [hq, Nat.add_sub_cancel, hik]
  refine ⟨(bijOn_Icc_iff q n).2 ⟨fun k hk => ?_, fun j hj k hk hjk => ?_⟩, hpq⟩
  · obtain ⟨i, hi, -, hq⟩ := hindex k hk
    omega
  · have hj' := hpq j hj
    rw [hjk, hpq k hk] at hj'
    omega

section install
variable {s : State} {n : Nat}

theorem pbN_pboxInstall (hn : n ≤ 32) : (pboxInstall n s).pbN = n := toNat_ofNat_of_lt (by omega)

/-- A permutation, installed, is an active PBox as R31 says. -/
theorem pboxInv_pboxInstall (h1 : 1 ≤ n) (hn : n ≤ 32) (hp : s.StagedPermutation n) : (pboxInstall n s).PboxInv := by
  have hfwd : Set.BijOn (pboxInstall n s).pbFwdNat (Set.Iio n) (Set.Icc 1 n) :=
    hp.congr fun i hi => (pbFwdNat_pboxInstall hn hp hi).symm
  have hundo : ∀ i < n, (pboxInstall n s).pbInvNat ((pboxInstall n s).pbFwdNat i - 1) = i + 1 := fun i hi => by
    rw [pbFwdNat_pboxInstall hn hp hi, pbInvNat_pboxInstall hn hp hi]
  obtain ⟨hinv, hback⟩ := bijOn_undo hfwd hundo
  intro _
  rw [pbN_pboxInstall hn]
  exact ⟨h1, hn, hfwd, hinv, hundo, hback⟩

/-- An accepted sequence fits the arrays. -/
theorem State.ArraysInv.pboxInstall (h : s.ArraysInv) (hn : n ≤ 32) : (Machine.pboxInstall n s).ArraysInv := by
  obtain ⟨hf, hi, hb, hpf, hpi, hpb, hst, hpst⟩ := h
  refine ⟨hf, hi, hb, ?_, ?_, hpb, hst, hpst⟩
  · rw [pboxInstall_fwd, Cells.length_install, List.length_map, length_pstgFirst]
    exact max_le hpf hn
  · rw [pboxInstall_inv, Cells.length_install, length_inversePermutationBuilder]
    exact max_le hpi hn

end install

/-! ## Every command and every step -/

/-- Every command keeps the invariant: the loads and the builds keep the parts they write, and the rest is framed. -/
theorem exec_keeps_inv {i : Instr} {s t : State} (hs : s.Inv) (h : exec i s = .next t) : t.Inv := by
  obtain ⟨hsbox, hpbox, hsstg, hpstg, harrays⟩ := hs
  rcases exec_outcome i s with ⟨_, he⟩ | ⟨-, _, _, he⟩ | ⟨-, he⟩ | ⟨data, -, -, he⟩ | ⟨-, -, he⟩ |
    ⟨ln, lm, -, -, hv, he⟩ | ⟨-, he⟩ | ⟨data, -, -, he⟩ | ⟨-, -, hv, he⟩ <;> rw [he] at h
  case inl =>
    obtain rfl := raise_next h
    exact ⟨hsbox, hpbox, hsstg, hpstg, harrays⟩
  all_goals obtain rfl := respond_next h
  -- a read, SBOX_BEGIN, SBOX_PUSH, SBOX_ENDROW, SBOX_BUILD, PBOX_BEGIN, PBOX_PUSH, PBOX_BUILD
  · exact ⟨hsbox, hpbox, hsstg, hpstg, harrays⟩
  · obtain ⟨hf, hi, hb, hpf, hpi, hpb, -, hpst⟩ := harrays
    exact ⟨hsbox, hpbox, sstgInv_of_empty ⟨rfl, rfl, rfl, rfl, rfl⟩, hpstg, hf, hi, hb, hpf, hpi, hpb, by simp, hpst⟩
  · exact ⟨hsbox, hpbox, hsstg.append _, hpstg, harrays.sboxAppend _⟩
  · refine ⟨hsbox, hpbox, hsstg.closeRow, hpstg, ?_⟩
    simpa only [State.ArraysInv, closeRow_buf, closeRow_cnt] using harrays
  · obtain ⟨hcnt, hmax, -⟩ := accepted_table hsstg hv
    have hfit : 2 ^ (ln + lm) ≤ Config.cap := Nat.pow_le_pow_right (by decide) hmax
    exact ⟨sboxInv_sboxInstall hsstg hv, hpbox, hsstg, hpstg, harrays.sboxInstall hfit⟩
  · obtain ⟨hf, hi, hb, hpf, hpi, hpb, hst, -⟩ := harrays
    exact ⟨hsbox, hpbox, hsstg, Nat.zero_le _, hf, hi, hb, hpf, hpi, hpb, hst, by simp⟩
  · exact ⟨hsbox, hpbox, hsstg, pstgInv_append _, harrays.pboxAppend _⟩
  · obtain ⟨h1, hn, hp⟩ := (permVerdict_eq_none_iff_permutation s).1 hv
    exact ⟨hsbox, pboxInv_pboxInstall h1 hn hp, hsstg, hpstg, harrays.pboxInstall hn⟩

/-- Settles O50: a command keeps the invariant, an illegal word writes nothing, and reset meets it. -/
theorem everyStepKeepsTheBlockInvariant : Obligations.EveryStepKeepsTheBlockInvariant := by
  intro s t hs ht
  rcases step_cases s with ⟨-, h⟩ | ⟨w, rest, i, -, -, h⟩ | ⟨_, _, _, -, -, h⟩ | ⟨rest, -, h⟩ <;> rw [h] at ht
  · cases ht
    exact hs
  · have hs' : ({ s with inputs := rest } : State).Inv := hs
    exact exec_keeps_inv hs' ht
  · cases ht
    exact hs
  · cases ht
    exact atReset_inv _ rest

end Sys2Proof.Machine
end

section
/-! What reset leaves unspecified cannot be observed: states that agree answer every input alike and agree again
(spec/70_reset_and_hazards.md R231, R232). -/

namespace Sys2Proof.Machine

/-! ## The four parts of agreement -/

/-- The active SBoxes agree on what a command may read of them. -/
def State.SboxAgree (s t : State) : Prop :=
  s.sbox.valid = t.sbox.valid ∧ (s.sbox.valid = true → s.sbox.logn = t.sbox.logn ∧ s.sbox.logm = t.sbox.logm ∧
    ∀ a < 2 ^ s.sbB, s.sbFwdAt a = t.sbFwdAt a ∧ s.sbInvAt a = t.sbInvAt a)

/-- The active PBoxes agree on what a command may read of them. -/
def State.PboxAgree (s t : State) : Prop :=
  s.pbox.valid = t.pbox.valid ∧ (s.pbox.valid = true → s.pbox.n = t.pbox.n ∧
    ∀ i < s.pbN, s.pbFwdAt i = t.pbFwdAt i ∧ s.pbInvAt i = t.pbInvAt i)

/-- The SBox loads differ in staged cells at and above the counter alone. -/
def State.SstgAgree (s t : State) : Prop :=
  s.sstg = { t.sstg with buf := s.sstg.buf } ∧ ∀ k < min s.sstg.cnt Config.cap, s.sstgBufAt k = t.sstgBufAt k

/-- The PBox loads differ in staged cells at and above the counter alone. -/
def State.PstgAgree (s t : State) : Prop :=
  s.pstg = { t.pstg with buf := s.pstg.buf } ∧ ∀ k < min s.pstg.cnt 32, s.pstgBufAt k = t.pstgBufAt k

theorem sstg_eq_iff {g h : SboxStaging} : g = { h with buf := g.buf } ↔ g.isOpen = h.isOpen ∧ g.cnt = h.cnt ∧
    g.rows = h.rows ∧ g.cur = h.cur ∧ g.m = h.m ∧ g.ragged = h.ragged := by
  cases g; cases h; simp

theorem pstg_eq_iff {g h : PboxStaging} : g = { h with buf := g.buf } ↔ g.isOpen = h.isOpen ∧ g.cnt = h.cnt := by
  cases g; cases h; simp

/-- States agree when the port and the four parts do. -/
theorem agree_iff {s t : State} : s.Agree t ↔ s.inputs = t.inputs ∧ s.rsp = t.rsp ∧ s.SboxAgree t ∧ s.PboxAgree t ∧
    s.SstgAgree t ∧ s.PstgAgree t := by
  simp only [State.Agree, State.SboxAgree, State.PboxAgree, State.SstgAgree, State.PstgAgree, sstg_eq_iff, pstg_eq_iff,
    and_assoc]

/-- Both outcomes are next states, which agree. -/
def AnswerAlike (o p : Host.Outcome State Fault Refusal) : Prop :=
  ∃ s' t', o = .next s' ∧ p = .next t' ∧ s'.Agree t'

/-- States that agree still agree after the same response. -/
theorem State.Agree.answering {s t : State} (h : s.Agree t) (r : PortWord) :
    AnswerAlike (.next (s.answering r)) (.next (t.answering r)) := by
  obtain ⟨hin, -, hparts⟩ := agree_iff.1 h
  exact ⟨_, _, rfl, rfl, agree_iff.2 ⟨hin, rfl, hparts⟩⟩

/-! ## The commands that read -/

section reads
variable {s t : State}

theorem State.SboxAgree.xform (h : s.SboxAgree t) {f g : Nat → Entry} (len data : Nat)
    (hfg : s.sbox.valid = true → ∀ a < 2 ^ s.sbB, f a = g a) :
    ∃ r, sboxXform f len data s = .next (s.answering r) ∧ sboxXform g len data t = .next (t.answering r) := by
  obtain ⟨hv, hactive⟩ := h
  cases hsv : s.sbox.valid with
  | false => exact ⟨_, sboxXform_notConfigured f len data s hsv, sboxXform_notConfigured g len data t (hv ▸ hsv)⟩
  | true =>
    obtain ⟨hn, hm, -⟩ := hactive hsv
    exact sboxXform_congr len data hv hn hm (hfg hsv)

theorem State.PboxAgree.xform (h : s.PboxAgree t) {p q : Nat → Position} (len data : Nat)
    (hpq : s.pbox.valid = true → ∀ i < s.pbN, p i = q i) :
    ∃ r, pboxXform p len data s = .next (s.answering r) ∧ pboxXform q len data t = .next (t.answering r) := by
  obtain ⟨hv, hactive⟩ := h
  cases hsv : s.pbox.valid with
  | false => exact ⟨_, pboxXform_notConfigured p len data s hsv, pboxXform_notConfigured q len data t (hv ▸ hsv)⟩
  | true =>
    obtain ⟨hn, -⟩ := hactive hsv
    exact pboxXform_congr len data hv hn (hpq hsv)

theorem State.SboxAgree.readback (h : s.SboxAgree t) {f g : Nat → Entry} (data : Nat)
    (hfg : s.sbox.valid = true → ∀ a < 2 ^ s.sbB, f a = g a) :
    ∃ r, sboxReadback f data s = .next (s.answering r) ∧ sboxReadback g data t = .next (t.answering r) := by
  obtain ⟨hv, hactive⟩ := h
  cases hsv : s.sbox.valid with
  | false => exact ⟨_, sboxReadback_notConfigured f data s hsv, sboxReadback_notConfigured g data t (hv ▸ hsv)⟩
  | true =>
    obtain ⟨hn, hm, -⟩ := hactive hsv
    have hb : s.sbB = t.sbB := by rw [State.sbB, State.sbB, hn, hm]
    rcases Nat.lt_or_ge data (2 ^ s.sbB) with hd | hd
    · exact ⟨_, sboxReadback_ok f data s hsv hd, hfg hsv data hd ▸ sboxReadback_ok g data t (hv ▸ hsv) (hb ▸ hd)⟩
    · exact ⟨_, sboxReadback_range f data s hsv hd, sboxReadback_range g data t (hv ▸ hsv) (hb ▸ hd)⟩

theorem State.PboxAgree.readback (h : s.PboxAgree t) {p q : Nat → Position} (data : Nat)
    (hpq : s.pbox.valid = true → ∀ i < s.pbN, p i = q i) :
    ∃ r, pboxReadback p data s = .next (s.answering r) ∧ pboxReadback q data t = .next (t.answering r) := by
  obtain ⟨hv, hactive⟩ := h
  cases hsv : s.pbox.valid with
  | false => exact ⟨_, pboxReadback_notConfigured p data s hsv, pboxReadback_notConfigured q data t (hv ▸ hsv)⟩
  | true =>
    obtain ⟨hn, -⟩ := hactive hsv
    have hN : s.pbN = t.pbN := by rw [State.pbN, State.pbN, hn]
    rcases Nat.lt_or_ge data s.pbN with hd | hd
    · exact ⟨_, pboxReadback_ok p data s hsv hd, hpq hsv data hd ▸ pboxReadback_ok q data t (hv ▸ hsv) (hN ▸ hd)⟩
    · exact ⟨_, pboxReadback_range p data s hsv hd, pboxReadback_range q data t (hv ▸ hsv) (hN ▸ hd)⟩

/-- STATUS shows the VALID and OPEN bits, and a dimension only under its VALID bit (R37). -/
theorem State.Agree.status_eq (h : s.Agree t) : s.status = t.status := by
  obtain ⟨-, -, ⟨hsv, hsbox⟩, ⟨hpv, hpbox⟩, ⟨hsstg, -⟩, ⟨hpstg, -⟩⟩ := agree_iff.1 h
  obtain ⟨hso, -⟩ := sstg_eq_iff.1 hsstg
  obtain ⟨hpo, -⟩ := pstg_eq_iff.1 hpstg
  have hsdims : statusSboxDims s = statusSboxDims t := by
    rw [statusSboxDims, statusSboxDims, ← hsv]
    split
    case isTrue hv =>
      obtain ⟨hn, hm, -⟩ := hsbox hv
      rw [hn, hm]
    case isFalse => rfl
  have hpdim : statusPboxDim s = statusPboxDim t := by
    rw [statusPboxDim, statusPboxDim, ← hpv]
    split
    case isTrue hv =>
      obtain ⟨hn, -⟩ := hpbox hv
      rw [hn]
    case isFalse => rfl
  rw [State.status, State.status, hsv, hpv, hso, hpo, hsdims, hpdim]

theorem State.SboxAgree.cells_eq (h : s.SboxAgree t) (hv : s.sbox.valid = true) :
    ∀ a < 2 ^ s.sbB, s.sbFwdAt a = t.sbFwdAt a ∧ s.sbInvAt a = t.sbInvAt a := by
  obtain ⟨-, hactive⟩ := h
  obtain ⟨-, -, hcells⟩ := hactive hv
  exact hcells

theorem State.PboxAgree.cells_eq (h : s.PboxAgree t) (hv : s.pbox.valid = true) :
    ∀ i < s.pbN, s.pbFwdAt i = t.pbFwdAt i ∧ s.pbInvAt i = t.pbInvAt i := by
  obtain ⟨-, hactive⟩ := h
  obtain ⟨-, hcells⟩ := hactive hv
  exact hcells

/-- A command that reads answers alike in states that agree. -/
theorem exec_read_agree {i : Instr} (h : s.Agree t) (hi : i.isRead = true) :
    ∃ r, exec i s = .next (s.answering r) ∧ exec i t = .next (t.answering r) := by
  obtain ⟨-, -, hsbox, hpbox, -, -⟩ := agree_iff.1 h
  have hfwd := fun hv a ha => (hsbox.cells_eq hv a ha).1
  have hinv := fun hv a ha => (hsbox.cells_eq hv a ha).2
  have hpfwd := fun hv i hi => (hpbox.cells_eq hv i hi).1
  have hpinv := fun hv i hi => (hpbox.cells_eq hv i hi).2
  cases i with
  | nop => exact ⟨_, rfl, rfl⟩
  | getStatus => exact ⟨_, exec_getStatus s, h.status_eq ▸ exec_getStatus t⟩
  | sboxFwd len data => exact hsbox.xform len data hfwd
  | sboxInv len data => exact hsbox.xform len data hinv
  | sboxRdf data => exact hsbox.readback data hfwd
  | sboxRdi data => exact hsbox.readback data hinv
  | pboxFwd len data => exact hpbox.xform len data hpfwd
  | pboxInv len data => exact hpbox.xform len data hpinv
  | pboxRdf data => exact hpbox.readback data hpfwd
  | pboxRdi data => exact hpbox.readback data hpinv
  | sboxBegin => simp [Instr.isRead] at hi
  | sboxPush data => simp [Instr.isRead] at hi
  | sboxEndrow => simp [Instr.isRead] at hi
  | sboxBuild => simp [Instr.isRead] at hi
  | pboxBegin => simp [Instr.isRead] at hi
  | pboxPush data => simp [Instr.isRead] at hi
  | pboxBuild => simp [Instr.isRead] at hi

end reads

/-! ## The SBox load -/

section sboxLoad
variable {s t : State}

/-- Closing a row neither reads nor writes the staged cells. -/
theorem closeRow_withBuf (g : SboxStaging) (b : List Entry) :
    closeRow { g with buf := b } = { closeRow g with buf := b } := by
  obtain ⟨_, _, _, _, _, m, _⟩ := g
  cases m <;> rfl

theorem sboxClosed_withBuf (g : SboxStaging) (b : List Entry) :
    sboxClosed { g with buf := b } = { sboxClosed g with buf := b } := by
  unfold sboxClosed
  split
  · exact closeRow_withBuf g b
  · rfl

theorem State.SstgAgree.append (h : s.SstgAgree t) (v : Entry) :
    State.SstgAgree { s with sstg := sboxAppend v s } { t with sstg := sboxAppend v t } := by
  obtain ⟨hregs, hcells⟩ := h
  obtain ⟨hopen, hcnt, hrows, hcur, hm, hragged⟩ := sstg_eq_iff.1 hregs
  refine ⟨sstg_eq_iff.2 ⟨hopen, by simp [hcnt], hrows, by simp [hcur], hm, hragged⟩, fun k hk => ?_⟩
  simp only [sboxAppend_cnt] at hk
  by_cases hnew : k = s.sstg.cnt ∧ s.sstg.cnt < Config.cap
  · obtain ⟨rfl, hlt⟩ := hnew
    have htsame := sstgBufAt_sboxAppend_same v t (hcnt ▸ hlt)
    rw [← hcnt] at htsame
    exact (sstgBufAt_sboxAppend_same v s hlt).trans htsame.symm
  · rw [sstgBufAt_sboxAppend_other v s hnew, sstgBufAt_sboxAppend_other v t (hcnt ▸ hnew)]
    exact hcells k (by omega)

theorem State.SstgAgree.closeRow (h : s.SstgAgree t) :
    State.SstgAgree { s with sstg := Machine.closeRow s.sstg } { t with sstg := Machine.closeRow t.sstg } := by
  obtain ⟨hregs, hcells⟩ := h
  obtain ⟨hopen, hcnt, hrows, hcur, hm, hragged⟩ := sstg_eq_iff.1 hregs
  refine ⟨sstg_eq_iff.2 (by simp [hopen, hcnt, hrows, hcur, hm, hragged]), fun k hk => ?_⟩
  rw [closeRow_cnt] at hk
  simpa [State.sstgBufAt] using hcells k hk

/-- The staged entries agree as long as the count is within capacity. -/
theorem State.SstgAgree.first_eq (h : s.SstgAgree t) {n : Nat} (hn : n ≤ s.sstg.cnt) (hc : n ≤ Config.cap) :
    s.sstgFirst n = t.sstgFirst n := by
  obtain ⟨-, hcells⟩ := h
  rw [sstgFirst_eq_map, sstgFirst_eq_map]
  exact List.map_congr_left fun k hk => hcells k (by have := List.mem_range.1 hk; omega)

/-- The verdict reads the bookkeeping, and the staged entries only of a table within capacity. -/
theorem State.SstgAgree.tableVerdict_eq (h : s.SstgAgree t) : s.tableVerdict = t.tableVerdict := by
  have hregs := h.1
  obtain ⟨-, hcnt, -⟩ := sstg_eq_iff.1 hregs
  rcases Nat.lt_or_ge Config.cap s.sstg.cnt with hover | hfits
  · rw [tableVerdict_capacity fun hf => absurd hf.1 (Nat.not_le.2 hover),
      tableVerdict_capacity fun hf => absurd hf.1 (Nat.not_le.2 (hcnt ▸ hover))]
  · rw [State.tableVerdict, State.tableVerdict, h.first_eq le_rfl hfits, ← hcnt, hregs, sboxClosed_withBuf]
    rfl

/-- Installing the same table leaves active SBoxes that agree. -/
theorem State.SstgAgree.install (h : s.SstgAgree t) {ln lm : Nat} (hs : s.SstgInv)
    (hv : s.tableVerdict = .ok (ln, lm)) : (sboxInstall ln lm s).SboxAgree (sboxInstall ln lm t) := by
  obtain ⟨hcnt, hmax, -⟩ := accepted_table hs hv
  have hfit : 2 ^ (ln + lm) ≤ Config.cap := Nat.pow_le_pow_right (by decide) hmax
  have hcells : ∀ a < 2 ^ (ln + lm), s.sstgBufAt a = t.sstgBufAt a := fun a ha => h.2 a (by omega)
  refine ⟨rfl, fun _ => ⟨rfl, rfl, ?_⟩⟩
  rw [sbB_sboxInstall (hmax.trans sboxBMax_le)]
  refine fun a ha => ⟨?_, Option.some.inj ?_⟩
  · rw [sbFwdAt_sboxInstall_lt s ha, sbFwdAt_sboxInstall_lt t ha, hcells a ha]
  · rw [sbInvAt_sboxInstall_lt s ha, sbInvAt_sboxInstall_lt t ha,
      List.map_congr_left fun k hk => hcells k (List.mem_range.1 hk)]

/-- Opening or closing the load leaves its other registers and its cells. -/
theorem State.SstgAgree.setOpen (h : s.SstgAgree t) (b : Bool) :
    State.SstgAgree { s with sstg := { s.sstg with isOpen := b } } { t with sstg := { t.sstg with isOpen := b } } := by
  obtain ⟨hregs, hcells⟩ := h
  obtain ⟨-, hrest⟩ := sstg_eq_iff.1 hregs
  exact ⟨sstg_eq_iff.2 ⟨rfl, hrest⟩, hcells⟩

end sboxLoad

/-! ## The PBox load -/

section pboxLoad
variable {s t : State}

theorem State.PstgAgree.append (h : s.PstgAgree t) (v : Entry) :
    State.PstgAgree { s with pstg := pboxAppend v s } { t with pstg := pboxAppend v t } := by
  obtain ⟨hregs, hcells⟩ := h
  obtain ⟨hopen, hcnt⟩ := pstg_eq_iff.1 hregs
  refine ⟨pstg_eq_iff.2 ⟨hopen, by simp [pboxAppend, hcnt]⟩, fun k hk => ?_⟩
  simp only [pboxAppend] at hk
  by_cases hnew : k = s.pstg.cnt ∧ s.pstg.cnt < 32
  · obtain ⟨rfl, hlt⟩ := hnew
    have htsame := pstgBufAt_pboxAppend_same v t (hcnt ▸ hlt)
    rw [← hcnt] at htsame
    exact (pstgBufAt_pboxAppend_same v s hlt).trans htsame.symm
  · rw [pstgBufAt_pboxAppend_other v s hnew, pstgBufAt_pboxAppend_other v t (hcnt ▸ hnew)]
    exact hcells k (by omega)

theorem State.PstgAgree.first_eq (h : s.PstgAgree t) (hc : s.pstg.cnt ≤ 32) :
    s.pstgFirst s.pstg.cnt = t.pstgFirst s.pstg.cnt := by
  obtain ⟨-, hcells⟩ := h
  rw [pstgFirst_eq_map, pstgFirst_eq_map]
  exact List.map_congr_left fun k hk => hcells k (by have := List.mem_range.1 hk; omega)

/-- The verdict reads the staged values only of a sequence of at most 32. -/
theorem State.PstgAgree.permVerdict_eq (h : s.PstgAgree t) : s.permVerdict = t.permVerdict := by
  obtain ⟨-, hcnt⟩ := pstg_eq_iff.1 h.1
  rcases Nat.lt_or_ge 32 s.pstg.cnt with hover | hfits
  · rw [permVerdict_length (.inr hover), permVerdict_length (.inr (hcnt ▸ hover))]
  · rw [State.permVerdict, State.permVerdict, h.first_eq hfits, ← hcnt]

/-- Installing the same permutation leaves active PBoxes that agree. -/
theorem State.PstgAgree.install (h : s.PstgAgree t) (hn : s.pstg.cnt ≤ 32) :
    (pboxInstall s.pstg.cnt s).PboxAgree (pboxInstall s.pstg.cnt t) := by
  refine ⟨rfl, fun _ => ⟨rfl, ?_⟩⟩
  rw [pbN_pboxInstall hn]
  refine fun i hi => ⟨?_, Option.some.inj ?_⟩
  · rw [pbFwdAt_pboxInstall_lt hi, pbFwdAt_pboxInstall_lt hi, h.2 i (by omega)]
  · rw [pbInvAt_pboxInstall_lt hi, pbInvAt_pboxInstall_lt hi, h.first_eq hn]

theorem State.PstgAgree.setOpen (h : s.PstgAgree t) (b : Bool) :
    State.PstgAgree { s with pstg := { s.pstg with isOpen := b } } { t with pstg := { t.pstg with isOpen := b } } := by
  obtain ⟨hregs, hcells⟩ := h
  obtain ⟨-, hrest⟩ := pstg_eq_iff.1 hregs
  exact ⟨pstg_eq_iff.2 ⟨rfl, hrest⟩, hcells⟩

end pboxLoad

/-! ## Every command and every step -/

/-- Responding alike in states whose parts agree. -/
theorem respond_agree {rlen rdata : Nat} {s t : State} (hin : s.inputs = t.inputs) (hsbox : s.SboxAgree t)
    (hpbox : s.PboxAgree t) (hsstg : s.SstgAgree t) (hpstg : s.PstgAgree t) :
    AnswerAlike (respond rlen rdata s) (respond rlen rdata t) :=
  ⟨_, _, rfl, rfl, agree_iff.2 ⟨hin, rfl, hsbox, hpbox, hsstg, hpstg⟩⟩

/-- A command answers alike in states that agree, one of which has the staging invariant. -/
theorem exec_agree {s t : State} (i : Instr) (hs : s.SstgInv) (h : s.Agree t) : AnswerAlike (exec i s) (exec i t) := by
  by_cases hread : i.isRead = true
  · obtain ⟨r, hsr, htr⟩ := exec_read_agree h hread
    rw [hsr, htr]
    exact h.answering r
  obtain ⟨hin, hrsp, hsbox, hpbox, hsstg, hpstg⟩ := agree_iff.1 h
  obtain ⟨hsopen, -⟩ := sstg_eq_iff.1 hsstg.1
  obtain ⟨hpopen, hpcnt⟩ := pstg_eq_iff.1 hpstg.1
  cases i with
  | sboxBegin =>
    have hempty : ∀ k < min 0 Config.cap, s.sstgBufAt k = t.sstgBufAt k := by simp
    exact respond_agree hin hsbox hpbox ⟨rfl, hempty⟩ hpstg
  | sboxPush data =>
    cases ho : s.sstg.isOpen with
    | false =>
      rw [exec, exec, execSboxPush_closed data s ho, execSboxPush_closed data t (hsopen ▸ ho)]
      exact h.answering _
    | true =>
      rw [exec, exec, execSboxPush_open data s ho, execSboxPush_open data t (hsopen ▸ ho)]
      exact respond_agree hin hsbox hpbox (hsstg.append _) hpstg
  | sboxEndrow =>
    cases ho : s.sstg.isOpen with
    | false =>
      rw [exec, exec, execSboxEndrow_closed s ho, execSboxEndrow_closed t (hsopen ▸ ho)]
      exact h.answering _
    | true =>
      rw [exec, exec, execSboxEndrow_open s ho, execSboxEndrow_open t (hsopen ▸ ho)]
      exact respond_agree hin hsbox hpbox hsstg.closeRow hpstg
  | sboxBuild =>
    cases ho : s.sstg.isOpen with
    | false =>
      rw [exec, exec, execSboxBuild_closed s ho, execSboxBuild_closed t (hsopen ▸ ho)]
      exact h.answering _
    | true =>
      have hsame := hsstg.tableVerdict_eq
      cases hv : s.tableVerdict with
      | error c =>
        rw [exec, exec, execSboxBuild_of_error c ho hv, execSboxBuild_of_error c (hsopen ▸ ho) (hsame.symm.trans hv)]
        exact h.answering _
      | ok d =>
        rw [exec, exec, execSboxBuild_of_ok ho hv, execSboxBuild_of_ok (hsopen ▸ ho) (hsame.symm.trans hv)]
        exact respond_agree hin (hsstg.install hs hv) hpbox (hsstg.setOpen false) hpstg
  | pboxBegin =>
    have hempty : ∀ k < min 0 32, s.pstgBufAt k = t.pstgBufAt k := by simp
    exact respond_agree hin hsbox hpbox hsstg ⟨rfl, hempty⟩
  | pboxPush data =>
    cases ho : s.pstg.isOpen with
    | false =>
      rw [exec, exec, execPboxPush_closed data s ho, execPboxPush_closed data t (hpopen ▸ ho)]
      exact h.answering _
    | true =>
      rw [exec, exec, execPboxPush_open data s ho, execPboxPush_open data t (hpopen ▸ ho)]
      exact respond_agree hin hsbox hpbox hsstg (hpstg.append _)
  | pboxBuild =>
    cases ho : s.pstg.isOpen with
    | false =>
      rw [exec, exec, execPboxBuild_closed s ho, execPboxBuild_closed t (hpopen ▸ ho)]
      exact h.answering _
    | true =>
      have hsame := hpstg.permVerdict_eq
      cases hv : s.permVerdict with
      | some c =>
        rw [exec, exec, execPboxBuild_of_some c ho hv, execPboxBuild_of_some c (hpopen ▸ ho) (hsame.symm.trans hv)]
        exact h.answering _
      | none =>
        obtain ⟨-, hn, -⟩ := (permVerdict_eq_none_iff_permutation s).1 hv
        rw [exec, exec, execPboxBuild_installs s ho hv, execPboxBuild_installs t (hpopen ▸ ho) (hsame.symm.trans hv),
          ← hpcnt]
        exact respond_agree hin hsbox (hpstg.install hn) hsstg (hpstg.setOpen false)
  | nop => simp [Instr.isRead] at hread
  | getStatus => simp [Instr.isRead] at hread
  | sboxFwd len data => simp [Instr.isRead] at hread
  | sboxInv len data => simp [Instr.isRead] at hread
  | sboxRdf data => simp [Instr.isRead] at hread
  | sboxRdi data => simp [Instr.isRead] at hread
  | pboxFwd len data => simp [Instr.isRead] at hread
  | pboxInv len data => simp [Instr.isRead] at hread
  | pboxRdf data => simp [Instr.isRead] at hread
  | pboxRdi data => simp [Instr.isRead] at hread

/-- States that agree are given the same, and agree after an input is taken from both. -/
theorem State.Agree.take {s t : State} (h : s.Agree t) (rest : List HostInput) :
    ({ s with inputs := rest } : State).Agree { t with inputs := rest } := by
  obtain ⟨-, hrest⟩ := agree_iff.1 h
  exact agree_iff.2 ⟨rfl, hrest⟩

/-- A step answers alike in states that agree: they take the same input. -/
theorem step_agree {s t : State} (hs : s.SstgInv) (h : s.Agree t) : AnswerAlike (step s) (step t) := by
  obtain ⟨hin, -⟩ := agree_iff.1 h
  match hinputs : s.inputs with
  | [] =>
    have hsw : step s = .next s := by simp [step, hinputs, wait]
    have htw : step t = .next t := by simp [step, ← hin, hinputs, wait]
    exact ⟨s, t, hsw, htw, h⟩
  | .command w :: rest =>
    have htinputs := hin.symm.trans hinputs
    cases hd : decode w with
    | ok i =>
      rw [step_of_decode_ok hinputs hd, step_of_decode_ok htinputs hd]
      exact exec_agree i hs (h.take rest)
    | error e =>
      rw [step_of_illegal hinputs (by simp [hd]), step_of_illegal htinputs (by simp [hd])]
      exact (h.take rest).answering _
  | .reset :: rest =>
    exact ⟨_, _, step_of_reset hinputs, step_of_reset (hin.symm.trans hinputs), atReset_agree _ _ rest⟩
  | .resetDuring w :: rest =>
    exact ⟨_, _, step_of_resetDuring hinputs, step_of_resetDuring (hin.symm.trans hinputs), atReset_agree _ _ rest⟩

/-- Settles O55, from the step of two states that agree. -/
theorem unspecifiedContentsAreUnobservable : Obligations.UnspecifiedContentsAreUnobservable := by
  refine ⟨atReset_agree, fun s t ⟨_, _, hs, _⟩ h => ?_⟩
  obtain ⟨s', t', hs', ht', hagree⟩ := step_agree hs h
  obtain ⟨-, hrsp, -⟩ := agree_iff.1 hagree
  exact ⟨s', t', hs', ht', hrsp, hagree⟩

end Sys2Proof.Machine
end

section
/-! The load sequences SBOX_LOAD and PBOX_LOAD (spec/30_encoding.md R83). -/

namespace Sys2Proof.Machine

/-! ## Command sequences -/

theorem execAll_append {is : List Instr} {s u : State} (js : List Instr) (h : execAll is s = .next u) :
    execAll (is ++ js) s = execAll js u := by
  induction is generalizing s with
  | nil =>
    cases h
    rfl
  | cons i is ih =>
    obtain ⟨v, hv⟩ := exists_exec_next i s
    rw [execAll_cons _ hv] at h
    rw [List.cons_append, execAll_cons _ hv, ih h]

/-- What each command of a sequence keeps, the sequence keeps. -/
theorem execAll_keeps {P : State → Prop} {is : List Instr} (hkeep : ∀ i ∈ is, ∀ u, P u → ∃ v, exec i u = .next v ∧ P v)
    {s : State} (hs : P s) : ∃ u, execAll is s = .next u ∧ P u := by
  induction is generalizing s with
  | nil => exact ⟨s, rfl, hs⟩
  | cons i is ih =>
    rw [List.forall_mem_cons] at hkeep
    obtain ⟨hi, his⟩ := hkeep
    obtain ⟨u, hu, hPu⟩ := hi s hs
    obtain ⟨v, hv, hPv⟩ := ih his hPu
    exact ⟨v, (execAll_cons is hu).trans hv, hPv⟩

/-- What every command of a sequence leaves as it was, the sequence leaves. -/
theorem execAll_frame {α : Type} (f : State → α) {is : List Instr}
    (hframe : ∀ i ∈ is, ∀ u v : State, exec i u = .next v → f v = f u) {s t : State} (h : execAll is s = .next t) :
    f t = f s := by
  obtain ⟨u, hu, hfu⟩ := execAll_keeps (P := fun u => f u = f s) (s := s) (is := is) (fun i hi u hu => by
    obtain ⟨v, hv⟩ := exists_exec_next i u
    exact ⟨v, hv, (hframe i hi u v hv).trans hu⟩) rfl
  cases hu.symm.trans h
  exact hfu

/-- A sequence of commands of the PBox family leaves the SBox and its load (R59). -/
theorem execAll_pbox_frame {is : List Instr} (hp : ∀ i ∈ is, i.isPbox = true) {s t : State}
    (h : execAll is s = .next t) : t.sbox = s.sbox ∧ t.sstg = s.sstg := by
  obtain ⟨-, -, hfamily⟩ := transformDependsOnlyOnItsInstance
  exact ⟨execAll_frame State.sbox (fun i hi u v hv => ((hfamily i u v hv).2 (hp i hi)).1) h,
    execAll_frame State.sstg (fun i hi u v hv => ((hfamily i u v hv).2 (hp i hi)).2.1) h⟩

/-- A sequence of commands of the SBox family leaves the PBox and its load (R59). -/
theorem execAll_sbox_frame {is : List Instr} (hs : ∀ i ∈ is, i.isSbox = true) {s t : State}
    (h : execAll is s = .next t) : t.pbox = s.pbox ∧ t.pstg = s.pstg := by
  obtain ⟨-, -, hfamily⟩ := transformDependsOnlyOnItsInstance
  exact ⟨execAll_frame State.pbox (fun i hi u v hv => ((hfamily i u v hv).1 (hs i hi)).1) h,
    execAll_frame State.pstg (fun i hi u v hv => ((hfamily i u v hv).1 (hs i hi)).2.1) h⟩

/-- The commands before the last of a sequence that ends in one command. -/
theorem take_of_lt_length {b : Instr} {is : List Instr} {n : Nat} (h : n < (is ++ [b]).length) :
    (is ++ [b]).take n = is.take n := by
  rw [List.length_append, List.length_singleton] at h
  exact List.take_append_of_le_length (by omega)

/-! ## PBOX_LOAD -/

/-- The values staged. -/
def State.stagedValues (s : State) : List Entry := s.pstgFirst s.pstg.cnt

/-- The state that PBOX_BEGIN leaves. -/
def State.afterPboxBegin (s : State) : State :=
  { s with pstg := { s.pstg with isOpen := true, cnt := 0 } }.answering 0x0000000000000000#64

theorem exec_pboxBegin (s : State) : exec .pboxBegin s = .next s.afterPboxBegin := respond_zero _

theorem stagedValues_afterPboxBegin (s : State) : s.afterPboxBegin.stagedValues = [] := Cells.first_zero _ _

theorem pboxAppend_cnt (v : Entry) (s : State) : (pboxAppend v s).cnt = min (s.pstg.cnt + 1) 33 := rfl

/-- A value pushed below the bound comes after the ones staged (R161). -/
theorem stagedValues_pboxAppend {s : State} (v : Entry) (h : s.pstg.cnt < 32) :
    ({ s with pstg := pboxAppend v s } : State).stagedValues = s.stagedValues ++ [v] := by
  have hcnt : (pboxAppend v s).cnt = s.pstg.cnt + 1 :=
    (pboxAppend_cnt _ s).trans (min_eq_left (by omega))
  rw [State.stagedValues, State.stagedValues, pstgFirst_eq_map, pstgFirst_eq_map, hcnt, List.range_succ,
    List.map_append, List.map_singleton, pstgBufAt_pboxAppend_same v s h]
  congr 1
  refine List.map_congr_left fun k hk => pstgBufAt_pboxAppend_other v s ?_
  have := List.mem_range.1 hk
  omega

/-- Pushing values, within the bound, stages them in order. -/
theorem execAll_pboxPushes {p : List Nat} {s : State} (ho : s.pstg.isOpen = true) (hle : s.pstg.cnt + p.length ≤ 32) :
    ∃ u, execAll (p.map .pboxPush) s = .next u ∧ u.pstg.isOpen = true ∧
      u.stagedValues = s.stagedValues ++ p.map pushOperand := by
  induction p generalizing s with
  | nil => exact ⟨s, rfl, ho, by simp⟩
  | cons x p ih =>
    rw [List.length_cons] at hle
    have hx : exec (.pboxPush x) s = _ := (execPboxPush_open x s ho).trans (respond_zero _)
    have hcnt : (pboxAppend (pushOperand x) s).cnt = s.pstg.cnt + 1 :=
      (pboxAppend_cnt _ s).trans (min_eq_left (by omega))
    obtain ⟨u, hu, huo, hstaged⟩ := ih (s := State.answering { s with pstg := pboxAppend (pushOperand x) s } 0#64) ho
      (by simp only [State.answering, hcnt]; omega)
    refine ⟨u, (execAll_cons _ hx).trans hu, huo, hstaged.trans ?_⟩
    have happend := stagedValues_pboxAppend (pushOperand x) (s := s) (by omega)
    calc _ = (s.stagedValues ++ [pushOperand x]) ++ p.map pushOperand := congrArg (· ++ p.map pushOperand) happend
      _ = _ := by simp

/-- The commands of PBOX_LOAD before its BUILD answer OK, from any state. -/
theorem pboxLoad_answers_zero {s : State} {p : List Nat} {n : Nat} :
    ∃ u, execAll (.pboxBegin :: (p.map .pboxPush).take n) s = .next u ∧ u.rsp = some 0x0000000000000000#64 := by
  rw [execAll_cons _ (exec_pboxBegin s)]
  have hkeep : ∀ i ∈ (p.map Instr.pboxPush).take n, ∀ u : State,
      (u.pstg.isOpen = true ∧ u.rsp = some 0#64) →
        ∃ v, exec i u = .next v ∧ v.pstg.isOpen = true ∧ v.rsp = some 0#64 := by
    rintro i hi u ⟨ho, -⟩
    obtain ⟨x, -, rfl⟩ := List.mem_map.1 (List.mem_of_mem_take hi)
    exact ⟨_, (execPboxPush_open x u ho).trans (respond_zero _), ho, rfl⟩
  obtain ⟨u, hu, -, hr⟩ := execAll_keeps hkeep (s := s.afterPboxBegin) ⟨rfl, rfl⟩
  exact ⟨u, hu, hr⟩

/-- Distinct values from 1 to n, n in number, staged, are a permutation. -/
theorem stagedPermutation_of_nodup {u : State} {p : List Nat}
    (hcell : ∀ (i : Nat) (hi : i < p.length), (u.pstgBufAt i).toNat = p[i]) (hnodup : p.Nodup)
    (hrange : ∀ v ∈ p, 1 ≤ v ∧ v ≤ p.length) : u.StagedPermutation p.length := by
  refine (bijOn_Icc_iff _ _).2 ⟨fun i hi => ?_, fun i hi j hj hij => ?_⟩
  · rw [hcell i hi]
    exact hrange _ (List.getElem_mem hi)
  · rw [hcell i hi, hcell j hj] at hij
    exact (List.Nodup.getElem_inj_iff hnodup).1 hij

/-- Settles O58: the pushes stage the values in order, and BUILD installs them. -/
theorem pboxLoadBuildsThePermutation : Obligations.PboxLoadBuildsThePermutation := by
  refine ⟨fun s p k hk => ?_, fun s p h1 h32 hnodup hrange => ?_⟩
  · rw [pboxLoad, take_of_lt_length hk, List.take_succ_cons]
    exact pboxLoad_answers_zero
  obtain ⟨u, hu, huo, hstaged⟩ := execAll_pboxPushes (p := p) (s := s.afterPboxBegin) rfl
    (by simpa [State.afterPboxBegin, State.answering] using h32)
  rw [stagedValues_afterPboxBegin, List.nil_append] at hstaged
  have hvalues : u.pstgFirst u.pstg.cnt = p.map pushOperand := hstaged
  have hcnt : u.pstg.cnt = p.length := by simpa using congrArg List.length hvalues
  have hcell : ∀ (i : Nat) (hi : i < p.length), (u.pstgBufAt i).toNat = p[i] := fun i hi => by
    have hread := getD_pstgFirst (s := u) (hcnt ▸ hi)
    have hle := (hrange _ (List.getElem_mem hi)).2
    rw [hvalues, List.getD_eq_getElem _ _ (by simpa using hi), List.getElem_map] at hread
    rw [← hread, toNat_pushOperand (by omega)]
  obtain ⟨t, ht, hrsp, hvalid, hn, hfwd, hinv, -, hrest⟩ :=
    pboxBuildInstallsThePermutation u huo (hcnt ▸ h1) (hcnt ▸ h32)
      (hcnt ▸ stagedPermutation_of_nodup hcell hnodup hrange)
  rw [hcnt] at hrsp hn hfwd hinv
  have hrun : execAll (pboxLoad p) s = .next t := by
    rw [pboxLoad, List.cons_append, execAll_cons _ (exec_pboxBegin s), execAll_append _ hu, execAll_cons _ ht]
    rfl
  have hfamily : ∀ i ∈ pboxLoad p, i.isPbox = true := by simp [pboxLoad, or_imp, forall_and, Instr.isPbox]
  have hgetD : ∀ i (hi : i < p.length), p.getD i 0 = p[i] := fun i hi => List.getD_eq_getElem _ _ hi
  refine ⟨t, hrun, hrsp, hvalid, hn, by rw [hrest], fun i hi => ?_, fun i hi => ?_, execAll_pbox_frame hfamily hrun⟩
  · rw [hfwd i hi, hcell i hi, hgetD i hi]
  · rw [hgetD i hi, ← hcell i hi, hinv i hi]

/-! ## SBOX_LOAD: the rows -/

/-- The entries staged. -/
def State.stagedEntries (s : State) : List Entry := s.sstgFirst s.sstg.cnt

/-- The state that SBOX_BEGIN leaves. -/
def State.afterSboxBegin (s : State) : State :=
  { s with sstg := { s.sstg with isOpen := true, cnt := 0, rows := 0, cur := 0, m := none, ragged := false } }.answering
    0x0000000000000000#64

theorem exec_sboxBegin (s : State) : exec .sboxBegin s = .next s.afterSboxBegin := respond_zero _

/-- An entry pushed below capacity comes after the ones staged (R121). -/
theorem stagedEntries_sboxAppend {s : State} (v : Entry) (h : s.sstg.cnt < Config.cap) :
    ({ s with sstg := sboxAppend v s } : State).stagedEntries = s.stagedEntries ++ [v] := by
  have hcnt : (sboxAppend v s).cnt = s.sstg.cnt + 1 := (sboxAppend_cnt v s).trans (min_eq_left (by omega))
  rw [State.stagedEntries, State.stagedEntries, sstgFirst_eq_map, sstgFirst_eq_map, hcnt, List.range_succ,
    List.map_append, List.map_singleton, sstgBufAt_sboxAppend_same v s h]
  congr 1
  refine List.map_congr_left fun k hk => sstgBufAt_sboxAppend_other v s ?_
  have := List.mem_range.1 hk
  omega

/-- Pushing entries, within capacity, stages them in order in the open row. -/
theorem execAll_sboxPushes {row : List Nat} {s : State} (ho : s.sstg.isOpen = true)
    (hle : s.sstg.cnt + row.length ≤ Config.cap) (hcur : s.sstg.cur ≤ s.sstg.cnt) :
    ∃ u, execAll (row.map .sboxPush) s = .next u ∧ u.stagedEntries = s.stagedEntries ++ row.map pushOperand ∧
      u.sstg = { s.sstg with buf := u.sstg.buf, cnt := u.sstg.cnt, cur := s.sstg.cur + row.length } := by
  induction row generalizing s with
  | nil => exact ⟨s, rfl, by simp, rfl⟩
  | cons x row ih =>
    rw [List.length_cons] at hle
    have hx : exec (.sboxPush x) s = _ := (execSboxPush_open x s ho).trans (respond_zero _)
    have hcnt : (sboxAppend (pushOperand x) s).cnt = s.sstg.cnt + 1 :=
      (sboxAppend_cnt _ s).trans (min_eq_left (by omega))
    have hcur' : (sboxAppend (pushOperand x) s).cur = s.sstg.cur + 1 :=
      (sboxAppend_cur _ s).trans (min_eq_left (by omega))
    obtain ⟨u, hu, hstaged, hregs⟩ := ih (s := State.answering { s with sstg := sboxAppend (pushOperand x) s } 0#64) ho
      (by simp only [State.answering, hcnt]; omega) (by simp only [State.answering, hcnt, hcur']; omega)
    refine ⟨u, (execAll_cons _ hx).trans hu, hstaged.trans ?_, hregs.trans ?_⟩
    · have happend := stagedEntries_sboxAppend (pushOperand x) (s := s) (by omega)
      calc _ = (s.stagedEntries ++ [pushOperand x]) ++ row.map pushOperand :=
            congrArg (· ++ row.map pushOperand) happend
        _ = _ := by simp
    · simp only [State.answering, hcur', List.length_cons, Nat.add_assoc, Nat.add_comm 1]
      rfl

/-- The load is open and holds exactly these rows, closed, each of m entries. -/
def State.StagesRows (m : Nat) (rows : List (List Nat)) (s : State) : Prop :=
  s.sstg.isOpen = true ∧ s.stagedEntries = rows.flatten.map pushOperand ∧ s.sstg.rows = rows.length ∧ s.sstg.cur = 0 ∧
    s.sstg.m = (if rows = [] then none else some m) ∧ s.sstg.ragged = false

theorem length_flatten_of_uniform {α : Type} {rows : List (List α)} {m : Nat} (h : ∀ row ∈ rows, row.length = m) :
    rows.flatten.length = rows.length * m := by
  induction rows with
  | nil => simp
  | cons row rows ih =>
    rw [List.forall_mem_cons] at h
    rw [List.flatten_cons, List.length_append, h.1, ih h.2, List.length_cons, Nat.succ_mul, Nat.add_comm]

/-- Rows of m entries one after the other are the linear layout of the table (R24). -/
theorem getElem?_flatten_of_uniform {α : Type} {rows : List (List α)} {m i j : Nat} (h : ∀ row ∈ rows, row.length = m)
    (hj : j < m) : rows.flatten[i * m + j]? = rows[i]?.bind (·[j]?) := by
  induction rows generalizing i with
  | nil => simp
  | cons row rows ih =>
    rw [List.forall_mem_cons] at h
    obtain ⟨hrow, hrows⟩ := h
    rw [List.flatten_cons]
    cases i with
    | zero => rw [Nat.zero_mul, Nat.zero_add, List.getElem?_append_left (hrow ▸ hj)]; rfl
    | succ i =>
      have hadd : (i + 1) * m + j = row.length + (i * m + j) := by rw [hrow, Nat.succ_mul]; omega
      rw [hadd, List.getElem?_append_right (Nat.le_add_right ..), Nat.add_sub_cancel_left, ih hrows,
        List.getElem?_cons_succ]

section rows
variable {m : Nat} {rows : List (List Nat)} {s : State}

theorem State.StagesRows.cnt_eq (h : s.StagesRows m rows) (hlen : ∀ row ∈ rows, row.length = m) :
    s.sstg.cnt = rows.length * m := by
  obtain ⟨-, hstaged, -⟩ := h
  have hcount := congrArg List.length hstaged
  rw [State.stagedEntries, length_sstgFirst, List.length_map, length_flatten_of_uniform hlen] at hcount
  exact hcount

/-- SBOX_ENDROW closes an open row of m entries (R122). -/
theorem State.StagesRows.endRow {row : List Nat} {u : State} (hs : s.StagesRows m rows)
    (hstaged : u.stagedEntries = s.stagedEntries ++ row.map pushOperand)
    (hregs : u.sstg = { s.sstg with buf := u.sstg.buf, cnt := u.sstg.cnt, cur := m })
    (hroom : rows.length < Config.cap) : u.endRow.StagesRows m (rows ++ [row]) := by
  obtain ⟨ho, hentries, hrows, -, hm, hragged⟩ := hs
  obtain ⟨huo, hurows, hucur, hum, huragged⟩ : u.sstg.isOpen = true ∧ u.sstg.rows = rows.length ∧ u.sstg.cur = m ∧
      u.sstg.m = (if rows = [] then none else some m) ∧ u.sstg.ragged = false := by
    rw [hregs]
    exact ⟨ho, hrows, rfl, hm, hragged⟩
  have hfirst : u.sstg.m.getD u.sstg.cur = m := by
    rw [hum, hucur]
    split <;> rfl
  refine ⟨?_, ?_, ?_, closeRow_cur _, ?_, ?_⟩
  · exact (closeRow_isOpen _).trans huo
  · have hcnt : u.endRow.sstg.cnt = u.sstg.cnt := closeRow_cnt _
    rw [State.stagedEntries, sstgFirst_endRow, hcnt, ← State.stagedEntries, hstaged, hentries]
    simp
  · refine (closeRow_rows _).trans ?_
    rw [hurows, List.length_append, List.length_singleton]
    omega
  · refine (closeRow_m _).trans ?_
    simp [hfirst]
  · refine (closeRow_ragged _).trans ?_
    rw [huragged, hfirst, hucur]
    simp

/-- The commands of one more row of m entries, within capacity, stage it. -/
theorem execAll_sboxLoadRow {row : List Nat} (hs : s.StagesRows m rows) (hlen : ∀ r ∈ rows, r.length = m)
    (hrow : row.length = m) (hroom : rows.length < Config.cap) (hfit : (rows.length + 1) * m ≤ Config.cap) :
    ∃ u, execAll (sboxLoadRow row) s = .next u ∧ u.StagesRows m (rows ++ [row]) := by
  have hcnt := hs.cnt_eq hlen
  have hs' := hs
  obtain ⟨ho, -, -, hcur, -⟩ := hs'
  have hle : s.sstg.cnt + row.length ≤ Config.cap := by rwa [hcnt, hrow, ← Nat.succ_mul]
  obtain ⟨u, hu, hstaged, hregs⟩ := execAll_sboxPushes ho hle (hcur ▸ Nat.zero_le _)
  rw [hcur, Nat.zero_add, hrow] at hregs
  have huo : u.sstg.isOpen = true := by rw [hregs]; exact ho
  have hend : exec .sboxEndrow u = .next u.endRow := (execSboxEndrow_open u huo).trans (respond_zero _)
  refine ⟨u.endRow, ?_, hs.endRow hstaged hregs hroom⟩
  rw [sboxLoadRow, execAll_append _ hu, execAll_cons _ hend]
  rfl

/-- The commands of further rows of m entries, within capacity, stage them. -/
theorem execAll_sboxLoadRows {more : List (List Nat)} (hs : s.StagesRows m rows)
    (hlen : ∀ row ∈ rows ++ more, row.length = m) (hrows : (rows ++ more).length ≤ Config.cap)
    (hfit : (rows ++ more).length * m ≤ Config.cap) :
    ∃ u, execAll (more.flatMap sboxLoadRow) s = .next u ∧ u.StagesRows m (rows ++ more) := by
  induction more generalizing rows s with
  | nil => exact ⟨s, rfl, by rwa [List.append_nil]⟩
  | cons row more ih =>
    have hcount : (rows ++ row :: more).length = rows.length + 1 + more.length := by simp; omega
    have hfit' : (rows.length + 1) * m ≤ Config.cap :=
      le_trans (Nat.mul_le_mul_right m (hcount ▸ Nat.le_add_right ..)) hfit
    obtain ⟨u, hu, hstages⟩ := execAll_sboxLoadRow hs (fun r hr => hlen r (List.mem_append_left _ hr))
      (hlen row (by simp)) (by omega) hfit'
    rw [List.append_cons] at hlen hrows hfit ⊢
    obtain ⟨v, hv, hvstages⟩ := ih hstages hlen hrows hfit
    exact ⟨v, by rw [List.flatMap_cons, execAll_append _ hu, hv], hvstages⟩

end rows

/-! ## SBOX_LOAD: the table -/

/-- Between its BEGIN and its BUILD, SBOX_LOAD pushes entries and closes rows. -/
theorem mem_sboxLoadRows {table : List (List Nat)} {i : Instr} (h : i ∈ table.flatMap sboxLoadRow) :
    (∃ x, i = .sboxPush x) ∨ i = .sboxEndrow := by
  obtain ⟨row, -, hrow⟩ := List.mem_flatMap.1 h
  rcases List.mem_append.1 hrow with hpush | hend
  · obtain ⟨x, -, rfl⟩ := List.mem_map.1 hpush
    exact .inl ⟨x, rfl⟩
  · exact .inr (List.mem_singleton.1 hend)

theorem isSbox_of_mem_sboxLoad {table : List (List Nat)} : ∀ i ∈ sboxLoad table, i.isSbox = true := by
  intro i hi
  rw [sboxLoad, List.mem_append, List.mem_cons, List.mem_singleton] at hi
  rcases hi with (rfl | hi) | rfl
  · rfl
  · rcases mem_sboxLoadRows hi with ⟨_, rfl⟩ | rfl <;> rfl
  · rfl

/-- The commands of SBOX_LOAD before its BUILD answer OK, from any state. -/
theorem sboxLoad_answers_zero {s : State} {table : List (List Nat)} {n : Nat} :
    ∃ u, execAll (.sboxBegin :: (table.flatMap sboxLoadRow).take n) s = .next u ∧
      u.rsp = some 0x0000000000000000#64 := by
  rw [execAll_cons _ (exec_sboxBegin s)]
  have hkeep : ∀ i ∈ (table.flatMap sboxLoadRow).take n, ∀ u : State,
      (u.sstg.isOpen = true ∧ u.rsp = some 0#64) →
        ∃ v, exec i u = .next v ∧ v.sstg.isOpen = true ∧ v.rsp = some 0#64 := by
    rintro i hi u ⟨ho, -⟩
    rcases mem_sboxLoadRows (List.mem_of_mem_take hi) with ⟨x, rfl⟩ | rfl
    · exact ⟨_, (execSboxPush_open x u ho).trans (respond_zero _), ho, rfl⟩
    · exact ⟨_, (execSboxEndrow_open u ho).trans (respond_zero _), (closeRow_isOpen _).trans ho, rfl⟩
  obtain ⟨u, hu, -, hr⟩ := execAll_keeps hkeep (s := s.afterSboxBegin) ⟨rfl, rfl⟩
  exact ⟨u, hu, hr⟩

/-- The widest of the staged entries, when each is one of some integers and each of those is staged (R123). -/
theorem widthIs_of_stagedEntries {u : State} {xs : List Nat} {b : Nat} (hstaged : u.stagedEntries = xs.map pushOperand)
    (hb : b ≤ 32) (hwidth : ∀ x ∈ xs, bitlen x ≤ b) (hattained : b = 0 ∨ ∃ x ∈ xs, bitlen x = b) :
    WidthIs u.sstgBufAt u.sstg.cnt b := by
  have hwhole : ∀ x ∈ xs, (pushOperand x).toNat = x := fun x hx =>
    toNat_pushOperand ((bitlen_le_iff.1 (hwidth x hx)).trans_le (Nat.pow_le_pow_right (by decide) hb))
  have hmem : ∀ e, e ∈ xs.map pushOperand ↔ ∃ k < u.sstg.cnt, u.sstgBufAt k = e := fun e => by
    rw [← hstaged]
    exact mem_sstgFirst
  refine ⟨fun k hk => ?_, hattained.imp_right ?_⟩
  · obtain ⟨x, hx, hxk⟩ := List.mem_map.1 ((hmem _).2 ⟨k, hk, rfl⟩)
    rw [← hxk, hwhole x hx]
    exact hwidth x hx
  · rintro ⟨x, hx, hxb⟩
    obtain ⟨k, hk, hkx⟩ := (hmem _).1 (List.mem_map_of_mem hx)
    exact ⟨k, hk, by rw [hkx, hwhole x hx, hxb]⟩

section table
variable {ln lm : Nat} {table : List (List Nat)} {u : State} (hstages : u.StagesRows (2 ^ lm) table)
  (hrows : table.length = 2 ^ ln) (hcols : ∀ row ∈ table, row.length = 2 ^ lm)
include hstages hrows hcols

/-- The cell of row i and column j, staged in the linear layout. -/
theorem sstgBufAt_of_stagesRows {i j : Nat} (hi : i < 2 ^ ln) (hj : j < 2 ^ lm) :
    u.sstgBufAt (i * 2 ^ lm + j) = pushOperand ((table.getD i []).getD j 0) := by
  have hcnt := hstages.cnt_eq hcols
  obtain ⟨-, hentries, -⟩ := hstages
  rw [hrows, ← Nat.pow_add] at hcnt
  have hk : i * 2 ^ lm + j < u.sstg.cnt := hcnt ▸ rowMajor_lt hi hj
  have hi' : i < table.length := hrows ▸ hi
  have hj' : j < table[i].length := by rwa [hcols _ (List.getElem_mem hi')]
  have hread : (u.stagedEntries)[i * 2 ^ lm + j]? = some (u.sstgBufAt (i * 2 ^ lm + j)) := by
    rw [State.stagedEntries, sstgFirst_eq_map]
    simp [hk]
  rw [hentries, List.getElem?_map, getElem?_flatten_of_uniform hcols hj, List.getElem?_eq_getElem hi', Option.bind_some,
    List.getElem?_eq_getElem hj', Option.map_some, Option.some.injEq] at hread
  rw [← hread, List.getD_eq_getElem _ _ hi', List.getD_eq_getElem _ _ hj']

/-- A table of 2^LN rows of 2^LM entries that fill exactly LN + LM bits is accepted. -/
theorem tableVerdict_of_stagesRows (hb : ln + lm ≤ Config.sboxBMax)
    (hwidth : ∀ row ∈ table, ∀ e ∈ row, bitlen e ≤ ln + lm)
    (hattained : ln + lm = 0 ∨ ∃ row ∈ table, ∃ e ∈ row, bitlen e = ln + lm) : u.tableVerdict = .ok (ln, lm) := by
  have hcnt := hstages.cnt_eq hcols
  rw [hrows, ← Nat.pow_add] at hcnt
  obtain ⟨-, hentries, hurows, hcur, hm, hragged⟩ := hstages
  rw [hrows] at hurows
  have hne : table ≠ [] := by
    rintro rfl
    exact absurd hrows (Nat.two_pow_pos ln).ne
  rw [if_neg hne] at hm
  have hstagedRows : u.stagedRows = 2 ^ ln := (if_pos hcur).trans hurows
  refine tableVerdict_ok ⟨hcnt ▸ Nat.pow_le_pow_right (by decide) hb, ?_⟩ hstagedRows ((if_pos hcur).trans hm) ?_ ?_
  · rw [hstagedRows]
    exact Nat.pow_le_pow_right (by decide) (by omega)
  · simp [State.stagedRagged, hragged, hcur]
  · refine widthIs_of_stagedEntries hentries (hb.trans sboxBMax_le) (fun e he => ?_) (hattained.imp_right ?_)
    · obtain ⟨row, hrow, hmem⟩ := List.mem_flatten.1 he
      exact hwidth row hrow e hmem
    · rintro ⟨row, hrow, e, he, heb⟩
      exact ⟨e, List.mem_flatten.2 ⟨row, hrow, he⟩, heb⟩

end table

/-- SBOX_LOAD of such a table stages its rows and installs them. -/
theorem execAll_sboxLoad {ln lm : Nat} {table : List (List Nat)} (hb : ln + lm ≤ Config.sboxBMax)
    (hrows : table.length = 2 ^ ln) (hcols : ∀ row ∈ table, row.length = 2 ^ lm)
    (hwidth : ∀ row ∈ table, ∀ e ∈ row, bitlen e ≤ ln + lm)
    (hattained : ln + lm = 0 ∨ ∃ row ∈ table, ∃ e ∈ row, bitlen e = ln + lm) (s : State) :
    ∃ u : State, u.StagesRows (2 ^ lm) table ∧
      execAll (sboxLoad table) s = .next ((sboxInstall ln lm u).answering (okWord (ln + lm) 0)) := by
  have hb32 := hb.trans sboxBMax_le
  have hrowsFit : table.length ≤ Config.cap := hrows ▸ Nat.pow_le_pow_right (by decide) (by omega)
  have hfit : table.length * 2 ^ lm ≤ Config.cap := by
    rw [hrows, ← Nat.pow_add]
    exact Nat.pow_le_pow_right (by decide) hb
  have hempty : s.afterSboxBegin.StagesRows (2 ^ lm) [] := ⟨rfl, Cells.first_zero _ _, rfl, rfl, rfl, rfl⟩
  obtain ⟨u, hu, hstages⟩ := execAll_sboxLoadRows (more := table) hempty hcols hrowsFit hfit
  rw [List.nil_append] at hstages
  have hv := tableVerdict_of_stagesRows hstages hrows hcols hb hwidth hattained
  have ht : exec .sboxBuild u = .next ((sboxInstall ln lm u).answering (okWord (ln + lm) 0)) :=
    (execSboxBuild_of_ok hstages.1 hv).trans (respond_okWord _ (by omega) (by decide))
  refine ⟨u, hstages, ?_⟩
  rw [sboxLoad, List.cons_append, execAll_cons _ (exec_sboxBegin s), execAll_append _ hu, execAll_cons _ ht]
  rfl

theorem getD_mem_of_lt {α : Type} {l : List α} {i : Nat} (h : i < l.length) (d : α) : l.getD i d ∈ l := by
  rw [List.getD_eq_getElem _ _ h]
  exact List.getElem_mem h

/-- Settles O57: the rows are staged in order in the linear layout, and BUILD accepts and installs them. -/
theorem sboxLoadBuildsTheTable : Obligations.SboxLoadBuildsTheTable := by
  refine ⟨fun s table k hk => ?_, fun s ln lm table hb hrows hcols hwidth hattained => ?_⟩
  · rw [sboxLoad, take_of_lt_length hk, List.take_succ_cons]
    exact sboxLoad_answers_zero
  obtain ⟨u, hstages, hrun⟩ := execAll_sboxLoad hb hrows hcols hwidth hattained s
  have hb32 := hb.trans sboxBMax_le
  refine ⟨_, hrun, rfl, rfl, toNat_ofNat_of_lt (by omega), toNat_ofNat_of_lt (by omega), rfl, fun i hi j hj => ?_,
    execAll_sbox_frame isSbox_of_mem_sboxLoad hrun⟩
  have hentry : bitlen ((table.getD i []).getD j 0) ≤ ln + lm := by
    have hrow := getD_mem_of_lt (hrows ▸ hi) []
    exact hwidth _ hrow _ (getD_mem_of_lt (hcols _ hrow ▸ hj) 0)
  refine (sbFwdNat_sboxInstall (rowMajor_lt hi hj)).trans ?_
  rw [sstgBufAt_of_stagesRows hstages hrows hcols hi hj]
  exact toNat_pushOperand ((bitlen_le_iff.1 hentry).trans_le (Nat.pow_le_pow_right (by decide) hb32))

end Sys2Proof.Machine
end
